-- ==== Sys2Proof/Word.lean ====
section
/-! DEFINITION. The value types of the block (spec/00_scope.md rules R6 and R8): unsigned quantities
of a stated width, each a bit vector of that width. -/

namespace Sys2Proof

/-- One 8-bit buffer entry: a Sample, a PackedByte, a RunRecord or a Nibble element (R8). -/
abbrev Byte := BitVec 8

/-- A nibble value, 0..15 (R8). -/
abbrev Nibble := BitVec 4

/-- A 32-bit quantity: register slots, element indices, read and write data (R5 `CNT_W`, R11). -/
abbrev Word := BitVec 32

/-- An image dimension, 16 bits (R5 `DIM_W`). -/
abbrev Dim := BitVec 16

/-- An operation number, 4 bits (R65). -/
abbrev OpNum := BitVec 4

/-- A host transaction as one 67-bit value (R67). -/
abbrev HtWord := BitVec 67

end Sys2Proof
end

