-- ==== Sys2Proof/Syntax.lean ====
section
/-! DEFINITION. One constructor for each of the 32 rows of spec/opcode_table.json
(spec/30_encoding.md): the sixteen values of register OP (R65), the four CTRL commands (R66), the eight
kinds of host transaction (R67) and the four data element formats (R61 to R64). -/

namespace Sys2Proof

/-- Everything the block decodes. Operations and commands have no operand fields (R65); a host
transaction carries an address and write data (the data is ignored on a read, R67); a data element
carries the fields of its format. -/
inductive Instr where
  -- format OP (R65)
  | pixcnt
  | pack
  | qpad
  | combine
  | unpack
  | encode
  | enclen
  | decode
  | packrle
  | illegalOp9
  | illegalOp10
  | illegalOp11
  | illegalOp12
  | illegalOp13
  | illegalOp14
  | illegalOp15
  -- format CTRL (R66)
  | ctrlNone
  | start
  | clear
  | clearWithStartBit
  -- format HT (R67)
  | rdReg (addr data : Word)
  | rdIbuf (addr data : Word)
  | rdObuf (addr data : Word)
  | rdSpace3 (addr data : Word)
  | wrReg (addr data : Word)
  | wrIbuf (addr data : Word)
  | wrObuf (addr data : Word)
  | wrSpace3 (addr data : Word)
  -- format DATA8 (R61 to R64)
  | sample (s : Byte)
  | packedByte (hi lo : Nibble)
  | runRecord (value length : Nibble)
  | nibble (n : Nibble)
  deriving DecidableEq, Repr

/-- Where a word stands says how it is read (R60: the type of an element is fixed by the operation that
reads or writes it, never by its own bits). -/
inductive Format where
  | op
  | ctrl
  | ht
  | sample
  | packedByte
  | runRecord
  | nibble
  deriving DecidableEq, Repr

/-- The format's width in bits (R60). -/
def Format.width : Format → Nat
  | .op => 4
  | .ctrl => 2
  | .ht => 67
  | .sample => 8
  | .packedByte => 8
  | .runRecord => 8
  | .nibble => 8

/-- The format of an instruction (the `format` column of spec/opcode_table.json; the four DATA8 rows
are four formats of R60). -/
def Instr.format : Instr → Format
  | .pixcnt => .op
  | .pack => .op
  | .qpad => .op
  | .combine => .op
  | .unpack => .op
  | .encode => .op
  | .enclen => .op
  | .decode => .op
  | .packrle => .op
  | .illegalOp9 => .op
  | .illegalOp10 => .op
  | .illegalOp11 => .op
  | .illegalOp12 => .op
  | .illegalOp13 => .op
  | .illegalOp14 => .op
  | .illegalOp15 => .op
  | .ctrlNone => .ctrl
  | .start => .ctrl
  | .clear => .ctrl
  | .clearWithStartBit => .ctrl
  | .rdReg _ _ => .ht
  | .rdIbuf _ _ => .ht
  | .rdObuf _ _ => .ht
  | .rdSpace3 _ _ => .ht
  | .wrReg _ _ => .ht
  | .wrIbuf _ _ => .ht
  | .wrObuf _ _ => .ht
  | .wrSpace3 _ _ => .ht
  | .sample _ => .sample
  | .packedByte _ _ => .packedByte
  | .runRecord _ _ => .runRecord
  | .nibble _ => .nibble

end Sys2Proof
end

