-- ==== Sys2Proof/WellFormed.lean ====
section
/-! DEFINITION. Which terms of `Instr` the spec calls legal encodings. The field widths are in the types;
the one remaining check is that a run record's length is not 0 (spec/30_encoding.md rule R63). -/

namespace Sys2Proof

/-- R63: `length` is 1..15; every other field value of every format is legal (R61, R62, R64 to R67). -/
def WellFormed : Instr → Bool
  | .pixcnt => true
  | .pack => true
  | .qpad => true
  | .combine => true
  | .unpack => true
  | .encode => true
  | .enclen => true
  | .decode => true
  | .packrle => true
  | .illegalOp9 => true
  | .illegalOp10 => true
  | .illegalOp11 => true
  | .illegalOp12 => true
  | .illegalOp13 => true
  | .illegalOp14 => true
  | .illegalOp15 => true
  | .ctrlNone => true
  | .start => true
  | .clear => true
  | .clearWithStartBit => true
  | .rdReg _ _ => true
  | .rdIbuf _ _ => true
  | .rdObuf _ _ => true
  | .rdSpace3 _ _ => true
  | .wrReg _ _ => true
  | .wrIbuf _ _ => true
  | .wrObuf _ _ => true
  | .wrSpace3 _ _ => true
  | .sample _ => true
  | .packedByte _ _ => true
  | .runRecord _ length => length != 0
  | .nibble _ => true

end Sys2Proof
end

