-- ==== Sys2Proof/Decode.lean ====
section
/-! DEFINITION. Field assembly (spec/30_encoding.md rule R68), the decoder (total, rejecting by name)
and the encoder, both from the encoding tables R61 to R67. -/

namespace Sys2Proof

/-! ### Field assembly (R68) -/

/-- The high nibble of a byte, bits [7:4] (R6). -/
def highNibble (b : Byte) : Nibble := b.extractLsb' 4 4

/-- The low nibble of a byte, bits [3:0] (R6). -/
def lowNibble (b : Byte) : Nibble := b.extractLsb' 0 4

/-- R68 combine, `(a << 4) | b`: also how a run record is made, `(value << 4) | length`. -/
def combineNibbles (a b : Nibble) : Byte := (a.setWidth 8 <<< 4) ||| b.setWidth 8

/-- A 67-bit transaction from `{h_write, h_space}`, `h_addr` and `h_wdata` (R67). -/
def htWord (kind : BitVec 3) (addr data : Word) : HtWord := (kind ++ addr) ++ data

/-- `{h_write, h_space}` of a transaction, bits [66:64] (R67). -/
def htKind (w : HtWord) : BitVec 3 := w.extractLsb' 64 3

/-- `h_addr`, bits [63:32] (R67). -/
def htAddr (w : HtWord) : Word := w.extractLsb' 32 32

/-- `h_wdata`, bits [31:0] (R67). -/
def htData (w : HtWord) : Word := w.extractLsb' 0 32

/-! ### The decoder -/

/-- Why a word is not an instruction of the format it is read in. -/
inductive DecodeError where
  /-- The number needs more bits than the format has. -/
  | wordTooWide
  /-- A run record with length 0 (R63); DECODE answers it with MalformedStream (R163). -/
  | zeroRunLength
  /-- A nibble element with one of bits [7:4] set (R64); its readers answer InvalidNibble (R166). -/
  | nibbleAbove15
  deriving DecidableEq, Repr

/-- R65: the sixteen values of OP. -/
def decodeOp (n : OpNum) : Instr :=
  match n.toNat with
  | 0 => .pixcnt
  | 1 => .pack
  | 2 => .qpad
  | 3 => .combine
  | 4 => .unpack
  | 5 => .encode
  | 6 => .enclen
  | 7 => .decode
  | 8 => .packrle
  | 9 => .illegalOp9
  | 10 => .illegalOp10
  | 11 => .illegalOp11
  | 12 => .illegalOp12
  | 13 => .illegalOp13
  | 14 => .illegalOp14
  | _ => .illegalOp15

/-- R66: the two command bits of a write to CTRL. -/
def decodeCtrl (c : BitVec 2) : Instr :=
  match c.toNat with
  | 0 => .ctrlNone
  | 1 => .start
  | 2 => .clear
  | _ => .clearWithStartBit

/-- R67: a host transaction; every 67-bit value is one. -/
def decodeHt (w : HtWord) : Instr :=
  match (htKind w).toNat with
  | 0 => .rdReg (htAddr w) (htData w)
  | 1 => .rdIbuf (htAddr w) (htData w)
  | 2 => .rdObuf (htAddr w) (htData w)
  | 3 => .rdSpace3 (htAddr w) (htData w)
  | 4 => .wrReg (htAddr w) (htData w)
  | 5 => .wrIbuf (htAddr w) (htData w)
  | 6 => .wrObuf (htAddr w) (htData w)
  | _ => .wrSpace3 (htAddr w) (htData w)

/-- R63: value and length of a run record, whose length is not 0. -/
def decodeRunRecord (b : Byte) : Except DecodeError (Nibble × Nibble) :=
  if lowNibble b = 0 then .error .zeroRunLength else .ok (highNibble b, lowNibble b)

/-- R64: the value of a nibble element, whose bits [7:4] are 0. -/
def decodeNibble (b : Byte) : Except DecodeError Nibble :=
  if highNibble b = 0 then .ok (lowNibble b) else .error .nibbleAbove15

/-- The decoder: a number read in a format (R60). -/
def decode (f : Format) (w : Nat) : Except DecodeError Instr :=
  if w < 2 ^ f.width then
    match f with
    | .op => .ok (decodeOp (BitVec.ofNat 4 w))
    | .ctrl => .ok (decodeCtrl (BitVec.ofNat 2 w))
    | .ht => .ok (decodeHt (BitVec.ofNat 67 w))
    | .sample => .ok (.sample (BitVec.ofNat 8 w))
    | .packedByte => .ok (.packedByte (highNibble (BitVec.ofNat 8 w)) (lowNibble (BitVec.ofNat 8 w)))
    | .runRecord => (decodeRunRecord (BitVec.ofNat 8 w)).map fun r => .runRecord r.1 r.2
    | .nibble => (decodeNibble (BitVec.ofNat 8 w)).map .nibble
  else .error .wordTooWide

/-! ### The encoder -/

/-- The word of an instruction in its own format, as a number. -/
def encode : Instr → Nat
  | .pixcnt => 0
  | .pack => 1
  | .qpad => 2
  | .combine => 3
  | .unpack => 4
  | .encode => 5
  | .enclen => 6
  | .decode => 7
  | .packrle => 8
  | .illegalOp9 => 9
  | .illegalOp10 => 10
  | .illegalOp11 => 11
  | .illegalOp12 => 12
  | .illegalOp13 => 13
  | .illegalOp14 => 14
  | .illegalOp15 => 15
  | .ctrlNone => 0
  | .start => 1
  | .clear => 2
  | .clearWithStartBit => 3
  | .rdReg a d => (htWord 0 a d).toNat
  | .rdIbuf a d => (htWord 1 a d).toNat
  | .rdObuf a d => (htWord 2 a d).toNat
  | .rdSpace3 a d => (htWord 3 a d).toNat
  | .wrReg a d => (htWord 4 a d).toNat
  | .wrIbuf a d => (htWord 5 a d).toNat
  | .wrObuf a d => (htWord 6 a d).toNat
  | .wrSpace3 a d => (htWord 7 a d).toNat
  | .sample s => s.toNat
  | .packedByte hi lo => (combineNibbles hi lo).toNat
  | .runRecord value length => (combineNibbles value length).toNat
  | .nibble n => n.toNat

/-! ### The host's question about a table word -/

/-- The format in which a bare word of the opcode table is read, from its number of bits and its value.
The table gives a command 2 bits, an operation number 4 and a transaction 67, and `nbits` may be rounded
up to whole bytes. Eight bits alone do not say which format they stand in (R60): a value below 16 is read
as an operation number and any other as a Sample, see notes/assumptions/11.md. -/
def tableFormat (nbits w : Nat) : Option Format :=
  if nbits = 2 then some .ctrl
  else if nbits = 4 then some .op
  else if nbits = 8 then some (if w < 16 then .op else .sample)
  else if nbits = 67 ∨ nbits = 72 then some .ht
  else none

/-- The instruction the decoder reads from a word of the opcode table. -/
def decodeTableWord (nbits w : Nat) : Option Instr :=
  match tableFormat nbits w with
  | none => none
  | some f => (decode f w).toOption

end Sys2Proof
end

