-- ==== Sys2Proof/Config.lean ====
section
/-! DEFINITION. What is fixed for the hardware (spec/00_scope.md rule R5) and the values the spec leaves
unspecified (spec/93_implementation_defined.md U1, U2, U3). The latter are opaque constants without a
body: nothing can evaluate them or prove a value of them. The two buffer depths are parameters (R4);
they are carried in `Machine.Params`, see notes/assumptions/2.md. -/

namespace Sys2Proof.Config

/-- R5 `MAXRUN`: the largest run length one run record carries. -/
def maxRun : Nat := 15

/-- R5 `TD_DEFAULT`: the reset value of TDESIG. -/
def tdDefault : Byte := 0x01

/-- R5 `NOPS`: the number of defined operation numbers, 0..8. -/
def nops : Nat := 9

/-- FREE VALUE (U1): the contents IBUF has after a reset at an entry nothing has written since. The
first argument counts the resets, the second is the entry's index: arbitrary, but the same at every
read until the entry is written. notes/assumptions/3.md. -/
opaque ibufFill : Nat → Nat → Byte

/-- FREE VALUE (U2, U3): what the n-th read of an unspecified value returns. notes/assumptions/4.md. -/
opaque freeRead : Nat → Word

end Sys2Proof.Config
end

