-- ==== Sys2Proof/Machine/State.lean ====
section
/-! DEFINITION. The state of the block (spec/10_state.md R10), the model's own fields beside it, the
reset state (R31) and the reasons a step could stop (there are none: spec/93_implementation_defined.md).
State is plain data. -/

namespace Sys2Proof.Machine

/-- PHASE (R12). -/
inductive Phase where
  | idle
  | check
  | run
  | done
  deriving DecidableEq, Repr

/-- The eight values of ERRCODE, in the order of their codes 0 to 7 (spec/60_exceptions.md R160). -/
inductive ErrCode where
  | noError
  | invalidDimensions
  | invalidLength
  | malformedStream
  | configurationOutOfRange
  | illegalOp
  | invalidNibble
  | capacityExceeded
  deriving DecidableEq, Repr

/-- A buffer: the entries something has written, by index, strictly rising. An index that is not listed
holds no value here; `Block.ibufEntry` and the OBUF read supply the spec's unspecified value for it
(notes/assumptions/3.md). -/
abbrev Memory := List Host.Cell

/-- The canonical form: indices strictly rise, so that equal buffers are equal lists. -/
abbrev Memory.wf (m : Memory) : Prop := m.Pairwise fun c d => c.1 < d.1

/-- The two parameters of R4, fixed for a run: no step changes them (notes/assumptions/2.md). -/
structure Params where
  ibufDepth : Word
  obufDepth : Word
  deriving DecidableEq, Repr

/-- The registers the host writes: OP, WIDTH, HEIGHT, TDESIG, IN_LEN (R17 to R21). -/
structure ConfigRegs where
  op : OpNum
  width : Dim
  height : Dim
  tdesig : Byte
  inLen : Word
  deriving DecidableEq, Repr

/-- The registers that report how an operation ended: STATUS.ERR, ERRCODE, ERRPOS, OUT_LEN, RESULT
(R22 to R26). -/
structure ResultRegs where
  err : Bool
  errCode : ErrCode
  errPos : Word
  outLen : Word
  result : Word
  deriving DecidableEq, Repr

/-- The twelve working registers of the engine (R13), which the host cannot reach. -/
structure Datapath where
  iptr : Word
  optr : Word
  col : Dim
  row : Dim
  sph : Bool
  rep : Nibble
  dval : Nibble
  hold : Nibble
  holdv : Bool
  cur : Nibble
  run : Nibble
  cnt : Word
  deriving DecidableEq, Repr

/-- Everything the spec gives the block (R10), with its two parameters. `ibufEpoch` counts the resets:
it says which arbitrary contents the unwritten IBUF entries have (U1). -/
structure Block where
  params : Params
  phase : Phase
  cfg : ConfigRegs
  res : ResultRegs
  dp : Datapath
  ibuf : Memory
  ibufEpoch : Nat
  obuf : Memory
  deriving DecidableEq, Repr

/-- What can happen next (spec/42_control_and_host.md R140, R149): a host transaction (R67), an engine
step, or reset (R185). -/
inductive Event where
  | txn (w : HtWord)
  | engine
  | reset
  deriving DecidableEq, Repr

/-- The block and the model's own fields: the coming events, oldest first; the value the most recent
read put on `h_rdata`; and the number of unspecified values drawn so far. -/
structure State where
  blk : Block
  port : List Event
  hRdata : Word
  draws : Nat
  deriving DecidableEq, Repr

/-- Why the machine stops with a fault: no unspecified behaviour of this block stops it and no
transaction is answered with an error (93, R169), so there is no reason to list. Safe: nothing stops. -/
inductive Fault where
  deriving DecidableEq, Repr

/-- Why the machine refuses an instruction. -/
inductive Refusal where
  /-- An instruction of the table that has no meaning yet; raised by `exec`'s arm alone. Safe. No arm
  raises it in this model. -/
  | notModelled (mnemonic : String)
  deriving DecidableEq, Repr

/-- All datapath registers 0, as reset, START and CLEAR leave them (R13). -/
def Datapath.zero : Datapath where
  iptr := 0
  optr := 0
  col := 0
  row := 0
  sph := false
  rep := 0
  dval := 0
  hold := 0
  holdv := false
  cur := 0
  run := 0
  cnt := 0

/-- No result and no error, as reset, START and CLEAR leave these registers (R146, R147). -/
def ResultRegs.cleared : ResultRegs where
  err := false
  errCode := .noError
  errPos := 0
  outLen := 0
  result := 0

/-- The configuration registers after reset (R31): all 0 but TDESIG. -/
def ConfigRegs.reset : ConfigRegs where
  op := 0
  width := 0
  height := 0
  tdesig := Config.tdDefault
  inLen := 0

/-- The depths of `State.reset`: 65536, the spec's illustration (R4). DESIGN CHOICE, unsafe to rely on:
no statement does (notes/assumptions/2.md). -/
def Params.illustration : Params where
  ibufDepth := 65536
  obufDepth := 65536

/-- The reset state of R31 for given parameters and a given number of earlier resets. -/
def Block.reset (params : Params) (ibufEpoch : Nat) : Block where
  params := params
  phase := .idle
  cfg := .reset
  res := .cleared
  dp := .zero
  ibuf := []
  ibufEpoch := ibufEpoch
  obuf := []

/-- The machine right after reset, with nothing coming (R31, R185). -/
def State.reset : State where
  blk := .reset .illustration 0
  port := []
  hRdata := 0
  draws := 0

end Sys2Proof.Machine
end

