-- ==== Sys2Proof/Machine/Flags.lean ====
section
/-! DEFINITION. STATUS and the status outputs, which are functions of PHASE and of the stored bit ERR
(spec/10_state.md R22, R32), and the numbers of the error codes (spec/60_exceptions.md R160). -/

namespace Sys2Proof.Machine

/-- The engine is busy when PHASE is CHECK or RUN (R12): STATUS.BUSY. -/
def Block.busy (b : Block) : Bool :=
  match b.phase with
  | .idle => false
  | .check => true
  | .run => true
  | .done => false

/-- STATUS.DONE: PHASE is DONE (R22). -/
def Block.isDone (b : Block) : Bool :=
  match b.phase with
  | .idle => false
  | .check => false
  | .run => false
  | .done => true

/-- STATUS as the host reads it: `{ERR, DONE, BUSY}` in bits [2:0] (R22, R142). -/
def Block.status (b : Block) : BitVec 3 :=
  BitVec.ofBool b.res.err ++ (BitVec.ofBool b.isDone ++ BitVec.ofBool b.busy)

/-- The three status lines `busy_o`, `done_o`, `err_o` (R32). -/
structure StatusLines where
  busy : Bool
  done : Bool
  err : Bool
  deriving DecidableEq, Repr

/-- The lines mirror STATUS at all times (R32). -/
def Block.statusLines (b : Block) : StatusLines where
  busy := b.busy
  done := b.isDone
  err := b.res.err

/-- The number of an error code (R160). -/
def ErrCode.code : ErrCode → BitVec 3
  | .noError => 0
  | .invalidDimensions => 1
  | .invalidLength => 2
  | .malformedStream => 3
  | .configurationOutOfRange => 4
  | .illegalOp => 5
  | .invalidNibble => 6
  | .capacityExceeded => 7

end Sys2Proof.Machine
end

