-- ==== Sys2Proof/Machine/Ops.lean ====
section
/-! DEFINITION. The shared operations: reading and writing a buffer, `Emit` (spec/20_memory.md R47),
`raise` (spec/60_exceptions.md R170) and the ways out of an error (R172), `Complete`
(spec/42_control_and_host.md R153), reset (spec/70_reset_and_hazards.md R185), the delivery of read data,
and the two-stage engine step (42 R151, R152). -/

namespace Sys2Proof.Machine

/-! ### Buffers -/

/-- The byte something has written at index `a`, if any. -/
def Memory.read? : Memory → Nat → Option Byte
  | [], _ => none
  | (k, v) :: m, a => if k = a then some v else Memory.read? m a

/-- Index `a` becomes `v`; the list stays strictly rising. -/
def Memory.write : Memory → Nat → Byte → Memory
  | [], a, v => [(a, v)]
  | (k, x) :: m, a, v =>
    if a < k then (a, v) :: (k, x) :: m
    else if a = k then (a, v) :: m
    else (k, x) :: Memory.write m a v

/-! ### Ends of an operation -/

/-- `raise E(pos)`, the block's exception entry (R170): the code and the position are recorded, nothing
of the operation is kept, PHASE becomes DONE; configuration and IBUF are unchanged. The datapath
registers keep what the step left in them (U4). -/
def Block.raise (e : ErrCode) (pos : Word) (b : Block) : Block :=
  { b with
    res := { err := true, errCode := e, errPos := pos, outLen := 0, result := 0 }
    phase := .done }

/-- `Complete()` (R153): OUT_LEN from OPTR, RESULT as given, PHASE becomes DONE. -/
def Block.complete (result : Word) (b : Block) : Block :=
  { b with
    res := { b.res with outLen := b.dp.optr, result := result }
    phase := .done }

/-! ### Commands (R146, R147), which are also the returns from an error (R172) -/

/-- The effect of an accepted START: results, error and datapath cleared, PHASE becomes CHECK (R146). -/
def Block.launch (b : Block) : Block :=
  { b with res := .cleared, dp := .zero, phase := .check }

/-- START (R146): ignored while the engine is busy. -/
def Block.start (b : Block) : Block :=
  if b.busy then b else b.launch

/-- CLEAR (R147): results, error and datapath cleared, PHASE becomes IDLE, from any phase. -/
def Block.clear (b : Block) : Block :=
  { b with res := .cleared, dp := .zero, phase := .idle }

/-! ### Reset (R185, R186) -/

/-- The reset state for the same parameters; IBUF gets new arbitrary contents (U1, U9). -/
def Block.afterReset (b : Block) : Block :=
  .reset b.params (b.ibufEpoch + 1)

/-! ### Emit (R47) -/

/-- OBUF entry OPTR becomes `v` and OPTR advances. -/
def Block.push (v : Byte) (b : Block) : Block :=
  { b with
    obuf := b.obuf.write b.dp.optr.toNat v
    dp := { b.dp with optr := b.dp.optr + 1 } }

/-- `Emit(v)` followed by `k`: when OBUF is full it raises CapacityExceeded, writes nothing, and the
rest of the step is abandoned (R47, R170). -/
def Block.emit (v : Byte) (k : Block → Block) (b : Block) : Block :=
  if b.dp.optr = b.params.obufDepth then b.raise .capacityExceeded 0 else k (b.push v)

/-! ### The nibble bus and the engine step -/

/-- What a source stage hands to the sink stage: a nibble, or `End` (10_state.md R14). -/
inductive Token where
  | nib (x : Nibble)
  | fin
  deriving DecidableEq, Repr

/-- What a source stage answers: a nibble and the state it leaves, `End` (which changes nothing), or an
error with its position (R14). -/
inductive Fetched where
  | nib (x : Nibble) (b : Block)
  | fin
  | raised (e : ErrCode) (pos : Word)
  deriving DecidableEq, Repr

/-- One RUN step, given what the source stage answered: the sink consumes it, or the error ends the step
(R151). -/
def feed (sink : Token → Block → Block) (b : Block) : Fetched → Block
  | .nib x b' => sink (.nib x) b'
  | .fin => sink .fin b
  | .raised e pos => b.raise e pos

/-- StepRUN (R151) with the stages R14 gives the operation: the source is evaluated first, then the
sink. -/
def runStages (source : Block → Fetched) (sink : Token → Block → Block) (b : Block) : Block :=
  feed sink b (source b)

/-- PW (spec/40_nibble_packer.md R83): the width rounded up to even, 17 bits. -/
def paddedWidth (w : Dim) : Nat := w.toNat + w.toNat % 2

/-- PIXELCOUNT (R83). -/
def pixelCount (w h : Dim) : Nat := h.toNat * paddedWidth w

/-- The operations whose source stage is QPAD: PACK, QPAD and PACKRLE (R14). -/
def usesImage (op : OpNum) : Bool := op = 1 ∨ op = 2 ∨ op = 8

/-- StartChecks() (60 R168): the first check that fails, in the spec's order. -/
def startCheck (op : OpNum) (b : Block) : Option ErrCode :=
  if 9 ≤ op.toNat then some .illegalOp
  else if usesImage op ∧ 15 < b.cfg.tdesig.toNat then some .configurationOutOfRange
  else if usesImage op ∧ (b.cfg.width = 0 ∨ b.cfg.height = 0 ∨
      b.cfg.inLen.toNat ≠ b.cfg.width.toNat * b.cfg.height.toNat) then some .invalidDimensions
  else if op = 3 ∧ b.cfg.inLen.toNat % 2 = 1 then some .invalidLength
  else if op ≠ 0 ∧ b.params.ibufDepth < b.cfg.inLen then some .capacityExceeded
  else none

/-- StepCHECK() (42 R152): the checks, then PIXCNT's result (40 R87) or the move to RUN. -/
def stepCheck (op : OpNum) (b : Block) : Block :=
  match startCheck op b with
  | some e => b.raise e 0
  | none =>
    if op = 0 then
      { b with
        res := { b.res with outLen := 0, result := BitVec.ofNat 32 (pixelCount b.cfg.width b.cfg.height) }
        phase := .done }
    else { b with phase := .run }

/-- One engine step of operation `op` (R150): CHECK or RUN; in IDLE and DONE no step is enabled and
nothing changes (R149). -/
def engineStep (op : OpNum) (run : Block → Block) (b : Block) : Block :=
  match b.phase with
  | .idle => b
  | .check => stepCheck op b
  | .run => run b
  | .done => b

/-! ### The state around the block -/

/-- The block changes and nothing around it does. -/
def State.onBlock (f : Block → Block) (s : State) : State := { s with blk := f s.blk }

/-- A read delivers `v` on `h_rdata` and changes no state of the block (42 R141, 20 R45). -/
def State.deliver (v : Word) (s : State) : State := { s with hRdata := v }

/-- A read of an unspecified 32-bit value: a free value, a new one at every read (U3). -/
def State.deliverFree (s : State) : State :=
  { s with hRdata := Config.freeRead s.draws, draws := s.draws + 1 }

/-- A read of an unspecified entry of IBUF or OBUF: a free value whose bits [31:8] are 0, as R67 says of
every read of those spaces (notes/assumptions/5.md). -/
def State.deliverFreeByte (s : State) : State :=
  { s with hRdata := ((Config.freeRead s.draws).setWidth 8).setWidth 32, draws := s.draws + 1 }

end Sys2Proof.Machine
end

