-- ==== Sys2Proof/Machine/Operands.lean ====
section
/-! DEFINITION. The operand forms: the engine's and the host's view of an IBUF entry
(spec/20_memory.md R46, spec/10_state.md R28), the register map read and written by the host
(spec/42_control_and_host.md R142, R143), the validity of an OBUF entry (10 R29), and the widths write
data is cut to (10 R33). -/

namespace Sys2Proof.Machine

/-- `MemRead(IBUF, i)`: the entry as last written, or the arbitrary but stable value it has had since
reset (U1). -/
def Block.ibufEntry (b : Block) (i : Word) : Byte :=
  (b.ibuf.read? i.toNat).getD (Config.ibufFill b.ibufEpoch i.toNat)

/-- The element the source stages look at, `MemRead(IBUF, IPTR)` (R46). -/
def Block.nextElement (b : Block) : Byte := b.ibufEntry b.dp.iptr

/-- What a register read returns (R142); nothing is specified at 16 and above (20 R49). -/
def Block.regRead (b : Block) (a : Word) : Option Word :=
  match a.toNat with
  | 0 => some 0
  | 1 => some (b.cfg.op.setWidth 32)
  | 2 => some (b.cfg.width.setWidth 32)
  | 3 => some (b.cfg.height.setWidth 32)
  | 4 => some (b.cfg.tdesig.setWidth 32)
  | 5 => some b.cfg.inLen
  | 6 => some (b.status.setWidth 32)
  | 7 => some (b.res.errCode.code.setWidth 32)
  | 8 => some b.res.errPos
  | 9 => some b.res.outLen
  | 10 => some b.res.result
  | n => if n < 16 then some 0 else none

/-- A write of configuration register `a` keeps the low bits of the data (R33); every other number
stores nothing (R143). -/
def ConfigRegs.write (c : ConfigRegs) (a d : Word) : ConfigRegs :=
  match a.toNat with
  | 1 => { c with op := d.setWidth 4 }
  | 2 => { c with width := d.setWidth 16 }
  | 3 => { c with height := d.setWidth 16 }
  | 4 => { c with tdesig := d.setWidth 8 }
  | 5 => { c with inLen := d }
  | _ => c

/-- CtrlWrite(d) (R145): bit 1 is CLEAR and wins (R148), bit 0 is START. -/
def Block.ctrlWrite (d : Word) (b : Block) : Block :=
  if d.getLsbD 1 then b.clear else if d.getLsbD 0 then b.start else b

/-- RegWrite(a, d) (R143): commands in every phase, configuration only while not busy, nothing else. -/
def Block.regWrite (a d : Word) (b : Block) : Block :=
  if a = 0 then b.ctrlWrite d
  else if b.busy then b
  else { b with cfg := b.cfg.write a d }

/-- The host's IBUF write (R144): dropped while busy and beyond the depth; bits [7:0] are kept. -/
def Block.ibufWrite (i d : Word) (b : Block) : Block :=
  if i < b.params.ibufDepth ∧ ¬ b.busy then
    { b with ibuf := b.ibuf.write i.toNat (d.setWidth 8) }
  else b

/-- The OBUF entry a host read returns: defined when PHASE is DONE, ERR is 0 and the index is below
OUT_LEN (R29). -/
def Block.obufRead (b : Block) (i : Word) : Option Byte :=
  if b.phase = .done ∧ b.res.err = false ∧ i < b.res.outLen then b.obuf.read? i.toNat else none

end Sys2Proof.Machine
end

