-- ==== Sys2Proof/Machine/Packer.lean ====
section
/-! DEFINITION. The packer unit (spec/40_nibble_packer.md): its pure functions R81 to R86, the source
stages QPAD, NIB and SPLIT (R92 to R94), the sink stages NIB and COMBINE (R95, R96), and the operations
PIXCNT, PACK, QPAD, COMBINE, UNPACK (R87 to R91), each as one engine step. -/

namespace Sys2Proof.Machine

/-! ### Pure functions -/

/-- `Q` (R81): the nearest nibble to `s / 17`. -/
def quantize (s : Byte) : Nibble := BitVec.ofNat 4 ((s.toNat + 8) / 17)

/-- `X` (R82): the exact inverse of `Q` on its own values; no operation of the block. -/
def expand (n : Nibble) : Byte := BitVec.ofNat 8 (17 * n.toNat)

/-- One row of PAD (R84): the row's nibbles, and the designator when the width is odd. -/
def padRow (g : List Nibble) (w : Nat) (d : Nibble) (r : Nat) : List Nibble :=
  (g.drop (r * w)).take w ++ if w % 2 = 1 then [d] else []

/-- `PAD` (R84): the rows in order. -/
def pad (g : List Nibble) (w h : Nat) (d : Nibble) : List Nibble :=
  (List.range h).flatMap (padRow g w d)

/-- `COMB` (R85): pairs of nibbles to bytes, the first of each pair high; undefined on odd lengths. -/
def comb : List Nibble → Option (List Byte)
  | [] => some []
  | [_] => none
  | a :: b :: p => (comb p).map (combineNibbles a b :: ·)

/-- `SPLIT` (R86): each byte to its high and then its low nibble. -/
def split (bs : List Byte) : List Nibble :=
  bs.flatMap fun b => [highNibble b, lowNibble b]

/-! ### Source stages -/

/-- The column advances; at PW it returns to 0 and the row advances (R92). -/
def Block.advanceColumn (b : Block) : Block :=
  if b.dp.col.toNat + 1 = paddedWidth b.cfg.width then
    { b with dp := { b.dp with col := 0, row := b.dp.row + 1 } }
  else { b with dp := { b.dp with col := b.dp.col + 1 } }

/-- A real pixel: the Sample `v` is quantized and IPTR advances (R92). -/
def takeSample (v : Byte) (b : Block) : Fetched :=
  .nib (quantize v) ({ b with dp := { b.dp with iptr := b.dp.iptr + 1 } } : Block).advanceColumn

/-- SourceQPAD() (R92): `End` after the last row; a real pixel below WIDTH; else the pad pixel. -/
def sourceQpad (b : Block) : Fetched :=
  if b.dp.row = b.cfg.height then .fin
  else if b.dp.col < b.cfg.width then takeSample b.nextElement b
  else .nib (lowNibble b.cfg.tdesig) b.advanceColumn

/-- The Nibble element `n` is taken and IPTR advances (R93). -/
def takeNibble (n : Nibble) (b : Block) : Fetched :=
  .nib n { b with dp := { b.dp with iptr := b.dp.iptr + 1 } }

/-- SourceNIB() (R93): `End` at IN_LEN; an element above 15 raises InvalidNibble at its index. -/
def sourceNib (b : Block) : Fetched :=
  if b.dp.iptr = b.cfg.inLen then .fin
  else
    match decodeNibble b.nextElement with
    | .ok n => takeNibble n b
    | .error _ => .raised .invalidNibble b.dp.iptr

/-- One half of the PackedByte `{hi, lo}`: the high nibble first, IPTR advances with the low one
(R94). -/
def takePackedByte (hi lo : Nibble) (b : Block) : Fetched :=
  if b.dp.sph then .nib lo { b with dp := { b.dp with sph := false, iptr := b.dp.iptr + 1 } }
  else .nib hi { b with dp := { b.dp with sph := true } }

/-- SourceSPLIT() (R94): `End` at IN_LEN, looked at only before a high nibble. -/
def sourceSplit (b : Block) : Fetched :=
  if b.dp.sph = false ∧ b.dp.iptr = b.cfg.inLen then .fin
  else takePackedByte (highNibble b.nextElement) (lowNibble b.nextElement) b

/-! ### Sink stages -/

/-- SinkNIB (R95): one nibble per entry, bits [7:4] zero. -/
def sinkNib : Token → Block → Block
  | .nib x, b => b.emit (x.setWidth 8) id
  | .fin, b => b.complete 0

/-- SinkCOMBINE (R96): the first nibble of a pair is held, the second completes the byte; HOLDV is
cleared only if Emit did not raise. -/
def sinkCombine : Token → Block → Block
  | .nib x, b =>
    if b.dp.holdv then
      b.emit (combineNibbles b.dp.hold x) fun c => { c with dp := { c.dp with holdv := false } }
    else { b with dp := { b.dp with hold := x, holdv := true } }
  | .fin, b => if b.dp.holdv then b.raise .invalidLength 0 else b.complete 0

/-! ### Operations -/

/-- PIXCNT (R87): it ends in CHECK. In RUN, which it never enters, nothing is specified and nothing
changes (notes/assumptions/9.md). -/
def execPixcnt (s : State) : Host.Outcome State Fault Refusal :=
  .next (s.onBlock (engineStep 0 id))

/-- PACK (R88): source QPAD, sink COMBINE. -/
def execPack (s : State) : Host.Outcome State Fault Refusal :=
  .next (s.onBlock (engineStep 1 (runStages sourceQpad sinkCombine)))

/-- QPAD (R89): source QPAD, sink NIB. -/
def execQpad (s : State) : Host.Outcome State Fault Refusal :=
  .next (s.onBlock (engineStep 2 (runStages sourceQpad sinkNib)))

/-- COMBINE (R90): source NIB, sink COMBINE. -/
def execCombine (s : State) : Host.Outcome State Fault Refusal :=
  .next (s.onBlock (engineStep 3 (runStages sourceNib sinkCombine)))

/-- UNPACK (R91): source SPLIT, sink NIB. -/
def execUnpack (s : State) : Host.Outcome State Fault Refusal :=
  .next (s.onBlock (engineStep 4 (runStages sourceSplit sinkNib)))

end Sys2Proof.Machine
end

