-- ==== Sys2Proof/Machine/Codec.lean ====
section
/-! DEFINITION. The run-length unit (spec/41_rle_codec.md): its pure functions R110 and R111, the sink
stages RLE and RLECOUNT (R112, R113), the source stage RUNS (R114), and the operations ENCODE, ENCLEN,
DECODE, PACKRLE (R115 to R118), each as one engine step. -/

namespace Sys2Proof.Machine

/-! ### Pure functions -/

/-- A run record, `(value << 4) | length` (R63); `length` is 1..15 wherever it is used. -/
def mkRecord (value : Nibble) (length : Nat) : Byte :=
  combineNibbles value (BitVec.ofNat 4 length)

/-- Step 2 of the source's algorithm (R110): from position `pos`, extend the run while the next value
equals the current one and `run < 15`. The first argument bounds the number of rounds. -/
def growRun (v : List Nibble) : Nat → Nat → Nat → Nat × Nat
  | 0, pos, run => (pos, run)
  | fuel + 1, pos, run =>
    if pos + 1 < v.length ∧ v[pos + 1]? = v[pos]? ∧ run < Config.maxRun then
      growRun v fuel (pos + 1) (run + 1)
    else (pos, run)

/-- The outer loop of R110 from position `pos`, appending to `out`. The first argument bounds the number
of rounds. -/
def encLoop (v : List Nibble) : Nat → Nat → List Byte → List Byte
  | 0, _, out => out
  | fuel + 1, pos, out =>
    if pos < v.length then
      let grown := growRun v v.length pos 1
      encLoop v fuel (grown.1 + 1) (out ++ [mkRecord (v[grown.1]?.getD 0) grown.2])
    else out

/-- `ENC` (R110), the source's algorithm as transcribed there. -/
def enc (v : List Nibble) : List Byte := encLoop v v.length 0 []

/-- The length of the longest prefix of `x :: v` whose elements all equal `x`, capped at 15 (R110). -/
def runLength (x : Nibble) (v : List Nibble) : Nat :=
  min Config.maxRun (1 + (v.takeWhile (· == x)).length)

/-- The recursive reading of R110, with a bound on the number of records. -/
def encRecGo : Nat → List Nibble → List Byte
  | 0, _ => []
  | _ + 1, [] => []
  | fuel + 1, x :: v =>
    mkRecord x (runLength x v) :: encRecGo fuel ((x :: v).drop (runLength x v))

/-- `ENC` in the recursive reading R110 derives. -/
def encRec (v : List Nibble) : List Byte := encRecGo v.length v

/-- `DEC` from index `i` on (R111): the nibbles, or the index of the first malformed record. -/
def decFrom (i : Nat) : List Byte → Except Nat (List Nibble)
  | [] => .ok []
  | r :: rs =>
    match decodeRunRecord r with
    | .error _ => .error i
    | .ok (value, length) =>
      (decFrom (i + 1) rs).map (List.replicate length.toNat value ++ ·)

/-- `DEC` (R111). -/
def dec (rs : List Byte) : Except Nat (List Nibble) := decFrom 0 rs

/-! ### Stages -/

/-- SinkRLE (R112): the open run is (CUR, RUN), RUN = 0 means none; a run is closed by a different
value, by the cap, or by `End`. -/
def sinkRle : Token → Block → Block
  | .nib x, b =>
    if b.dp.run = 0 then { b with dp := { b.dp with cur := x, run := 1 } }
    else if x = b.dp.cur ∧ b.dp.run.toNat < Config.maxRun then
      { b with dp := { b.dp with run := b.dp.run + 1 } }
    else
      b.emit (combineNibbles b.dp.cur b.dp.run) fun c => { c with dp := { c.dp with cur := x, run := 1 } }
  | .fin, b =>
    if b.dp.run = 0 then b.complete 0
    else
      b.emit (combineNibbles b.dp.cur b.dp.run) fun c =>
        ({ c with dp := { c.dp with run := 0 } } : Block).complete 0

/-- SinkRLECOUNT (R113): as SinkRLE, but a closed run is counted and nothing is written; at `End` CNT is
the result. -/
def sinkRleCount : Token → Block → Block
  | .nib x, b =>
    if b.dp.run = 0 then { b with dp := { b.dp with cur := x, run := 1 } }
    else if x = b.dp.cur ∧ b.dp.run.toNat < Config.maxRun then
      { b with dp := { b.dp with run := b.dp.run + 1 } }
    else { b with dp := { b.dp with cnt := b.dp.cnt + 1, cur := x, run := 1 } }
  | .fin, b =>
    if b.dp.run = 0 then b.complete b.dp.cnt
    else
      ({ b with dp := { b.dp with cnt := b.dp.cnt + 1, run := 0 } } : Block).complete (b.dp.cnt + 1)

/-- The RunRecord `{value, length}` is fetched and its first nibble produced; length 0 raises
MalformedStream at its index (R114). -/
def takeRunRecord (value length : Nibble) (b : Block) : Fetched :=
  if length = 0 then .raised .malformedStream b.dp.iptr
  else .nib value
    { b with dp := { b.dp with dval := value, rep := length - 1, iptr := b.dp.iptr + 1 } }

/-- SourceRUNS() (R114): the rest of the current record first; then `End` at IN_LEN, or the next
record. -/
def sourceRuns (b : Block) : Fetched :=
  if b.dp.rep = 0 then
    if b.dp.iptr = b.cfg.inLen then .fin
    else takeRunRecord (highNibble b.nextElement) (lowNibble b.nextElement) b
  else .nib b.dp.dval { b with dp := { b.dp with rep := b.dp.rep - 1 } }

/-! ### Operations -/

/-- ENCODE (R115): source NIB, sink RLE. -/
def execEncode (s : State) : Host.Outcome State Fault Refusal :=
  .next (s.onBlock (engineStep 5 (runStages sourceNib sinkRle)))

/-- ENCLEN (R116): source NIB, sink RLECOUNT. -/
def execEnclen (s : State) : Host.Outcome State Fault Refusal :=
  .next (s.onBlock (engineStep 6 (runStages sourceNib sinkRleCount)))

/-- DECODE (R117): source RUNS, sink NIB. -/
def execDecode (s : State) : Host.Outcome State Fault Refusal :=
  .next (s.onBlock (engineStep 7 (runStages sourceRuns sinkNib)))

/-- PACKRLE (R118): source QPAD, sink RLE. -/
def execPackrle (s : State) : Host.Outcome State Fault Refusal :=
  .next (s.onBlock (engineStep 8 (runStages sourceQpad sinkRle)))

end Sys2Proof.Machine
end

