-- ==== Sys2Proof/Machine/Commands.lean ====
section
/-! DEFINITION. The four commands of a write to CTRL (spec/30_encoding.md R66,
spec/42_control_and_host.md R145 to R148). -/

namespace Sys2Proof.Machine

/-- Neither bit: no effect (R66). -/
def execCtrlNone (s : State) : Host.Outcome State Fault Refusal :=
  .next s

/-- START (R146). -/
def execStart (s : State) : Host.Outcome State Fault Refusal :=
  .next (s.onBlock Block.start)

/-- CLEAR (R147). -/
def execClear (s : State) : Host.Outcome State Fault Refusal :=
  .next (s.onBlock Block.clear)

/-- Both bits: CLEAR only, the START bit is dropped (R148). -/
def execClearWithStartBit (s : State) : Host.Outcome State Fault Refusal :=
  .next (s.onBlock Block.clear)

end Sys2Proof.Machine
end

