-- ==== Sys2Proof/Machine/Elements.lean ====
section
/-! DEFINITION. The four data element formats (spec/30_encoding.md R61 to R64) as the engine consumes
them. A data element has no effect of its own: its meaning is the RUN step in which the source stage of
the operation in OP takes it from IBUF (spec/40_nibble_packer.md R92 to R94, spec/41_rle_codec.md R114)
and the sink stage consumes the nibble it gave. Where no source stage would take an element of the
format, nothing happens (notes/assumptions/10.md). -/

namespace Sys2Proof.Machine

/-- A Sample, taken by source QPAD of PACK, QPAD or PACKRLE at a real pixel (R92). -/
def Block.consumeSample (v : Byte) (b : Block) : Block :=
  if b.phase = .run ∧ b.dp.row ≠ b.cfg.height ∧ b.dp.col < b.cfg.width then
    match b.cfg.op.toNat with
    | 1 => feed sinkCombine b (takeSample v b)
    | 2 => feed sinkNib b (takeSample v b)
    | 8 => feed sinkRle b (takeSample v b)
    | _ => b
  else b

/-- A PackedByte, one of whose halves source SPLIT of UNPACK takes (R94). -/
def Block.consumePackedByte (hi lo : Nibble) (b : Block) : Block :=
  if b.phase = .run ∧ b.cfg.op = 4 ∧ (b.dp.sph ∨ b.dp.iptr ≠ b.cfg.inLen) then
    feed sinkNib b (takePackedByte hi lo b)
  else b

/-- A RunRecord, fetched by source RUNS of DECODE (R114). -/
def Block.consumeRunRecord (value length : Nibble) (b : Block) : Block :=
  if b.phase = .run ∧ b.cfg.op = 7 ∧ b.dp.rep = 0 ∧ b.dp.iptr ≠ b.cfg.inLen then
    feed sinkNib b (takeRunRecord value length b)
  else b

/-- A Nibble element, taken by source NIB of COMBINE, ENCODE or ENCLEN (R93). -/
def Block.consumeNibble (n : Nibble) (b : Block) : Block :=
  if b.phase = .run ∧ b.dp.iptr ≠ b.cfg.inLen then
    match b.cfg.op.toNat with
    | 3 => feed sinkCombine b (takeNibble n b)
    | 5 => feed sinkRle b (takeNibble n b)
    | 6 => feed sinkRleCount b (takeNibble n b)
    | _ => b
  else b

/-- SAMPLE (R61). -/
def execSample (v : Byte) (s : State) : Host.Outcome State Fault Refusal :=
  .next (s.onBlock (Block.consumeSample v))

/-- PACKEDBYTE (R62). -/
def execPackedByte (hi lo : Nibble) (s : State) : Host.Outcome State Fault Refusal :=
  .next (s.onBlock (Block.consumePackedByte hi lo))

/-- RUNRECORD (R63). -/
def execRunRecord (value length : Nibble) (s : State) : Host.Outcome State Fault Refusal :=
  .next (s.onBlock (Block.consumeRunRecord value length))

/-- NIBBLE (R64). -/
def execNibble (n : Nibble) (s : State) : Host.Outcome State Fault Refusal :=
  .next (s.onBlock (Block.consumeNibble n))

end Sys2Proof.Machine
end

