-- ==== Sys2Proof/Machine/Illegal.lean ====
section
/-! DEFINITION. The seven reserved operation numbers (spec/60_exceptions.md R165): the CHECK step ends
with IllegalOp, tested before everything else. They never enter RUN; there nothing is specified and
nothing changes (notes/assumptions/9.md). -/

namespace Sys2Proof.Machine

/-- OP = 9 (R165). -/
def execIllegalOp9 (s : State) : Host.Outcome State Fault Refusal :=
  .next (s.onBlock (engineStep 9 id))

/-- OP = 10 (R165). -/
def execIllegalOp10 (s : State) : Host.Outcome State Fault Refusal :=
  .next (s.onBlock (engineStep 10 id))

/-- OP = 11 (R165). -/
def execIllegalOp11 (s : State) : Host.Outcome State Fault Refusal :=
  .next (s.onBlock (engineStep 11 id))

/-- OP = 12 (R165). -/
def execIllegalOp12 (s : State) : Host.Outcome State Fault Refusal :=
  .next (s.onBlock (engineStep 12 id))

/-- OP = 13 (R165). -/
def execIllegalOp13 (s : State) : Host.Outcome State Fault Refusal :=
  .next (s.onBlock (engineStep 13 id))

/-- OP = 14 (R165). -/
def execIllegalOp14 (s : State) : Host.Outcome State Fault Refusal :=
  .next (s.onBlock (engineStep 14 id))

/-- OP = 15 (R165). -/
def execIllegalOp15 (s : State) : Host.Outcome State Fault Refusal :=
  .next (s.onBlock (engineStep 15 id))

end Sys2Proof.Machine
end

