-- ==== Sys2Proof/Machine/Transactions.lean ====
section
/-! DEFINITION. The eight kinds of host transaction (spec/42_control_and_host.md R142 to R144,
spec/20_memory.md R49). None is refused and none raises an error (spec/60_exceptions.md R169). -/

namespace Sys2Proof.Machine

/-- A register read (R142); the write data is ignored (R67). -/
def execRdReg (a _d : Word) (s : State) : Host.Outcome State Fault Refusal :=
  match s.blk.regRead a with
  | some v => .next (s.deliver v)
  | none => .next s.deliverFree

/-- An IBUF read (R144): the entry in every phase; unspecified beyond the depth. -/
def execRdIbuf (i _d : Word) (s : State) : Host.Outcome State Fault Refusal :=
  if i < s.blk.params.ibufDepth then .next (s.deliver ((s.blk.ibufEntry i).setWidth 32))
  else .next s.deliverFreeByte

/-- An OBUF read (R144): the entry when it is valid (10_state.md R29), else unspecified. -/
def execRdObuf (i _d : Word) (s : State) : Host.Outcome State Fault Refusal :=
  match s.blk.obufRead i with
  | some v => .next (s.deliver (v.setWidth 32))
  | none => .next s.deliverFreeByte

/-- A read of the reserved space: unspecified (R49). -/
def execRdSpace3 (_a _d : Word) (s : State) : Host.Outcome State Fault Refusal :=
  .next s.deliverFree

/-- A register write (R143). -/
def execWrReg (a d : Word) (s : State) : Host.Outcome State Fault Refusal :=
  .next (s.onBlock (Block.regWrite a d))

/-- An IBUF write (R144). -/
def execWrIbuf (i d : Word) (s : State) : Host.Outcome State Fault Refusal :=
  .next (s.onBlock (Block.ibufWrite i d))

/-- A write to OBUF is ignored (R49, R144). -/
def execWrObuf (_i _d : Word) (s : State) : Host.Outcome State Fault Refusal :=
  .next s

/-- A write to the reserved space is ignored (R49). -/
def execWrSpace3 (_a _d : Word) (s : State) : Host.Outcome State Fault Refusal :=
  .next s

end Sys2Proof.Machine
end

