-- ==== Sys2Proof/Machine/Dispatch.lean ====
section
/-! DEFINITION. The one dispatch from an instruction to its meaning. -/

namespace Sys2Proof.Machine

def exec (i : Instr) (s : State) : Host.Outcome State Fault Refusal :=
  match i with
  | .pixcnt => Sys2Proof.Machine.execPixcnt s
  | .pack => Sys2Proof.Machine.execPack s
  | .qpad => Sys2Proof.Machine.execQpad s
  | .combine => Sys2Proof.Machine.execCombine s
  | .unpack => Sys2Proof.Machine.execUnpack s
  | .encode => Sys2Proof.Machine.execEncode s
  | .enclen => Sys2Proof.Machine.execEnclen s
  | .decode => Sys2Proof.Machine.execDecode s
  | .packrle => Sys2Proof.Machine.execPackrle s
  | .illegalOp9 => Sys2Proof.Machine.execIllegalOp9 s
  | .illegalOp10 => Sys2Proof.Machine.execIllegalOp10 s
  | .illegalOp11 => Sys2Proof.Machine.execIllegalOp11 s
  | .illegalOp12 => Sys2Proof.Machine.execIllegalOp12 s
  | .illegalOp13 => Sys2Proof.Machine.execIllegalOp13 s
  | .illegalOp14 => Sys2Proof.Machine.execIllegalOp14 s
  | .illegalOp15 => Sys2Proof.Machine.execIllegalOp15 s
  | .ctrlNone => Sys2Proof.Machine.execCtrlNone s
  | .start => Sys2Proof.Machine.execStart s
  | .clear => Sys2Proof.Machine.execClear s
  | .clearWithStartBit => Sys2Proof.Machine.execClearWithStartBit s
  | .rdReg a d => Sys2Proof.Machine.execRdReg a d s
  | .rdIbuf a d => Sys2Proof.Machine.execRdIbuf a d s
  | .rdObuf a d => Sys2Proof.Machine.execRdObuf a d s
  | .rdSpace3 a d => Sys2Proof.Machine.execRdSpace3 a d s
  | .wrReg a d => Sys2Proof.Machine.execWrReg a d s
  | .wrIbuf a d => Sys2Proof.Machine.execWrIbuf a d s
  | .wrObuf a d => Sys2Proof.Machine.execWrObuf a d s
  | .wrSpace3 a d => Sys2Proof.Machine.execWrSpace3 a d s
  | .sample v => Sys2Proof.Machine.execSample v s
  | .packedByte hi lo => Sys2Proof.Machine.execPackedByte hi lo s
  | .runRecord value length => Sys2Proof.Machine.execRunRecord value length s
  | .nibble n => Sys2Proof.Machine.execNibble n s

end Sys2Proof.Machine
end

