-- ==== Sys2Proof/Machine/Engine.lean ====
section
/-! DEFINITION. The engine as an agent (spec/42_control_and_host.md R149, R150), and the states in which
it is about to run a given operation or take a given element. -/

namespace Sys2Proof.Machine

/-- An engine step (R150): while busy, the operation number in OP is read (spec/10_state.md R15), decoded
and executed; otherwise no step is enabled and nothing changes. -/
def engineEvent (s : State) : Host.Outcome State Fault Refusal :=
  if s.blk.busy then exec (decodeOp s.blk.cfg.op) s else .next s

/-- The event comes before those already waiting. -/
def State.before (e : Event) (s : State) : State := { s with port := e :: s.port }

/-- An operation just launched: OP holds its number and START has been accepted (R146). -/
def State.launched (op : OpNum) (s : State) : State :=
  s.onBlock fun b => ({ b with cfg := { b.cfg with op := op } } : Block).launch

/-- QPAD about to take the Sample `v`, the one pixel of a 1 × 1 image (40_nibble_packer.md R92). -/
def State.awaitingSample (v : Byte) (s : State) : State :=
  s.onBlock fun b =>
    { b.launch with
      phase := .run
      cfg := { b.cfg with op := 2, width := 1, height := 1, inLen := 1 }
      ibuf := b.ibuf.write 0 v }

end Sys2Proof.Machine
end

