-- ==== Sys2Proof/Machine/Step.lean ====
section
/-! DEFINITION. One step of the machine: the next event happens (spec/42_control_and_host.md R149). -/

namespace Sys2Proof.Machine

/-- The next event is taken from `port` and happens: a transaction is decoded and executed, the engine
steps, or the block is reset. When nothing is coming the engine steps if it can
(notes/assumptions/1.md). -/
def step (s : State) : Host.Outcome State Fault Refusal :=
  match s.port with
  | [] => engineEvent s
  | .engine :: rest => engineEvent { s with port := rest }
  | .txn w :: rest => exec (decodeHt w) { s with port := rest }
  | .reset :: rest => .next (({ s with port := rest } : State).onBlock Block.afterReset)

/-- The state in which the next step runs the word `w` of the opcode table: a transaction comes next, a
command comes as the write to CTRL that carries it (R145), an operation number stands in OP with the
operation launched and an engine step next, a data element stands in IBUF where the engine step takes it
(notes/assumptions/12.md). -/
def State.withFetchWord (s : State) (nbits w : Nat) : State :=
  match tableFormat nbits w with
  | some .ht => s.before (.txn (BitVec.ofNat 67 w))
  | some .ctrl => s.before (.txn (htWord 4 0 (BitVec.ofNat 32 w)))
  | some .op => (s.launched (BitVec.ofNat 4 w)).before .engine
  | some .sample => (s.awaitingSample (BitVec.ofNat 8 w)).before .engine
  | _ => s

end Sys2Proof.Machine
end

