-- ==== Sys2Proof/Machine/Contract.lean ====
section
/-! DEFINITION. The operations as wholes (spec/42_control_and_host.md R154): the result contract of each
operation as a function of the launch state (spec/40_nibble_packer.md R87 to R91, spec/41_rle_codec.md
R115 to R118), and which error ends it otherwise (spec/60_exceptions.md R168). -/

namespace Sys2Proof.Machine

/-- How an operation ends: with its output elements and RESULT, or with an error and its position. -/
inductive Verdict where
  | success (out : List Byte) (result : Word)
  | failure (e : ErrCode) (pos : Word)
  deriving DecidableEq, Repr

/-- `IBUF[0 .. IN_LEN)`. -/
def Block.inputElements (b : Block) : List Byte :=
  (List.range b.cfg.inLen.toNat).map fun k => b.ibufEntry (BitVec.ofNat 32 k)

/-- The padded nibble stream of PACK, QPAD and PACKRLE: `PAD(map Q samples, W, H, T[3:0])`. -/
def Block.paddedStream (b : Block) : List Nibble :=
  pad (b.inputElements.map quantize) b.cfg.width.toNat b.cfg.height.toNat (lowNibble b.cfg.tdesig)

/-- The longest prefix of the input whose elements are all at most 15 (R93 stops after it). -/
def Block.nibblePrefix (b : Block) : List Nibble :=
  (b.inputElements.takeWhile fun e => highNibble e == 0).map lowNibble

/-- The output if it fits OBUF, else CapacityExceeded (R47, R167). -/
def Block.emitted (b : Block) (out : List Byte) : Verdict :=
  if out.length ≤ b.params.obufDepth.toNat then .success out 0 else .failure .capacityExceeded 0

/-- The end of an operation reading Nibble elements: `sofar` bytes are emitted before the first element
above 15, if there is one (60 R168: the first error met ends the operation). -/
def Block.nibbleVerdict (b : Block) (sofar : Nat) (whole : Verdict) : Verdict :=
  if b.nibblePrefix.length < b.cfg.inLen.toNat then
    if b.params.obufDepth.toNat < sofar then .failure .capacityExceeded 0
    else .failure .invalidNibble (BitVec.ofNat 32 b.nibblePrefix.length)
  else whole

/-- The sum of the length fields of the records before the first malformed one (R117). -/
def goodRunTotal : List Byte → Nat
  | [] => 0
  | r :: rs => if lowNibble r = 0 then 0 else (lowNibble r).toNat + goodRunTotal rs

/-- The closed form R117 gives for DECODE. -/
def Block.decodeVerdict (b : Block) : Verdict :=
  if b.params.obufDepth.toNat < goodRunTotal b.inputElements then .failure .capacityExceeded 0
  else
    match dec b.inputElements with
    | .error i => .failure .malformedStream (BitVec.ofNat 32 i)
    | .ok v => .success (v.map (·.setWidth 8)) 0

/-- The output COMB makes of a stream; an odd stream would end in the sink's InvalidLength test, which no
operation reaches (R96). -/
def Block.combVerdict (b : Block) (p : List Nibble) : Verdict :=
  match comb p with
  | some out => b.emitted out
  | none => .failure .invalidLength 0

/-- How operation `op` ends when it is launched with these registers and this IBUF: the start-time checks
(60 R168), then the operation's result contract and run-time errors. -/
def Block.verdict (op : OpNum) (b : Block) : Verdict :=
  match startCheck op b with
  | some e => .failure e 0
  | none =>
    match op.toNat with
    | 0 => .success [] (BitVec.ofNat 32 (pixelCount b.cfg.width b.cfg.height))
    | 1 => b.combVerdict b.paddedStream
    | 2 => b.emitted (b.paddedStream.map (·.setWidth 8))
    | 3 => b.nibbleVerdict (b.nibblePrefix.length / 2) (b.combVerdict b.nibblePrefix)
    | 4 => b.emitted ((split b.inputElements).map (·.setWidth 8))
    | 5 => b.nibbleVerdict ((enc b.nibblePrefix).length - 1) (b.emitted (enc b.nibblePrefix))
    | 6 => b.nibbleVerdict 0 (.success [] (BitVec.ofNat 32 (enc b.nibblePrefix).length))
    | 7 => b.decodeVerdict
    | 8 => b.emitted (enc b.paddedStream)
    | _ => .failure .illegalOp 0

end Sys2Proof.Machine
end

