-- ==== Sys2Proof/Machine/Port.lean ====
section
/-! DEFINITION. The host port (spec/42_control_and_host.md R141): the pins sampled at a clock edge, and
the events they are (spec/60_exceptions.md R177). -/

namespace Sys2Proof.Machine

/-- The input pins (R141), sampled at one rising edge of `clk`. -/
structure Pins where
  rst : Bool
  hValid : Bool
  hWrite : Bool
  hSpace : BitVec 2
  hAddr : Word
  hWdata : Word
  deriving DecidableEq, Repr

/-- The transaction the pins present, as a 67-bit value (R67). -/
def Pins.transaction (p : Pins) : HtWord :=
  htWord (BitVec.ofBool p.hWrite ++ p.hSpace) p.hAddr p.hWdata

/-- The events of one clock cycle in their order: with `rst` high reset alone (R185, R177); else the
transaction if one is presented, and after it the engine step if one falls in this cycle (R149). -/
def Pins.events (p : Pins) (engineSteps : Bool) : List Event :=
  if p.rst then [.reset]
  else (if p.hValid then [.txn p.transaction] else []) ++ if engineSteps then [.engine] else []

/-- The cycle's events come after those already waiting. -/
def State.present (p : Pins) (engineSteps : Bool) (s : State) : State :=
  { s with port := s.port ++ p.events engineSteps }

end Sys2Proof.Machine
end

