-- ==== Sys2Proof/Machine/Script.lean ====
section
/-! DEFINITION. Host scripts (spec/30_encoding.md R70, R71): the lines, the transactions they stand for,
the pseudo-lines, and how the host performs a script against the machine under any schedule. -/

namespace Sys2Proof.Machine

/-- A register by its name in the map (spec/10_state.md R11), or by its number. -/
inductive RegName where
  | ctrl
  | op
  | width
  | height
  | tdesig
  | inLen
  | status
  | errCode
  | errPos
  | outLen
  | result
  | number (n : Word)
  deriving DecidableEq, Repr

/-- The register's number (R11). -/
def RegName.toWord : RegName → Word
  | .ctrl => 0
  | .op => 1
  | .width => 2
  | .height => 3
  | .tdesig => 4
  | .inLen => 5
  | .status => 6
  | .errCode => 7
  | .errPos => 8
  | .outLen => 9
  | .result => 10
  | .number n => n

/-- One line of a host script (R70). -/
inductive ScriptLine where
  | wr (reg : RegName) (v : Word)
  | rd (reg : RegName)
  | wri (i v : Word)
  | rdi (i : Word)
  | rdo (i : Word)
  deriving DecidableEq, Repr

/-- The transaction a line performs, in the HT digits of R70. -/
def ScriptLine.word : ScriptLine → HtWord
  | .wr reg v => htWord 4 reg.toWord v
  | .rd reg => htWord 0 reg.toWord 0
  | .wri i v => htWord 5 i v
  | .rdi i => htWord 1 i 0
  | .rdo i => htWord 2 i 0

/-- START (R71). -/
def ScriptLine.startLine : ScriptLine := .wr .ctrl 1

/-- CLEAR (R71). -/
def ScriptLine.clearLine : ScriptLine := .wr .ctrl 2

/-- What the host does next in a script: a line of R70, or one of the acts that depend on values read
(R71). -/
inductive HostAct where
  /-- The transaction of a line; a value read is not looked at. -/
  | line (l : ScriptLine)
  /-- `RD STATUS`, again and again until the value read has bit 0 (BUSY) = 0. -/
  | wait
  /-- `RD OUT_LEN` giving `m`, then `RDO 0` to `RDO m − 1`, whose values are kept. -/
  | dump
  /-- `RDO i`, whose value is kept, all 32 bits of it, after those already kept. -/
  | keep (i : Word)
  /-- `LOAD` of the values kept. -/
  | loadKept
  deriving DecidableEq, Repr

/-- WAIT (R71). -/
def scriptWait : List HostAct := [.wait]

/-- The `WRI` lines of LOAD, from index `i` on. -/
def scriptWriteFrom (i : Nat) : List Word → List ScriptLine
  | [] => []
  | v :: vs => .wri (BitVec.ofNat 32 i) v :: scriptWriteFrom (i + 1) vs

/-- LOAD (R71): the values to IBUF from entry 0, and their number to IN_LEN. R71 gives the values no width
of their own: in the model they are 32 bits, as the data of the WRI lines they become, of which IBUF keeps
the low eight (10 R33); their number and their indices are 32 bits too (notes/assumptions/21.md). -/
def scriptLoad (vs : List Word) : List ScriptLine :=
  scriptWriteFrom 0 vs ++ [.wr .inLen (BitVec.ofNat 32 vs.length)]

/-- RUNOP (R71): OP, START, and WAIT for the end. -/
def scriptRunop (op : OpNum) : List HostAct :=
  [.line (.wr .op (op.setWidth 32)), .line .startLine] ++ scriptWait

/-- DUMP (R71). -/
def scriptDump : List HostAct := [.dump]

/-- MOVEOUT (R71): DUMP, then LOAD of the values read. -/
def scriptMoveout : List HostAct := scriptDump ++ [.loadKept]

/-! ### Performing a script -/

/-- A script being performed: what the host has still to do, the values the current DUMP has read so far
in their order, and the machine. -/
structure ScriptRun where
  todo : List HostAct
  kept : List Word
  machine : State
  deriving DecidableEq, Repr

/-- The machine performs the transaction of line `l`; the script goes on as `k` says of the state after
it, in which `hRdata` is the value read. -/
def State.transact (l : ScriptLine) (k : State → ScriptRun) (s : State) :
    Host.Outcome ScriptRun Fault Refusal :=
  match step (s.before (.txn l.word)) with
  | .next t => .next (k t)
  | .fault f => .fault f
  | .refused r => .refused r

/-- The host's next act: at most one transaction (R70: a line is performed completely before the
next). -/
def ScriptRun.hostTurn (r : ScriptRun) : Host.Outcome ScriptRun Fault Refusal :=
  match r.todo with
  | [] => .next r
  | .line l :: rest => r.machine.transact l fun t => { r with todo := rest, machine := t }
  | .wait :: rest =>
    r.machine.transact (.rd .status) fun t =>
      { r with todo := if t.hRdata.getLsbD 0 then .wait :: rest else rest, machine := t }
  | .dump :: rest =>
    r.machine.transact (.rd .outLen) fun t =>
      { todo := (List.range t.hRdata.toNat).map (fun i => .keep (BitVec.ofNat 32 i)) ++ rest
        kept := []
        machine := t }
  | .keep i :: rest =>
    r.machine.transact (.rdo i) fun t =>
      { todo := rest, kept := r.kept ++ [t.hRdata], machine := t }
  | .loadKept :: rest => .next { r with todo := (scriptLoad r.kept).map .line ++ rest }

/-- An engine step between two acts of the host. -/
def ScriptRun.engineTurn (r : ScriptRun) : Host.Outcome ScriptRun Fault Refusal :=
  match step (r.machine.before .engine) with
  | .next t => .next { r with machine := t }
  | .fault f => .fault f
  | .refused e => .refused e

/-- Whose turn it is. -/
inductive Turn where
  | host
  | engine
  deriving DecidableEq, Repr

/-- The script performed under a schedule: between any two acts of the host the engine takes any number
of steps, including none (R70). Every interleaving is some schedule. -/
def ScriptRun.run : List Turn → ScriptRun → Host.Outcome ScriptRun Fault Refusal
  | [], r => .next r
  | t :: ts, r =>
    match (match t with
      | .host => r.hostTurn
      | .engine => r.engineTurn) with
    | .next r' => ScriptRun.run ts r'
    | .fault f => .fault f
    | .refused e => .refused e

/-- Lines that depend on no value read, as coming events, with an engine step count for each line, taken
after it; a missing count is 0. -/
def scriptEvents : List ScriptLine → List Nat → List Event
  | [], _ => []
  | l :: ls, [] => .txn l.word :: scriptEvents ls []
  | l :: ls, n :: ns => .txn l.word :: (List.replicate n .engine ++ scriptEvents ls ns)

end Sys2Proof.Machine
end

