-- ==== Sys2Proof/Safety.lean ====
section
/-! DEFINITION. The terms claims are stated in: the invariant of reachable states (spec/10_state.md R34),
a whole run of an operation and how it shows its verdict (spec/42_control_and_host.md R154), the step
bound (spec/70_reset_and_hazards.md R203), the error codes an operation can end with
(spec/60_exceptions.md R174), and the host events that cannot disturb a running operation. -/

namespace Sys2Proof.Machine

/-! ### The invariant of reachable states -/

/-- The type R34 gives the output elements of an operation: QPAD, UNPACK and DECODE write nibbles, ENCODE
and PACKRLE write run records with a length; every other byte is a packed byte and any value will do. -/
def elementTyped (op : OpNum) (v : Byte) : Prop :=
  ((op = 2 ∨ op = 4 ∨ op = 7) → highNibble v = 0) ∧ ((op = 5 ∨ op = 8) → lowNibble v ≠ 0)

/-- What holds while an operation is in RUN (R34, R13): its start-time checks passed, the input pointer
is within the input, the elements written so far are of the operation's type, each stage's registers are
used by the operations that have the stage, and they say how far the stage has come. -/
structure Block.RunInv (b : Block) : Prop where
  launched : b.res = .cleared
  checked : b.cfg.op ≠ 0 ∧ startCheck b.cfg.op b = none
  iptrInInput : b.dp.iptr ≤ b.cfg.inLen
  written : ∀ i < b.dp.optr.toNat, ∃ v, b.obuf.read? i = some v ∧ elementTyped b.cfg.op v
  holdUsers : b.dp.holdv → b.cfg.op = 1 ∨ b.cfg.op = 3
  runUsers : b.dp.run ≠ 0 → b.cfg.op = 5 ∨ b.cfg.op = 6 ∨ b.cfg.op = 8
  splitUser : b.dp.sph → b.cfg.op = 4 ∧ b.dp.iptr ≠ b.cfg.inLen
  grid : usesImage b.cfg.op →
    b.dp.col.toNat < paddedWidth b.cfg.width ∧ b.dp.row ≤ b.cfg.height ∧
    (b.dp.row = b.cfg.height → b.dp.col = 0) ∧
    b.dp.iptr.toNat = b.dp.row.toNat * b.cfg.width.toNat + min b.dp.col.toNat b.cfg.width.toNat
  packHold : b.cfg.op = 1 → (b.dp.holdv ↔ b.dp.col.toNat % 2 = 1)
  combineHold : b.cfg.op = 3 → (b.dp.holdv ↔ b.dp.iptr.toNat % 2 = 1)
  counted : b.cfg.op = 6 → b.dp.cnt.toNat + (if b.dp.run = 0 then 0 else 1) ≤ b.dp.iptr.toNat

/-- What holds in every reachable state (R34, R22, R24 to R26): the parameters are legal, the buffers are
canonical and within their depths, the error registers agree, a result shows only in DONE without an
error and every valid OBUF entry has been written, nothing is in progress in IDLE and CHECK. -/
structure Block.Inv (b : Block) : Prop where
  depthsLegal : b.params.ibufDepth ≠ 0 ∧ b.params.obufDepth ≠ 0
  ibufWf : b.ibuf.wf
  obufWf : b.obuf.wf
  ibufWithin : ∀ c ∈ b.ibuf, c.1 < b.params.ibufDepth.toNat
  obufWithin : ∀ c ∈ b.obuf, c.1 < b.params.obufDepth.toNat
  optrWithin : b.dp.optr ≤ b.params.obufDepth
  errAgrees : b.res.err ↔ b.res.errCode ≠ .noError
  errInDone : b.res.err → b.phase = .done
  errPosUsers : b.res.errPos ≠ 0 → b.res.errCode = .malformedStream ∨ b.res.errCode = .invalidNibble
  outLenShown : b.res.outLen ≠ 0 → b.phase = .done ∧ b.res.err = false
  resultShown : b.res.result ≠ 0 → b.phase = .done ∧ b.res.err = false
  outLenWithin : b.res.outLen ≤ b.params.obufDepth
  outValid : ∀ i < b.res.outLen.toNat, ∃ v, b.obuf.read? i = some v
  quiet : b.phase = .idle ∨ b.phase = .check → b.dp = .zero ∧ b.res = .cleared
  running : b.phase = .run → b.RunInv

/-- The invariant of a state is that of its block. -/
def State.Inv (s : State) : Prop := s.blk.Inv

/-! ### Whole operations -/

/-- The state a START leaves, with no event waiting, so that every step is an engine step (R146). -/
def State.Launched (s : State) : Prop :=
  s.blk.phase = .check ∧ s.blk.dp = .zero ∧ s.blk.res = .cleared ∧ s.port = []

/-- The end state shows the verdict to the host (R153, R170, R29): after success OUT_LEN, RESULT and every
OBUF entry below OUT_LEN; after an error its code and position, and no result. -/
def Block.Shows (b : Block) : Verdict → Prop
  | .success out result =>
    b.phase = .done ∧
    b.res = { err := false, errCode := .noError, errPos := 0, outLen := BitVec.ofNat 32 out.length,
              result := result } ∧
    out.length ≤ b.params.obufDepth.toNat ∧
    ∀ i (h : i < out.length), b.obufRead (BitVec.ofNat 32 i) = some out[i]
  | .failure e pos =>
    b.phase = .done ∧
    b.res = { err := true, errCode := e, errPos := pos, outLen := 0, result := 0 }

/-- After `n` steps from `s` the operation has ended with verdict `v`, and everything outside PHASE, the
result registers, the datapath and OBUF is as it was. -/
def EndsWith (n : Nat) (s : State) (v : Verdict) : Prop :=
  ∃ b : Block,
    Host.Core.run Sys2Proof.core n s = .next { s with blk := b } ∧
    b.cfg = s.blk.cfg ∧ b.params = s.blk.params ∧ b.ibuf = s.blk.ibuf ∧ b.ibufEpoch = s.blk.ibufEpoch ∧
    b.Shows v

/-- The number of engine steps R203 allows operation `op`; which errors take fewer, see
notes/assumptions/22.md. -/
def Block.stepBound (op : OpNum) (b : Block) : Nat :=
  match op.toNat with
  | 1 => 2 + pixelCount b.cfg.width b.cfg.height
  | 2 => 2 + pixelCount b.cfg.width b.cfg.height
  | 3 => 2 + b.cfg.inLen.toNat
  | 4 => 2 + 2 * b.cfg.inLen.toNat
  | 5 => 2 + b.cfg.inLen.toNat
  | 6 => 2 + b.cfg.inLen.toNat
  | 7 => 2 + min (15 * b.cfg.inLen.toNat) (b.params.obufDepth.toNat + 1)
  | 8 => 2 + pixelCount b.cfg.width b.cfg.height
  | _ => 1

/-- ENCODE or PACKRLE, launched so that every record but the last fits OBUF: the last record is emitted at
End (41_rle_codec.md R112) and finds OBUF full, as in 95_test_vectors.md V6A and V84. -/
def Block.lastRecordOverflows (op : OpNum) (b : Block) : Prop :=
  startCheck op b = none ∧
  (op = 5 ∧ b.nibblePrefix.length = b.cfg.inLen.toNat ∧
      (enc b.nibblePrefix).length = b.params.obufDepth.toNat + 1 ∨
    op = 8 ∧ (enc b.paddedStream).length = b.params.obufDepth.toNat + 1)

/-! ### The padded nibble stream, one nibble at a time (40_nibble_packer.md R92) -/

/-- The nibble at (ROW, COL) of the padded grid: a quantized sample, or the designator in the column
after the last real one. -/
def Block.gridNibble (b : Block) : Nibble :=
  if b.dp.col < b.cfg.width then quantize b.nextElement else lowNibble b.cfg.tdesig

/-- The datapath registers when that nibble has been produced. -/
def Block.afterGridNibble (b : Block) : Datapath :=
  { b.dp with
    iptr := if b.dp.col < b.cfg.width then b.dp.iptr + 1 else b.dp.iptr
    col := if b.dp.col.toNat + 1 = paddedWidth b.cfg.width then 0 else b.dp.col + 1
    row := if b.dp.col.toNat + 1 = paddedWidth b.cfg.width then b.dp.row + 1 else b.dp.row }

/-- The state after an error of R170. -/
def State.failed (e : ErrCode) (pos : Word) (s : State) : State :=
  { s with
    blk := { s.blk with
      phase := .done
      res := { err := true, errCode := e, errPos := pos, outLen := 0, result := 0 } } }

/-- A nibble stream and then `End` given to a sink stage (41_rle_codec.md R120). -/
def feedStream (sink : Token → Block → Block) : List Nibble → Block → Block
  | [], b => sink .fin b
  | x :: v, b => feedStream sink v (sink (.nib x) b)

/-! ### Errors by operation (R174) -/

/-- The codes the table of R174 allows an operation to end with; nothing but an operation has an entry. -/
def allowedErrors : Instr → List ErrCode
  | .pack => [.invalidDimensions, .configurationOutOfRange, .capacityExceeded]
  | .qpad => [.invalidDimensions, .configurationOutOfRange, .capacityExceeded]
  | .combine => [.invalidLength, .invalidNibble, .capacityExceeded]
  | .unpack => [.capacityExceeded]
  | .encode => [.invalidNibble, .capacityExceeded]
  | .enclen => [.invalidNibble, .capacityExceeded]
  | .decode => [.malformedStream, .capacityExceeded]
  | .packrle => [.invalidDimensions, .configurationOutOfRange, .capacityExceeded]
  | .illegalOp9 => [.illegalOp]
  | .illegalOp10 => [.illegalOp]
  | .illegalOp11 => [.illegalOp]
  | .illegalOp12 => [.illegalOp]
  | .illegalOp13 => [.illegalOp]
  | .illegalOp14 => [.illegalOp]
  | .illegalOp15 => [.illegalOp]
  | _ => []

/-! ### Host events during an operation -/

/-- The transaction writes CTRL with the CLEAR bit (R145). -/
def isClearWrite (w : HtWord) : Bool := htKind w = 4 ∧ htAddr w = 0 ∧ (htData w).getLsbD 1

/-- An event that does not cut an operation short: neither reset nor CLEAR (20_memory.md R50). -/
def Event.harmless : Event → Bool
  | .engine => true
  | .txn w => ! isClearWrite w
  | .reset => false

end Sys2Proof.Machine
end

