-- ==== Sys2Proof/Certificates/Slice0/Obligations.lean ====
section
/-! DEFINITION. The statements for the provers, from the numbered rules of spec/. -/

open Sys2Proof Sys2Proof.Machine

/-! ### Encodings -/

/-- Decoding the word of a well-formed instruction, in its own format, gives it back: no bit of an
operand is dropped (R60 to R67). -/
def Obligations.DecodeOfEncodeIsIdentity : Prop :=
  ∀ i : Instr, WellFormed i = true → decode i.format (encode i) = .ok i

/-- Every 67-bit value is the word of exactly the transaction it decodes to (R67). -/
def Obligations.TransactionWordIsWordOfItsDecoding : Prop :=
  ∀ w : HtWord, (decodeHt w).format = .ht ∧ WellFormed (decodeHt w) = true ∧
    encode (decodeHt w) = w.toNat

/-- Words written out from the tables of R62 to R67 decode to the instructions they stand for. -/
def Obligations.SpecWordsDecodeAsWritten : Prop :=
  decode .op 0b0001 = .ok .pack ∧ decode .op 0b0111 = .ok .decode ∧ decode .op 0b1111 = .ok .illegalOp15 ∧
  decode .ctrl 0b01 = .ok .start ∧ decode .ctrl 0b11 = .ok .clearWithStartBit ∧
  decode .ht 0x40000000200000003 = .ok (.wrReg 2 3) ∧
  decode .ht 0x50000000400000009 = .ok (.wrIbuf 4 9) ∧
  decode .ht 0x20000000100000000 = .ok (.rdObuf 1 0) ∧
  decode .packedByte 0b10101011 = .ok (.packedByte 0b1010 0b1011) ∧
  decode .runRecord 0b10011111 = .ok (.runRecord 0b1001 0b1111)

/-- R63, R64: among the bytes, the sixteen with a zero low nibble are no run records and those above 15
are no nibble elements; every other byte is one, with the fields its bits give. -/
def Obligations.IllegalElementsAreRejectedByName : Prop :=
  ∀ b : Byte,
    decode .runRecord b.toNat =
      (if b.toNat % 16 = 0 then .error .zeroRunLength
       else .ok (.runRecord (BitVec.ofNat 4 (b.toNat / 16)) (BitVec.ofNat 4 (b.toNat % 16)))) ∧
    decode .nibble b.toNat =
      (if 15 < b.toNat then .error .nibbleAbove15 else .ok (.nibble (BitVec.ofNat 4 b.toNat)))

/-! ### Steps -/

/-- When a transaction comes next, the step executes the instruction its 67 bits decode to, on the state
in which the transaction no longer waits (R141, R149). -/
def Obligations.StepExecutesDecodedTransaction : Prop :=
  ∀ (s : State) (w : HtWord) (rest : List Event), s.port = .txn w :: rest →
    step s = exec (decodeHt w) { s with port := rest }

/-- When an engine step comes next, or nothing does, the step executes the operation whose number stands
in OP while the engine is busy, and changes nothing else while it is not (R15, R149, R150). -/
def Obligations.StepExecutesOperationInOp : Prop :=
  ∀ s : State,
    (∀ rest, s.port = .engine :: rest → (s.blk.phase = .check ∨ s.blk.phase = .run) →
      step s = exec (decodeOp s.blk.cfg.op) { s with port := rest }) ∧
    (∀ rest, s.port = .engine :: rest → (s.blk.phase = .idle ∨ s.blk.phase = .done) →
      step s = .next { s with port := rest }) ∧
    (s.port = [] → (s.blk.phase = .check ∨ s.blk.phase = .run) →
      step s = exec (decodeOp s.blk.cfg.op) s) ∧
    (s.port = [] → (s.blk.phase = .idle ∨ s.blk.phase = .done) → step s = .next s)

/-- R185, R186: reset, in any state, gives the reset values of R31 to every register, and every IBUF entry
an unspecified value, a new one for this reset; no OBUF read is valid. The parameters stay. -/
def Obligations.ResetEventGivesResetState : Prop :=
  ∀ (s : State) (rest : List Event), s.port = .reset :: rest →
    ∃ b : Block, step s = .next { s with port := rest, blk := b } ∧
      b.phase = .idle ∧ b.cfg = ⟨0, 0, 0, 0x01, 0⟩ ∧ b.res = ⟨false, .noError, 0, 0, 0⟩ ∧
      b.dp = ⟨0, 0, 0, 0, false, 0, 0, 0, false, 0, 0, 0⟩ ∧ b.params = s.blk.params ∧
      (∀ i, b.ibufEntry i = Config.ibufFill (s.blk.ibufEpoch + 1) i.toNat) ∧
      (∀ i, b.obufRead i = none)

/-- R31: the values of the reset state, as the host reads them: TDESIG 1, every other register 0, all
status lines low; every datapath register 0; no OBUF entry valid; every IBUF entry unspecified. -/
def Obligations.ResetStateHasTheSpecsValues : Prop :=
  State.reset.blk.phase = .idle ∧
  (∀ a : Word, a.toNat < 16 → State.reset.blk.regRead a = some (if a = 4 then 1 else 0)) ∧
  State.reset.blk.statusLines = ⟨false, false, false⟩ ∧
  State.reset.blk.dp = ⟨0, 0, 0, 0, false, 0, 0, 0, false, 0, 0, 0⟩ ∧
  (∀ i, State.reset.blk.obufRead i = none) ∧
  (∀ i, State.reset.blk.ibufEntry i = Config.ibufFill 0 i.toNat)

/-! ### Host transactions -/

/-- R142, R23: what a register read puts on `h_rdata`, for every register number and every error code
(R160); from 16 on some value (in the
model a free one, notes/assumptions/4.md). The write data plays no part and nothing else changes. -/
def Obligations.RegisterReadReturnsMappedValue : Prop :=
  ∀ (s : State) (a d : Word),
    (a = 0 → exec (.rdReg a d) s = .next { s with hRdata := 0 }) ∧
    (a = 1 → exec (.rdReg a d) s = .next { s with hRdata := s.blk.cfg.op.setWidth 32 }) ∧
    (a = 2 → exec (.rdReg a d) s = .next { s with hRdata := s.blk.cfg.width.setWidth 32 }) ∧
    (a = 3 → exec (.rdReg a d) s = .next { s with hRdata := s.blk.cfg.height.setWidth 32 }) ∧
    (a = 4 → exec (.rdReg a d) s = .next { s with hRdata := s.blk.cfg.tdesig.setWidth 32 }) ∧
    (a = 5 → exec (.rdReg a d) s = .next { s with hRdata := s.blk.cfg.inLen }) ∧
    (∀ v : Word, v.toNat = (if s.blk.phase = .check ∨ s.blk.phase = .run then 1 else 0) +
        (if s.blk.phase = .done then 2 else 0) + (if s.blk.res.err then 4 else 0) →
      a = 6 → exec (.rdReg a d) s = .next { s with hRdata := v }) ∧
    (∀ e ∈ [(ErrCode.noError, (0 : Word)), (.invalidDimensions, 1), (.invalidLength, 2),
        (.malformedStream, 3), (.configurationOutOfRange, 4), (.illegalOp, 5), (.invalidNibble, 6),
        (.capacityExceeded, 7)],
      s.blk.res.errCode = e.1 → a = 7 → exec (.rdReg a d) s = .next { s with hRdata := e.2 }) ∧
    (a = 8 → exec (.rdReg a d) s = .next { s with hRdata := s.blk.res.errPos }) ∧
    (a = 9 → exec (.rdReg a d) s = .next { s with hRdata := s.blk.res.outLen }) ∧
    (a = 10 → exec (.rdReg a d) s = .next { s with hRdata := s.blk.res.result }) ∧
    (11 ≤ a.toNat → a.toNat ≤ 15 → exec (.rdReg a d) s = .next { s with hRdata := 0 }) ∧
    (16 ≤ a.toNat → ∃ v n, exec (.rdReg a d) s = .next { s with hRdata := v, draws := n })

/-- R144, R29, R49, R67: what a read of IBUF, OBUF or the reserved space puts on `h_rdata`: the IBUF entry
in every phase, the OBUF entry when it is valid, and a free value otherwise (eight bits of it from a
buffer). The OBUF clause is for an entry that has been written, as every valid one of a reachable state
has (`StepKeepsInvariant`). -/
def Obligations.BufferReadReturnsEntryOrFreeValue : Prop :=
  ∀ (s : State) (i d : Word),
    (i < s.blk.params.ibufDepth →
      exec (.rdIbuf i d) s = .next { s with hRdata := (s.blk.ibufEntry i).setWidth 32 }) ∧
    (s.blk.params.ibufDepth ≤ i →
      exec (.rdIbuf i d) s =
        .next { s with hRdata := ((Config.freeRead s.draws).setWidth 8).setWidth 32, draws := s.draws + 1 }) ∧
    (∀ v, s.blk.phase = .done → s.blk.res.err = false → i < s.blk.res.outLen →
      s.blk.obuf.read? i.toNat = some v → exec (.rdObuf i d) s = .next { s with hRdata := v.setWidth 32 }) ∧
    (s.blk.phase ≠ .done ∨ s.blk.res.err = true ∨ s.blk.res.outLen ≤ i →
      exec (.rdObuf i d) s =
        .next { s with hRdata := ((Config.freeRead s.draws).setWidth 8).setWidth 32, draws := s.draws + 1 }) ∧
    exec (.rdSpace3 i d) s = .next { s with hRdata := Config.freeRead s.draws, draws := s.draws + 1 }

/-- R45: a read changes no state of the block and takes nothing from the events to come; the data bits of
the transaction make no difference. -/
def Obligations.ReadsChangeNoBlockState : Prop :=
  ∀ (s : State) (a d d' : Word), ∀ rd ∈ [Instr.rdReg, Instr.rdIbuf, Instr.rdObuf, Instr.rdSpace3],
    ∃ v n, exec (rd a d) s = .next { s with hRdata := v, draws := n } ∧ exec (rd a d') s = exec (rd a d) s

/-- R143, R190: a write of CTRL is a command in every phase; a write of a configuration register keeps the
low bits when the engine is not busy and is dropped when it is; a write of any register number above 5
does nothing in any phase. -/
def Obligations.RegisterWriteStoresLowBitsOrNothing : Prop :=
  ∀ (s : State) (a d : Word),
    (a = 0 → exec (.wrReg a d) s = exec (decodeCtrl (d.extractLsb' 0 2)) s) ∧
    (s.blk.phase = .idle ∨ s.blk.phase = .done →
      (a = 1 → exec (.wrReg a d) s =
        .next { s with blk := { s.blk with cfg := { s.blk.cfg with op := d.extractLsb' 0 4 } } }) ∧
      (a = 2 → exec (.wrReg a d) s =
        .next { s with blk := { s.blk with cfg := { s.blk.cfg with width := d.extractLsb' 0 16 } } }) ∧
      (a = 3 → exec (.wrReg a d) s =
        .next { s with blk := { s.blk with cfg := { s.blk.cfg with height := d.extractLsb' 0 16 } } }) ∧
      (a = 4 → exec (.wrReg a d) s =
        .next { s with blk := { s.blk with cfg := { s.blk.cfg with tdesig := d.extractLsb' 0 8 } } }) ∧
      (a = 5 → exec (.wrReg a d) s =
        .next { s with blk := { s.blk with cfg := { s.blk.cfg with inLen := d } } })) ∧
    (s.blk.phase = .check ∨ s.blk.phase = .run → 1 ≤ a.toNat → a.toNat ≤ 5 →
      exec (.wrReg a d) s = .next s) ∧
    (6 ≤ a.toNat → exec (.wrReg a d) s = .next s)

/-- R145, R66: a write to CTRL performs CLEAR when bit 1 is set, whatever bit 0 is, START when only bit 0
is set, and nothing when neither is, whatever its other bits are; the command without either bit has no
effect. -/
def Obligations.CtrlWritePerformsCommand : Prop :=
  ∀ (s : State) (d : Word),
    (d.getLsbD 1 = true → exec (.wrReg 0 d) s = exec .clear s ∧
      exec (.wrReg 0 d) s = exec .clearWithStartBit s) ∧
    (d.getLsbD 1 = false → d.getLsbD 0 = true → exec (.wrReg 0 d) s = exec .start s) ∧
    (d.getLsbD 1 = false → d.getLsbD 0 = false → exec (.wrReg 0 d) s = .next s) ∧
    exec .ctrlNone s = .next s

/-- R144, R191, R49: a write of IBUF stores bits [7:0] in that entry and no other when the entry exists
and the engine is not busy, in the buffer and in what the host and the engine read of it; otherwise, and to OBUF or the reserved space, it does nothing. -/
def Obligations.BufferWriteStoresByteOrNothing : Prop :=
  ∀ (s : State) (i d : Word),
    (i < s.blk.params.ibufDepth → s.blk.phase = .idle ∨ s.blk.phase = .done →
      ∃ m : Memory, exec (.wrIbuf i d) s = .next { s with blk := { s.blk with ibuf := m } } ∧
        m.read? i.toNat = some (d.extractLsb' 0 8) ∧
        (∀ a, a ≠ i.toNat → m.read? a = s.blk.ibuf.read? a) ∧
        ({ s.blk with ibuf := m } : Block).ibufEntry i = d.extractLsb' 0 8 ∧
        (∀ j, j ≠ i → ({ s.blk with ibuf := m } : Block).ibufEntry j = s.blk.ibufEntry j) ∧
        (∀ d' : Word, exec (.rdIbuf i d') { s with blk := { s.blk with ibuf := m } } =
          .next { s with
            blk := { s.blk with ibuf := m }, hRdata := (d.extractLsb' 0 8).setWidth 32 })) ∧
    (s.blk.params.ibufDepth ≤ i ∨ s.blk.phase = .check ∨ s.blk.phase = .run →
      exec (.wrIbuf i d) s = .next s) ∧
    exec (.wrObuf i d) s = .next s ∧
    exec (.wrSpace3 i d) s = .next s

/-! ### Commands -/

/-- R146: START in IDLE or DONE clears results, error and datapath and moves to CHECK; while busy it is
ignored. Configuration and IBUF are left alone. That the list Block.obuf is kept is the model's choice
(notes/assumptions/18.md); the spec leaves OBUF unspecified from START on, and no host read shows it. -/
def Obligations.StartLaunchesUnlessBusy : Prop :=
  ∀ s : State,
    (s.blk.phase = .idle ∨ s.blk.phase = .done →
      exec .start s = .next { s with blk := { s.blk with
        phase := .check
        res := ⟨false, .noError, 0, 0, 0⟩
        dp := ⟨0, 0, 0, 0, false, 0, 0, 0, false, 0, 0, 0⟩ } }) ∧
    (s.blk.phase = .check ∨ s.blk.phase = .run → exec .start s = .next s)

/-- R147, R148: CLEAR, with or without the START bit, returns the engine to IDLE from any phase and clears
results, error and datapath; configuration and IBUF are left alone. That the list Block.obuf is kept is
the model's choice (notes/assumptions/18.md); the spec leaves OBUF unspecified after CLEAR, and no host
read shows it. -/
def Obligations.ClearReturnsToIdleFromAnyPhase : Prop :=
  ∀ s : State, ∀ i ∈ [Instr.clear, Instr.clearWithStartBit],
    exec i s = .next { s with blk := { s.blk with
      phase := .idle
      res := ⟨false, .noError, 0, 0, 0⟩
      dp := ⟨0, 0, 0, 0, false, 0, 0, 0, false, 0, 0, 0⟩ } }

/-! ### The CHECK step -/

/-- R168, R161, R162, R164, R167 (a), R170: the start-time checks of the eight operations that have any,
in their order; the first that fails ends the operation with its code and position 0. -/
def Obligations.StartTimeChecksRaiseInOrder : Prop :=
  ∀ s : State, s.blk.phase = .check →
    (∀ i ∈ [Instr.pack, Instr.qpad, Instr.packrle],
      (15 < s.blk.cfg.tdesig.toNat → exec i s = .next (s.failed .configurationOutOfRange 0)) ∧
      (s.blk.cfg.tdesig.toNat ≤ 15 →
        (s.blk.cfg.width = 0 ∨ s.blk.cfg.height = 0 ∨
          s.blk.cfg.inLen.toNat ≠ s.blk.cfg.width.toNat * s.blk.cfg.height.toNat) →
        exec i s = .next (s.failed .invalidDimensions 0)) ∧
      (s.blk.cfg.tdesig.toNat ≤ 15 → s.blk.cfg.width ≠ 0 → s.blk.cfg.height ≠ 0 →
        s.blk.cfg.inLen.toNat = s.blk.cfg.width.toNat * s.blk.cfg.height.toNat →
        s.blk.params.ibufDepth < s.blk.cfg.inLen →
        exec i s = .next (s.failed .capacityExceeded 0))) ∧
    (s.blk.cfg.inLen.toNat % 2 = 1 → exec .combine s = .next (s.failed .invalidLength 0)) ∧
    (s.blk.cfg.inLen.toNat % 2 = 0 → s.blk.params.ibufDepth < s.blk.cfg.inLen →
      exec .combine s = .next (s.failed .capacityExceeded 0)) ∧
    (∀ i ∈ [Instr.unpack, Instr.encode, Instr.enclen, Instr.decode],
      s.blk.params.ibufDepth < s.blk.cfg.inLen → exec i s = .next (s.failed .capacityExceeded 0))

/-- R165: the CHECK step of every reserved operation number ends with IllegalOp, whatever the other
registers hold. -/
def Obligations.ReservedOperationRaisesIllegalOp : Prop :=
  ∀ s : State, s.blk.phase = .check →
    ∀ i ∈ [Instr.illegalOp9, Instr.illegalOp10, Instr.illegalOp11, Instr.illegalOp12,
        Instr.illegalOp13, Instr.illegalOp14, Instr.illegalOp15],
      exec i s = .next (s.failed .illegalOp 0)

/-- R87: PIXCNT ends in its CHECK step, whatever TDESIG, IN_LEN and the depths are: RESULT is the exact
padded pixel count, OUT_LEN 0, and nothing else of the block changes. -/
def Obligations.PixcntGivesPaddedPixelCount : Prop :=
  ∀ s : State, s.blk.phase = .check →
    ∃ r : Word, exec .pixcnt s = .next { s with blk := { s.blk with
        phase := .done, res := { s.blk.res with outLen := 0, result := r } } } ∧
      r.toNat = s.blk.cfg.height.toNat * (s.blk.cfg.width.toNat + s.blk.cfg.width.toNat % 2)

/-- R152: when its checks pass, the CHECK step of each of the other eight operations only moves to RUN. -/
def Obligations.PassedChecksEnterRun : Prop :=
  ∀ s : State, s.blk.phase = .check → s.blk.cfg.inLen ≤ s.blk.params.ibufDepth →
    (∀ i ∈ [Instr.pack, Instr.qpad, Instr.packrle],
      s.blk.cfg.tdesig.toNat ≤ 15 → s.blk.cfg.width ≠ 0 → s.blk.cfg.height ≠ 0 →
      s.blk.cfg.inLen.toNat = s.blk.cfg.width.toNat * s.blk.cfg.height.toNat →
      exec i s = .next { s with blk := { s.blk with phase := .run } }) ∧
    (s.blk.cfg.inLen.toNat % 2 = 0 →
      exec .combine s = .next { s with blk := { s.blk with phase := .run } }) ∧
    (∀ i ∈ [Instr.unpack, Instr.encode, Instr.enclen, Instr.decode],
      exec i s = .next { s with blk := { s.blk with phase := .run } })

/-! ### The RUN steps -/

/-- PACK in RUN (R92, R96): the first nibble of a pair is held, the second completes a byte in OBUF at
OPTR; after the last row the operation completes. -/
def Obligations.PackRunSteps : Prop :=
  ∀ s : State, s.blk.phase = .run →
    (s.blk.dp.row ≠ s.blk.cfg.height → s.blk.dp.holdv = false →
      exec .pack s = .next { s with blk := { s.blk with
        dp := { s.blk.afterGridNibble with hold := s.blk.gridNibble, holdv := true } } }) ∧
    (s.blk.dp.row ≠ s.blk.cfg.height → s.blk.dp.holdv = true → s.blk.dp.optr ≠ s.blk.params.obufDepth →
      exec .pack s = .next { s with blk := { s.blk with
        obuf := s.blk.obuf.write s.blk.dp.optr.toNat (combineNibbles s.blk.dp.hold s.blk.gridNibble)
        dp := { s.blk.afterGridNibble with optr := s.blk.dp.optr + 1, holdv := false } } }) ∧
    (s.blk.dp.row = s.blk.cfg.height → s.blk.dp.holdv = false →
      exec .pack s = .next { s with blk := { s.blk with
        phase := .done, res := { s.blk.res with outLen := s.blk.dp.optr, result := 0 } } })

/-- QPAD in RUN (R92, R95): each nibble of the padded stream becomes one OBUF entry at OPTR; after the
last row the operation completes. -/
def Obligations.QpadRunSteps : Prop :=
  ∀ s : State, s.blk.phase = .run →
    (s.blk.dp.row ≠ s.blk.cfg.height → s.blk.dp.optr ≠ s.blk.params.obufDepth →
      exec .qpad s = .next { s with blk := { s.blk with
        obuf := s.blk.obuf.write s.blk.dp.optr.toNat (BitVec.ofNat 8 s.blk.gridNibble.toNat)
        dp := { s.blk.afterGridNibble with optr := s.blk.dp.optr + 1 } } }) ∧
    (s.blk.dp.row = s.blk.cfg.height →
      exec .qpad s = .next { s with blk := { s.blk with
        phase := .done, res := { s.blk.res with outLen := s.blk.dp.optr, result := 0 } } })

/-- PACKRLE in RUN (R92, R112): a nibble opens a run, extends it, or closes it and opens another; after
the last row the open run is closed and the operation completes. -/
def Obligations.PackrleRunSteps : Prop :=
  ∀ s : State, s.blk.phase = .run →
    (s.blk.dp.row ≠ s.blk.cfg.height → s.blk.dp.run = 0 →
      exec .packrle s = .next { s with blk := { s.blk with
        dp := { s.blk.afterGridNibble with cur := s.blk.gridNibble, run := 1 } } }) ∧
    (s.blk.dp.row ≠ s.blk.cfg.height → s.blk.dp.run ≠ 0 →
      s.blk.gridNibble = s.blk.dp.cur ∧ s.blk.dp.run.toNat < 15 →
      exec .packrle s = .next { s with blk := { s.blk with
        dp := { s.blk.afterGridNibble with run := s.blk.dp.run + 1 } } }) ∧
    (s.blk.dp.row ≠ s.blk.cfg.height → s.blk.dp.run ≠ 0 →
      ¬ (s.blk.gridNibble = s.blk.dp.cur ∧ s.blk.dp.run.toNat < 15) →
      s.blk.dp.optr ≠ s.blk.params.obufDepth →
      exec .packrle s = .next { s with blk := { s.blk with
        obuf := s.blk.obuf.write s.blk.dp.optr.toNat (combineNibbles s.blk.dp.cur s.blk.dp.run)
        dp := { s.blk.afterGridNibble with
          optr := s.blk.dp.optr + 1, cur := s.blk.gridNibble, run := 1 } } }) ∧
    (s.blk.dp.row = s.blk.cfg.height → s.blk.dp.run = 0 →
      exec .packrle s = .next { s with blk := { s.blk with
        phase := .done, res := { s.blk.res with outLen := s.blk.dp.optr, result := 0 } } }) ∧
    (s.blk.dp.row = s.blk.cfg.height → s.blk.dp.run ≠ 0 → s.blk.dp.optr ≠ s.blk.params.obufDepth →
      exec .packrle s = .next { s with blk := { s.blk with
        phase := .done
        obuf := s.blk.obuf.write s.blk.dp.optr.toNat (combineNibbles s.blk.dp.cur s.blk.dp.run)
        dp := { s.blk.dp with optr := s.blk.dp.optr + 1, run := 0 }
        res := { s.blk.res with outLen := s.blk.dp.optr + 1, result := 0 } } })

/-- COMBINE in RUN (R93, R96): as PACK, on the nibble elements of IBUF. -/
def Obligations.CombineRunSteps : Prop :=
  ∀ s : State, s.blk.phase = .run →
    (s.blk.dp.iptr ≠ s.blk.cfg.inLen → s.blk.nextElement.toNat ≤ 15 → s.blk.dp.holdv = false →
      exec .combine s = .next { s with blk := { s.blk with
        dp := { s.blk.dp with
          iptr := s.blk.dp.iptr + 1, hold := lowNibble s.blk.nextElement, holdv := true } } }) ∧
    (s.blk.dp.iptr ≠ s.blk.cfg.inLen → s.blk.nextElement.toNat ≤ 15 → s.blk.dp.holdv = true →
      s.blk.dp.optr ≠ s.blk.params.obufDepth →
      exec .combine s = .next { s with blk := { s.blk with
        obuf := s.blk.obuf.write s.blk.dp.optr.toNat
          (combineNibbles s.blk.dp.hold (lowNibble s.blk.nextElement))
        dp := { s.blk.dp with
          iptr := s.blk.dp.iptr + 1, optr := s.blk.dp.optr + 1, holdv := false } } }) ∧
    (s.blk.dp.iptr = s.blk.cfg.inLen → s.blk.dp.holdv = false →
      exec .combine s = .next { s with blk := { s.blk with
        phase := .done, res := { s.blk.res with outLen := s.blk.dp.optr, result := 0 } } })

/-- UNPACK in RUN (R94, R95): the high nibble of the byte at IPTR, then its low nibble, each becomes one
OBUF entry; IPTR advances with the low one; at IN_LEN the operation completes. -/
def Obligations.UnpackRunSteps : Prop :=
  ∀ s : State, s.blk.phase = .run →
    (s.blk.dp.sph = false → s.blk.dp.iptr ≠ s.blk.cfg.inLen → s.blk.dp.optr ≠ s.blk.params.obufDepth →
      exec .unpack s = .next { s with blk := { s.blk with
        obuf := s.blk.obuf.write s.blk.dp.optr.toNat (BitVec.ofNat 8 (s.blk.nextElement.toNat / 16))
        dp := { s.blk.dp with sph := true, optr := s.blk.dp.optr + 1 } } }) ∧
    (s.blk.dp.sph = true → s.blk.dp.optr ≠ s.blk.params.obufDepth →
      exec .unpack s = .next { s with blk := { s.blk with
        obuf := s.blk.obuf.write s.blk.dp.optr.toNat (BitVec.ofNat 8 (s.blk.nextElement.toNat % 16))
        dp := { s.blk.dp with
          sph := false, iptr := s.blk.dp.iptr + 1, optr := s.blk.dp.optr + 1 } } }) ∧
    (s.blk.dp.sph = false → s.blk.dp.iptr = s.blk.cfg.inLen →
      exec .unpack s = .next { s with blk := { s.blk with
        phase := .done, res := { s.blk.res with outLen := s.blk.dp.optr, result := 0 } } })

/-- ENCODE in RUN (R93, R112): as PACKRLE, on the nibble elements of IBUF. -/
def Obligations.EncodeRunSteps : Prop :=
  ∀ s : State, s.blk.phase = .run →
    (s.blk.dp.iptr ≠ s.blk.cfg.inLen → s.blk.nextElement.toNat ≤ 15 → s.blk.dp.run = 0 →
      exec .encode s = .next { s with blk := { s.blk with
        dp := { s.blk.dp with
          iptr := s.blk.dp.iptr + 1, cur := lowNibble s.blk.nextElement, run := 1 } } }) ∧
    (s.blk.dp.iptr ≠ s.blk.cfg.inLen → s.blk.nextElement.toNat ≤ 15 → s.blk.dp.run ≠ 0 →
      lowNibble s.blk.nextElement = s.blk.dp.cur ∧ s.blk.dp.run.toNat < 15 →
      exec .encode s = .next { s with blk := { s.blk with
        dp := { s.blk.dp with iptr := s.blk.dp.iptr + 1, run := s.blk.dp.run + 1 } } }) ∧
    (s.blk.dp.iptr ≠ s.blk.cfg.inLen → s.blk.nextElement.toNat ≤ 15 → s.blk.dp.run ≠ 0 →
      ¬ (lowNibble s.blk.nextElement = s.blk.dp.cur ∧ s.blk.dp.run.toNat < 15) →
      s.blk.dp.optr ≠ s.blk.params.obufDepth →
      exec .encode s = .next { s with blk := { s.blk with
        obuf := s.blk.obuf.write s.blk.dp.optr.toNat (combineNibbles s.blk.dp.cur s.blk.dp.run)
        dp := { s.blk.dp with
          iptr := s.blk.dp.iptr + 1, optr := s.blk.dp.optr + 1
          cur := lowNibble s.blk.nextElement, run := 1 } } }) ∧
    (s.blk.dp.iptr = s.blk.cfg.inLen → s.blk.dp.run = 0 →
      exec .encode s = .next { s with blk := { s.blk with
        phase := .done, res := { s.blk.res with outLen := s.blk.dp.optr, result := 0 } } }) ∧
    (s.blk.dp.iptr = s.blk.cfg.inLen → s.blk.dp.run ≠ 0 → s.blk.dp.optr ≠ s.blk.params.obufDepth →
      exec .encode s = .next { s with blk := { s.blk with
        phase := .done
        obuf := s.blk.obuf.write s.blk.dp.optr.toNat (combineNibbles s.blk.dp.cur s.blk.dp.run)
        dp := { s.blk.dp with optr := s.blk.dp.optr + 1, run := 0 }
        res := { s.blk.res with outLen := s.blk.dp.optr + 1, result := 0 } } })

/-- ENCLEN in RUN (R93, R113): as ENCODE, but a closed run only advances CNT, and CNT is the result; no
room in OBUF is needed. -/
def Obligations.EnclenRunSteps : Prop :=
  ∀ s : State, s.blk.phase = .run →
    (s.blk.dp.iptr ≠ s.blk.cfg.inLen → s.blk.nextElement.toNat ≤ 15 → s.blk.dp.run = 0 →
      exec .enclen s = .next { s with blk := { s.blk with
        dp := { s.blk.dp with
          iptr := s.blk.dp.iptr + 1, cur := lowNibble s.blk.nextElement, run := 1 } } }) ∧
    (s.blk.dp.iptr ≠ s.blk.cfg.inLen → s.blk.nextElement.toNat ≤ 15 → s.blk.dp.run ≠ 0 →
      lowNibble s.blk.nextElement = s.blk.dp.cur ∧ s.blk.dp.run.toNat < 15 →
      exec .enclen s = .next { s with blk := { s.blk with
        dp := { s.blk.dp with iptr := s.blk.dp.iptr + 1, run := s.blk.dp.run + 1 } } }) ∧
    (s.blk.dp.iptr ≠ s.blk.cfg.inLen → s.blk.nextElement.toNat ≤ 15 → s.blk.dp.run ≠ 0 →
      ¬ (lowNibble s.blk.nextElement = s.blk.dp.cur ∧ s.blk.dp.run.toNat < 15) →
      exec .enclen s = .next { s with blk := { s.blk with
        dp := { s.blk.dp with
          iptr := s.blk.dp.iptr + 1, cnt := s.blk.dp.cnt + 1
          cur := lowNibble s.blk.nextElement, run := 1 } } }) ∧
    (s.blk.dp.iptr = s.blk.cfg.inLen → s.blk.dp.run = 0 →
      exec .enclen s = .next { s with blk := { s.blk with
        phase := .done
        res := { s.blk.res with outLen := s.blk.dp.optr, result := s.blk.dp.cnt } } }) ∧
    (s.blk.dp.iptr = s.blk.cfg.inLen → s.blk.dp.run ≠ 0 →
      exec .enclen s = .next { s with blk := { s.blk with
        phase := .done
        dp := { s.blk.dp with cnt := s.blk.dp.cnt + 1, run := 0 }
        res := { s.blk.res with outLen := s.blk.dp.optr, result := s.blk.dp.cnt + 1 } } })

/-- DECODE in RUN (R114, R95): fetching a record and producing its first nibble are one step; the other
copies follow one a step; at IN_LEN the operation completes. -/
def Obligations.DecodeRunSteps : Prop :=
  ∀ s : State, s.blk.phase = .run →
    (s.blk.dp.rep = 0 → s.blk.dp.iptr ≠ s.blk.cfg.inLen → lowNibble s.blk.nextElement ≠ 0 →
      s.blk.dp.optr ≠ s.blk.params.obufDepth →
      exec .decode s = .next { s with blk := { s.blk with
        obuf := s.blk.obuf.write s.blk.dp.optr.toNat (BitVec.ofNat 8 (s.blk.nextElement.toNat / 16))
        dp := { s.blk.dp with
          iptr := s.blk.dp.iptr + 1, optr := s.blk.dp.optr + 1
          dval := highNibble s.blk.nextElement, rep := lowNibble s.blk.nextElement - 1 } } }) ∧
    (s.blk.dp.rep ≠ 0 → s.blk.dp.optr ≠ s.blk.params.obufDepth →
      exec .decode s = .next { s with blk := { s.blk with
        obuf := s.blk.obuf.write s.blk.dp.optr.toNat (BitVec.ofNat 8 s.blk.dp.dval.toNat)
        dp := { s.blk.dp with optr := s.blk.dp.optr + 1, rep := s.blk.dp.rep - 1 } } }) ∧
    (s.blk.dp.rep = 0 → s.blk.dp.iptr = s.blk.cfg.inLen →
      exec .decode s = .next { s with blk := { s.blk with
        phase := .done, res := { s.blk.res with outLen := s.blk.dp.optr, result := 0 } } })

/-! ### Errors -/

/-- R166, R163, R167 (b), R170: the errors of a RUN step. An element above 15 ends COMBINE, ENCODE and
ENCLEN and a record of length 0 ends DECODE, with its index; a byte to emit when OBUF is full ends the
operation with CapacityExceeded, nothing written. -/
def Obligations.RunTimeErrorsAreRaised : Prop :=
  ∀ s : State, s.blk.phase = .run →
    (∀ i ∈ [Instr.combine, Instr.encode, Instr.enclen],
      s.blk.dp.iptr ≠ s.blk.cfg.inLen → 15 < s.blk.nextElement.toNat →
      exec i s = .next (s.failed .invalidNibble s.blk.dp.iptr)) ∧
    (s.blk.dp.rep = 0 → s.blk.dp.iptr ≠ s.blk.cfg.inLen → lowNibble s.blk.nextElement = 0 →
      exec .decode s = .next (s.failed .malformedStream s.blk.dp.iptr)) ∧
    (s.blk.dp.optr = s.blk.params.obufDepth → ∀ i,
      (i = .pack ∧ s.blk.dp.row ≠ s.blk.cfg.height ∧ s.blk.dp.holdv = true ∨
        i = .qpad ∧ s.blk.dp.row ≠ s.blk.cfg.height ∨
        i = .packrle ∧ s.blk.dp.run ≠ 0 ∧ (s.blk.dp.row = s.blk.cfg.height ∨
          ¬ (s.blk.gridNibble = s.blk.dp.cur ∧ s.blk.dp.run.toNat < 15)) ∨
        i = .combine ∧ s.blk.dp.iptr ≠ s.blk.cfg.inLen ∧ s.blk.nextElement.toNat ≤ 15 ∧
          s.blk.dp.holdv = true ∨
        i = .unpack ∧ (s.blk.dp.sph = true ∨ s.blk.dp.iptr ≠ s.blk.cfg.inLen) ∨
        i = .encode ∧ s.blk.dp.run ≠ 0 ∧ (s.blk.dp.iptr = s.blk.cfg.inLen ∨
          s.blk.nextElement.toNat ≤ 15 ∧
            ¬ (lowNibble s.blk.nextElement = s.blk.dp.cur ∧ s.blk.dp.run.toNat < 15)) ∨
        i = .decode ∧ (s.blk.dp.rep ≠ 0 ∨
          s.blk.dp.iptr ≠ s.blk.cfg.inLen ∧ lowNibble s.blk.nextElement ≠ 0)) →
      ∃ dp : Datapath, exec i s = .next { s with blk := { s.blk with
        dp := dp, phase := .done, res := ⟨true, .capacityExceeded, 0, 0, 0⟩ } })

/-- R174: an engine step of a reachable state ends its operation only with a code the table of R174
allows the operation: ENCLEN with CapacityExceeded only in its CHECK step, and none with InvalidLength in
RUN, so that the end-of-input test of sink COMBINE is never met (R96). -/
def Obligations.OperationEndsOnlyWithAllowedErrors : Prop :=
  ∀ (s t : State), s.Inv → (s.blk.phase = .check ∨ s.blk.phase = .run) →
    exec (decodeOp s.blk.cfg.op) s = .next t → t.blk.res.err = true →
    t.blk.res.errCode ∈ allowedErrors (decodeOp s.blk.cfg.op) ∧
    (s.blk.phase = .run → t.blk.res.errCode ≠ .invalidLength ∧
      (s.blk.cfg.op = 6 → t.blk.res.errCode ≠ .capacityExceeded))

/-- R170: whenever an engine step ends an operation with an error, the code is recorded, OUT_LEN and
RESULT are 0, PHASE is DONE; only MalformedStream and InvalidNibble record a position, the index of the
element the engine was looking at; no OBUF read is valid; configuration, IBUF and what surrounds the
block are unchanged. -/
def Obligations.ErrorEntryKeepsInputAndConfiguration : Prop :=
  ∀ (s t : State) (i : Instr), i.format = .op → s.blk.res.err = false → exec i s = .next t →
    t.blk.res.err = true →
    t.blk.phase = .done ∧ t.blk.res.errCode ≠ .noError ∧ t.blk.res.outLen = 0 ∧ t.blk.res.result = 0 ∧
    (t.blk.res.errCode = .malformedStream ∨ t.blk.res.errCode = .invalidNibble →
      t.blk.res.errPos = s.blk.dp.iptr) ∧
    (t.blk.res.errCode ≠ .malformedStream → t.blk.res.errCode ≠ .invalidNibble → t.blk.res.errPos = 0) ∧
    (∀ i, t.blk.obufRead i = none) ∧
    t.blk.cfg = s.blk.cfg ∧ t.blk.ibuf = s.blk.ibuf ∧ t.blk.ibufEpoch = s.blk.ibufEpoch ∧
    (∀ i, t.blk.ibufEntry i = s.blk.ibufEntry i) ∧
    t = { s with blk := t.blk }

/-! ### Whole operations -/

/-- R88: PACK of a legal image writes the packed bytes of the padded stream. -/
def Obligations.PackWritesPackedImage : Prop :=
  ∀ s : State, s.Launched → s.blk.cfg.op = 1 → s.blk.cfg.tdesig.toNat ≤ 15 → s.blk.cfg.width ≠ 0 →
    s.blk.cfg.height ≠ 0 → s.blk.cfg.inLen.toNat = s.blk.cfg.width.toNat * s.blk.cfg.height.toNat →
    s.blk.cfg.inLen ≤ s.blk.params.ibufDepth →
    ∃ out, comb s.blk.paddedStream = some out ∧
      out.length * 2 = pixelCount s.blk.cfg.width s.blk.cfg.height ∧
      (out.length ≤ s.blk.params.obufDepth.toNat →
        EndsWith (2 + pixelCount s.blk.cfg.width s.blk.cfg.height) s (.success out 0))

/-- R89: QPAD of a legal image writes the padded stream, one nibble per entry. -/
def Obligations.QpadWritesPaddedStream : Prop :=
  ∀ s : State, s.Launched → s.blk.cfg.op = 2 → s.blk.cfg.tdesig.toNat ≤ 15 → s.blk.cfg.width ≠ 0 →
    s.blk.cfg.height ≠ 0 → s.blk.cfg.inLen.toNat = s.blk.cfg.width.toNat * s.blk.cfg.height.toNat →
    s.blk.cfg.inLen ≤ s.blk.params.ibufDepth →
    pixelCount s.blk.cfg.width s.blk.cfg.height ≤ s.blk.params.obufDepth.toNat →
    EndsWith (2 + pixelCount s.blk.cfg.width s.blk.cfg.height) s
      (.success (s.blk.paddedStream.map (·.setWidth 8)) 0)

/-- R90: COMBINE of an even number of nibble elements writes their pairs. -/
def Obligations.CombineWritesPairs : Prop :=
  ∀ (s : State) (out : List Byte), s.Launched → s.blk.cfg.op = 3 →
    s.blk.cfg.inLen ≤ s.blk.params.ibufDepth → (∀ e ∈ s.blk.inputElements, e.toNat ≤ 15) →
    comb (s.blk.inputElements.map lowNibble) = some out → out.length ≤ s.blk.params.obufDepth.toNat →
    EndsWith (2 + s.blk.cfg.inLen.toNat) s (.success out 0)

/-- R91: UNPACK writes both nibbles of every byte, whatever the bytes are. -/
def Obligations.UnpackWritesBothNibbles : Prop :=
  ∀ s : State, s.Launched → s.blk.cfg.op = 4 → s.blk.cfg.inLen ≤ s.blk.params.ibufDepth →
    2 * s.blk.cfg.inLen.toNat ≤ s.blk.params.obufDepth.toNat →
    EndsWith (2 + 2 * s.blk.cfg.inLen.toNat) s
      (.success ((split s.blk.inputElements).map (·.setWidth 8)) 0)

/-- R115: ENCODE writes the run records of its nibble elements. -/
def Obligations.EncodeWritesRunRecords : Prop :=
  ∀ s : State, s.Launched → s.blk.cfg.op = 5 → s.blk.cfg.inLen ≤ s.blk.params.ibufDepth →
    (∀ e ∈ s.blk.inputElements, e.toNat ≤ 15) →
    (enc (s.blk.inputElements.map lowNibble)).length ≤ s.blk.params.obufDepth.toNat →
    EndsWith (2 + s.blk.cfg.inLen.toNat) s (.success (enc (s.blk.inputElements.map lowNibble)) 0)

/-- R116: ENCLEN gives the number of those records, with no regard to OBUF's depth. -/
def Obligations.EnclenCountsRunRecords : Prop :=
  ∀ s : State, s.Launched → s.blk.cfg.op = 6 → s.blk.cfg.inLen ≤ s.blk.params.ibufDepth →
    (∀ e ∈ s.blk.inputElements, e.toNat ≤ 15) →
    ∃ r : Word, r.toNat = (enc (s.blk.inputElements.map lowNibble)).length ∧
      EndsWith (2 + s.blk.cfg.inLen.toNat) s (.success [] r)

/-- R117: DECODE writes the nibbles of its run records. -/
def Obligations.DecodeExpandsRunRecords : Prop :=
  ∀ (s : State) (v : List Nibble), s.Launched → s.blk.cfg.op = 7 →
    s.blk.cfg.inLen ≤ s.blk.params.ibufDepth → dec s.blk.inputElements = .ok v →
    v.length ≤ s.blk.params.obufDepth.toNat →
    EndsWith (2 + v.length) s (.success (v.map (·.setWidth 8)) 0)

/-- R118: PACKRLE of a legal image writes the run records of the padded stream. -/
def Obligations.PackrleWritesRunRecordsOfImage : Prop :=
  ∀ s : State, s.Launched → s.blk.cfg.op = 8 → s.blk.cfg.tdesig.toNat ≤ 15 → s.blk.cfg.width ≠ 0 →
    s.blk.cfg.height ≠ 0 → s.blk.cfg.inLen.toNat = s.blk.cfg.width.toNat * s.blk.cfg.height.toNat →
    s.blk.cfg.inLen ≤ s.blk.params.ibufDepth →
    (enc s.blk.paddedStream).length ≤ s.blk.params.obufDepth.toNat →
    EndsWith (2 + pixelCount s.blk.cfg.width s.blk.cfg.height) s (.success (enc s.blk.paddedStream) 0)

/-- R203, R154, R168: from every launch state, whatever OP, the registers and IBUF hold, the engine alone
is busy until it reaches DONE, within the step bound and with exactly the verdict of the result contracts
and the order of errors. R203 adds that an operation ending with an error takes fewer steps than the bound;
by R112 and the vectors V6A and V84 that holds of every error but one, the CapacityExceeded that the last
record of ENCODE and PACKRLE meets at End, and so it is stated here (notes/assumptions/22.md). -/
def Obligations.EveryOperationReachesItsVerdict : Prop :=
  ∀ s : State, s.Launched →
    ∃ n, 1 ≤ n ∧ n ≤ s.blk.stepBound s.blk.cfg.op ∧ EndsWith n s (s.blk.verdict s.blk.cfg.op) ∧
      (∀ k < n, ∃ u : State, Host.Core.run Sys2Proof.core k s = .next u ∧
        (u.blk.phase = .check ∨ u.blk.phase = .run)) ∧
      (s.blk.cfg.op.toNat ≤ 8 → ∀ e pos, s.blk.verdict s.blk.cfg.op = .failure e pos →
        ¬ s.blk.lastRecordOverflows s.blk.cfg.op → n < s.blk.stepBound s.blk.cfg.op) ∧
      (s.blk.lastRecordOverflows s.blk.cfg.op → n = s.blk.stepBound s.blk.cfg.op)

/-! ### Laws of the pure functions -/

/-- R81: `Q` sends `s` to `n` exactly when `s` is within 8 of `17 n`; it is non-decreasing; the three forms
agree. -/
def Obligations.QuantizeRoundsToNearest : Prop :=
  (∀ (s : Byte) (n : Nibble), quantize s = n ↔ 17 * n.toNat ≤ s.toNat + 8 ∧ s.toNat ≤ 17 * n.toNat + 8) ∧
  (∀ s t : Byte, s ≤ t → quantize s ≤ quantize t) ∧
  (∀ s : Byte, (quantize s).toNat = (s.toNat + 8) / 17 ∧
    (quantize s).toNat = (15 * s.toNat + 127) / 255 ∧ (quantize s).toNat = (2 * s.toNat + 17) / 34)

/-- R84: the elements of PAD, one by one, its length, and that it is the identity on even widths. -/
def Obligations.PadInsertsOneDesignatorPerOddRow : Prop :=
  ∀ (g : List Nibble) (w h : Nat) (d : Nibble), 1 ≤ w → 1 ≤ h → g.length = w * h →
    (pad g w h d).length = h * (w + w % 2) ∧
    (∀ r < h, ∀ c < w, (pad g w h d)[r * (w + w % 2) + c]? = g[r * w + c]?) ∧
    (w % 2 = 1 → ∀ r < h, (pad g w h d)[r * (w + w % 2) + w]? = some d) ∧
    (w % 2 = 0 → pad g w h d = g)

/-- R98: COMB and SPLIT undo each other, on every padded image too; both have the lengths of the law; and
`Q` undoes `X`. That COMB has no value on an odd length is the model's form of the spec's "undefined"
there (R85, notes/assumptions/16.md). -/
def Obligations.CombineAndSplitAreInverse : Prop :=
  (∀ p : List Nibble, p.length % 2 = 0 →
    ∃ out, comb p = some out ∧ split out = p ∧ out.length * 2 = p.length) ∧
  (∀ p : List Nibble, p.length % 2 = 1 → comb p = none) ∧
  (∀ bs : List Byte, comb (split bs) = some bs ∧ (split bs).length = 2 * bs.length) ∧
  (∀ (g : List Nibble) (w h : Nat) (d : Nibble), 1 ≤ w → 1 ≤ h → g.length = w * h →
    ∃ out, comb (pad g w h d) = some out ∧ split out = pad g w h d) ∧
  (∀ n : Nibble, quantize (expand n) = n)

/-- R110: the source's loop and the recursive reading are the same function; the empty and the one-value
stream. -/
def Obligations.EncodeLoopIsGreedyRunReading : Prop :=
  (∀ v : List Nibble, enc v = encRec v) ∧ enc [] = [] ∧ ∀ x : Nibble, enc [x] = [combineNibbles x 1]

/-- R119 (a), R121, R111: decoding undoes encoding on every stream; the records of an encoding have a
length, and of two neighbours with one value the first is full; `DEC` accepts exactly the streams without
a zero length. -/
def Obligations.DecodeUndoesEncode : Prop :=
  (∀ v : List Nibble, dec (enc v) = .ok v) ∧
  (∀ (v : List Nibble) (r : Byte), r ∈ enc v → lowNibble r ≠ 0) ∧
  (∀ (v : List Nibble) (i : Nat) (r r' : Byte), (enc v)[i]? = some r → (enc v)[i + 1]? = some r' →
    highNibble r = highNibble r' → lowNibble r = 15) ∧
  (∀ rs : List Byte, (∃ v, dec rs = .ok v) ↔ ∀ r ∈ rs, lowNibble r ≠ 0)

/-- R121: encoding undoes decoding exactly on the canonical streams: those in which, of two neighbouring
records with one value, the first is full. -/
def Obligations.EncodeUndoesDecodeOnCanonicalStreams : Prop :=
  ∀ (rs : List Byte) (v : List Nibble), dec rs = .ok v →
    (enc v = rs ↔ ∀ (i : Nat) (r r' : Byte), rs[i]? = some r → rs[i + 1]? = some r' →
      highNibble r = highNibble r' → lowNibble r = 15)

/-- R119 (c), (d), (e): the records of a constant stream, and the bounds on the number of records. -/
def Obligations.EncodedLengthBounds : Prop :=
  (∀ (x : Nibble) (n : Nat), enc (List.replicate n x) =
    List.replicate (n / 15) (combineNibbles x 15) ++
      if n % 15 = 0 then [] else [combineNibbles x (BitVec.ofNat 4 (n % 15))]) ∧
  (∀ v : List Nibble, v ≠ [] → (v.length + 14) / 15 ≤ (enc v).length ∧ (enc v).length ≤ v.length)

/-- R120: from no open run, the sink RLE given a whole stream and `End` writes exactly `ENC` of it from
OPTR on, when there is room, and touches no other OBUF entry; the sink RLECOUNT from CNT = 0 ends with
the number of records in CNT, hands it over as RESULT and writes nothing. -/
def Obligations.RunLengthSinksComputeEnc : Prop :=
  ∀ (v : List Nibble) (b : Block), b.dp.run = 0 →
    (b.dp.optr.toNat + (enc v).length ≤ b.params.obufDepth.toNat →
      (feedStream sinkRle v b).phase = .done ∧
      (feedStream sinkRle v b).res.outLen.toNat = b.dp.optr.toNat + (enc v).length ∧
      (∀ i (h : i < (enc v).length),
        (feedStream sinkRle v b).obuf.read? (b.dp.optr.toNat + i) = some (enc v)[i]) ∧
      (∀ a, a < b.dp.optr.toNat ∨ b.dp.optr.toNat + (enc v).length ≤ a →
        (feedStream sinkRle v b).obuf.read? a = b.obuf.read? a)) ∧
    (b.dp.cnt = 0 → v.length < 2 ^ 32 →
      (feedStream sinkRleCount v b).phase = .done ∧
      (feedStream sinkRleCount v b).dp.cnt.toNat = (enc v).length ∧
      (feedStream sinkRleCount v b).res.result.toNat = (enc v).length ∧
      (feedStream sinkRleCount v b).obuf = b.obuf)

/-! ### Invariants -/

/-- R34 holds in the reset state. -/
def Obligations.InvariantHoldsAtReset : Prop := State.reset.Inv

/-- R34: every step, on whatever event comes next, keeps the invariant. -/
def Obligations.StepKeepsInvariant : Prop :=
  ∀ s t : State, s.Inv → step s = .next t → t.Inv

/-- R34, its last two clauses: in the step in which an operation succeeds, every OBUF entry below OUT_LEN
is of the operation's type: a nibble from QPAD, UNPACK and DECODE, a run record with a length from ENCODE
and PACKRLE. -/
def Obligations.CompletedOutputIsTyped : Prop :=
  ∀ (s t : State), s.Inv → (s.blk.phase = .check ∨ s.blk.phase = .run) →
    exec (decodeOp s.blk.cfg.op) s = .next t → t.blk.phase = .done → t.blk.res.err = false →
    ∀ i < t.blk.res.outLen, ∃ v, t.blk.obufRead i = some v ∧
      (s.blk.cfg.op = 2 ∨ s.blk.cfg.op = 4 ∨ s.blk.cfg.op = 7 → v.toNat ≤ 15) ∧
      (s.blk.cfg.op = 5 ∨ s.blk.cfg.op = 8 → v.toNat % 16 ≠ 0)

/-- R22, R32: the STATUS word of a reachable state: BUSY exactly in CHECK and RUN, DONE exactly in DONE,
never both, neither exactly in IDLE; ERR only with DONE and exactly with a code; bits [31:3] are 0. -/
def Obligations.StatusReflectsPhase : Prop :=
  ∀ (s t : State) (d : Word), s.Inv → exec (.rdReg 6 d) s = .next t →
    (t.hRdata.getLsbD 0 = true ↔ s.blk.phase = .check ∨ s.blk.phase = .run) ∧
    (t.hRdata.getLsbD 1 = true ↔ s.blk.phase = .done) ∧
    (t.hRdata.getLsbD 2 = true ↔ s.blk.res.errCode ≠ .noError) ∧
    (t.hRdata.getLsbD 2 = true → t.hRdata.getLsbD 1 = true) ∧
    t.hRdata.toNat < 8 ∧
    s.blk.statusLines = ⟨t.hRdata.getLsbD 0, t.hRdata.getLsbD 1, t.hRdata.getLsbD 2⟩

/-! ### The host port -/

/-- R141, R67, R177, R185: what the pins of one clock edge do when nothing is waiting. With `rst` high the block
is reset and the transaction beside it is lost; otherwise a presented transaction is performed, as the
instruction its 67 bits decode to, which are `{h_write, h_space}`, `h_addr` and `h_wdata` from the top,
before an engine step of the same cycle; without `h_valid` the other pins are not looked at. -/
def Obligations.PinsPresentResetOrTransactionThenEngine : Prop :=
  ∀ (s : State) (p : Pins) (k : Bool), s.port = [] →
    p.transaction.toNat = (if p.hWrite then 2 ^ 66 else 0) + p.hSpace.toNat * 2 ^ 64 +
      p.hAddr.toNat * 2 ^ 32 + p.hWdata.toNat ∧
    (p.hWrite = true → p.hSpace = 0 → decodeHt p.transaction = .wrReg p.hAddr p.hWdata) ∧
    (p.hWrite = true → p.hSpace = 1 → decodeHt p.transaction = .wrIbuf p.hAddr p.hWdata) ∧
    (p.hWrite = true → p.hSpace = 2 → decodeHt p.transaction = .wrObuf p.hAddr p.hWdata) ∧
    (p.hWrite = true → p.hSpace = 3 → decodeHt p.transaction = .wrSpace3 p.hAddr p.hWdata) ∧
    (p.hWrite = false → p.hSpace = 0 → decodeHt p.transaction = .rdReg p.hAddr p.hWdata) ∧
    (p.hWrite = false → p.hSpace = 1 → decodeHt p.transaction = .rdIbuf p.hAddr p.hWdata) ∧
    (p.hWrite = false → p.hSpace = 2 → decodeHt p.transaction = .rdObuf p.hAddr p.hWdata) ∧
    (p.hWrite = false → p.hSpace = 3 → decodeHt p.transaction = .rdSpace3 p.hAddr p.hWdata) ∧
    (p.rst = true → step (s.present p k) = .next { s with blk := .reset s.blk.params (s.blk.ibufEpoch + 1) }) ∧
    (p.rst = false → p.hValid = true →
      step (s.present p k) = exec (decodeHt p.transaction) { s with port := if k then [.engine] else [] }) ∧
    (p.rst = false → p.hValid = false → (s.present p k).port = if k then [.engine] else [])

/-- R70, R71, R67, R11: each line of a host script is the transaction that performs it, with the register
numbers of the map; START and CLEAR are their CTRL writes, and the other pseudo-lines the acts their
expansions list. WAIT reads STATUS and goes on exactly when BUSY is 0, which it finds within the step bound
of a launched operation; DUMP reads OUT_LEN and then every entry of a result, in order; the LOAD of a
MOVEOUT is the WRI lines of the values read and their number to IN_LEN.

The clauses on `hostTurn` and `ScriptRun.run` are in the model's own terms (notes/assumptions/21.md): the
host and the engine take turns under a schedule, the LOAD of a MOVEOUT is expanded in a turn without a
transaction, a DUMP starts with no values kept, and the values of a LOAD are 32 bits wide. -/
def Obligations.ScriptLinesAreTheirTransactions : Prop :=
  (∀ e ∈ [(RegName.ctrl, (0 : Word)), (.op, 1), (.width, 2), (.height, 3), (.tdesig, 4), (.inLen, 5),
      (.status, 6), (.errCode, 7), (.errPos, 8), (.outLen, 9), (.result, 10)],
    ∀ v : Word, decodeHt (ScriptLine.wr e.1 v).word = .wrReg e.2 v ∧
      decodeHt (ScriptLine.rd e.1).word = .rdReg e.2 0) ∧
  (∀ n i v : Word,
    decodeHt (ScriptLine.wr (.number n) v).word = .wrReg n v ∧
    decodeHt (ScriptLine.rd (.number n)).word = .rdReg n 0 ∧
    decodeHt (ScriptLine.wri i v).word = .wrIbuf i v ∧
    decodeHt (ScriptLine.rdi i).word = .rdIbuf i 0 ∧
    decodeHt (ScriptLine.rdo i).word = .rdObuf i 0) ∧
  (decodeHt ScriptLine.startLine.word = .wrReg 0 1 ∧ decodeHt ScriptLine.clearLine.word = .wrReg 0 2 ∧
    (∀ op : OpNum, scriptRunop op =
      [.line (.wr .op (op.setWidth 32)), .line ScriptLine.startLine, .wait]) ∧
    scriptWait = [.wait] ∧ scriptDump = [.dump] ∧ scriptMoveout = [.dump, .loadKept]) ∧
  (∀ vs : List Word, scriptLoad vs =
    (vs.zipIdx.map fun e => .wri (BitVec.ofNat 32 e.2) e.1) ++ [.wr .inLen (BitVec.ofNat 32 vs.length)]) ∧
  (∀ (l : ScriptLine) (rest : List HostAct) (kept : List Word) (s t : State),
    exec (decodeHt l.word) s = .next t → ScriptRun.hostTurn ⟨.line l :: rest, kept, s⟩ = .next ⟨rest, kept, t⟩) ∧
  (∀ (rest : List HostAct) (kept : List Word) (s : State), ∃ t : State,
    exec (.rdReg 6 0) s = .next t ∧
    (s.blk.phase = .check ∨ s.blk.phase = .run →
      ScriptRun.hostTurn ⟨.wait :: rest, kept, s⟩ = .next ⟨.wait :: rest, kept, t⟩) ∧
    (s.blk.phase = .idle ∨ s.blk.phase = .done →
      ScriptRun.hostTurn ⟨.wait :: rest, kept, s⟩ = .next ⟨rest, kept, t⟩)) ∧
  (∀ (rest : List HostAct) (kept : List Word) (s : State), s.Launched →
    ∃ n ≤ s.blk.stepBound s.blk.cfg.op, ∃ t : State, t.blk.phase = .done ∧
      ScriptRun.run (List.replicate n .engine ++ [.host]) ⟨.wait :: rest, kept, s⟩ = .next ⟨rest, kept, t⟩) ∧
  (∀ (rest : List HostAct) (kept : List Word) (s : State) (vs : List Byte),
    vs.length = s.blk.res.outLen.toNat →
    (∀ i (h : i < vs.length), s.blk.obufRead (BitVec.ofNat 32 i) = some vs[i]) →
    ∃ t : State, t.blk = s.blk ∧
      ScriptRun.run (List.replicate (vs.length + 1) .host) ⟨.dump :: rest, kept, s⟩ =
        .next ⟨rest, vs.map (·.setWidth 32), t⟩) ∧
  (∀ (rest : List HostAct) (kept : List Word) (s : State),
    ScriptRun.hostTurn ⟨.loadKept :: rest, kept, s⟩ =
      .next ⟨(kept.zipIdx.map fun e => .line (.wri (BitVec.ofNat 32 e.2) e.1)) ++
        .line (.wr .inLen (BitVec.ofNat 32 kept.length)) :: rest, kept, s⟩)

/-! ### The host cannot disturb a running operation -/

/-- R190, R191, R146, R50: while the engine is busy, a transaction that is not CLEAR leaves the whole
block as it is. -/
def Obligations.BusyBlockIgnoresTheHost : Prop :=
  ∀ (s : State) (w : HtWord) (rest : List Event), s.port = .txn w :: rest →
    (s.blk.phase = .check ∨ s.blk.phase = .run) → isClearWrite w = false →
    ∃ v n, step s = .next { s with port := rest, hRdata := v, draws := n }

/-- R149, R50: interleaving cannot change what the engine does. While an operation runs, any sequence of
events without reset and CLEAR leaves the block where as many engine steps alone would have left it, and
so does the next engine step, which may be the one that ends the operation. -/
def Obligations.InterleavingDoesNotChangeTheOperation : Prop :=
  ∀ (s : State) (evs : List Event), (∀ e ∈ evs, e.harmless = true) →
    (∀ j ≤ evs.count .engine, ∃ u : State, Host.Core.run Sys2Proof.core j { s with port := [] } = .next u ∧
      (u.blk.phase = .check ∨ u.blk.phase = .run)) →
    (∃ t u : State, Host.Core.run Sys2Proof.core evs.length { s with port := evs } = .next t ∧
      Host.Core.run Sys2Proof.core (evs.count .engine) { s with port := [] } = .next u ∧
      t.blk = u.blk ∧ t.port = []) ∧
    (∃ t u : State,
      Host.Core.run Sys2Proof.core (evs.length + 1) { s with port := evs ++ [.engine] } = .next t ∧
      Host.Core.run Sys2Proof.core (evs.count .engine + 1) { s with port := [] } = .next u ∧
      t.blk = u.blk ∧ t.port = [])

/-! ### Frames -/

/-- What an engine step of any operation, legal or not, in any phase, and a data element leave unchanged:
the configuration, IBUF, the parameters and everything around the block, and every OBUF entry but the one
at OPTR; PIXCNT, ENCLEN and the reserved numbers leave all of OBUF unchanged (R28, R29, R47). -/
def Obligations.EngineStepsChangeOnlyEngineState : Prop :=
  ∀ (s : State) (i : Instr), i.format ≠ .ht → i.format ≠ .ctrl →
    ∃ b : Block, exec i s = .next { s with blk := b } ∧
      b.cfg = s.blk.cfg ∧ b.ibuf = s.blk.ibuf ∧ b.ibufEpoch = s.blk.ibufEpoch ∧
      b.params = s.blk.params ∧
      (∀ a, a ≠ s.blk.dp.optr.toNat → b.obuf.read? a = s.blk.obuf.read? a) ∧
      ((i = .pixcnt ∨ i = .enclen ∨ 9 ≤ encode i ∧ i.format = .op) → b.obuf = s.blk.obuf)

/-- What commands and writes leave unchanged: the parameters, the events to come, the read data and the
list Block.obuf always (for START and CLEAR the last is the model's choice, notes/assumptions/18.md: the
spec leaves OBUF unspecified there, and no host read shows it); the configuration unless a configuration register is written; IBUF but for the entry an IBUF
write names; PHASE, results and datapath unless it is a command (R30, R143 to R147). -/
def Obligations.HostWritesChangeOnlyTheirTarget : Prop :=
  ∀ (s : State) (a d : Word),
    ∀ i ∈ [Instr.ctrlNone, .start, .clear, .clearWithStartBit, .wrReg a d, .wrIbuf a d, .wrObuf a d,
        .wrSpace3 a d],
      ∃ b : Block, exec i s = .next { s with blk := b } ∧
        b.obuf = s.blk.obuf ∧ b.params = s.blk.params ∧ b.ibufEpoch = s.blk.ibufEpoch ∧
        (i ≠ .wrReg a d ∨ a.toNat = 0 ∨ 5 < a.toNat → b.cfg = s.blk.cfg) ∧
        (i ≠ .wrIbuf a d → b.ibuf = s.blk.ibuf) ∧
        (∀ k, k ≠ a.toNat → b.ibuf.read? k = s.blk.ibuf.read? k) ∧
        ((i = .wrReg a d ∧ a ≠ 0) ∨ i = .wrIbuf a d ∨ i = .wrObuf a d ∨ i = .wrSpace3 a d ∨
            i = .ctrlNone →
          b.phase = s.blk.phase ∧ b.res = s.blk.res ∧ b.dp = s.blk.dp)

/-! ### Data elements -/

/-- R61 to R64, R92 to R94, R114: what each data element does when the source stage of the running
operation takes it: the sink stage R14 gives the operation consumes the nibble it stands for, and the
source's registers have advanced. -/
def Obligations.DataElementIsConsumedBySourceStage : Prop :=
  ∀ s : State, s.blk.phase = .run →
    (∀ v : Byte, s.blk.dp.row ≠ s.blk.cfg.height → s.blk.dp.col < s.blk.cfg.width →
      ∀ opSink ∈ [((1 : OpNum), sinkCombine), (2, sinkNib), (8, sinkRle)], s.blk.cfg.op = opSink.1 →
        exec (.sample v) s = .next { s with
          blk := opSink.2 (.nib (quantize v)) { s.blk with dp := s.blk.afterGridNibble } }) ∧
    (∀ hi lo : Nibble, s.blk.cfg.op = 4 →
      (s.blk.dp.sph = false → s.blk.dp.iptr ≠ s.blk.cfg.inLen →
        exec (.packedByte hi lo) s = .next { s with
          blk := sinkNib (.nib hi) { s.blk with dp := { s.blk.dp with sph := true } } }) ∧
      (s.blk.dp.sph = true →
        exec (.packedByte hi lo) s = .next { s with
          blk := sinkNib (.nib lo) { s.blk with
            dp := { s.blk.dp with sph := false, iptr := s.blk.dp.iptr + 1 } } })) ∧
    (∀ value length : Nibble, s.blk.cfg.op = 7 → s.blk.dp.rep = 0 → s.blk.dp.iptr ≠ s.blk.cfg.inLen →
      (length ≠ 0 → exec (.runRecord value length) s = .next { s with
        blk := sinkNib (.nib value) { s.blk with
          dp := { s.blk.dp with iptr := s.blk.dp.iptr + 1, dval := value, rep := length - 1 } } }) ∧
      (length = 0 → exec (.runRecord value length) s =
        .next (s.failed .malformedStream s.blk.dp.iptr))) ∧
    (∀ n : Nibble, s.blk.dp.iptr ≠ s.blk.cfg.inLen →
      ∀ opSink ∈ [((3 : OpNum), sinkCombine), (5, sinkRle), (6, sinkRleCount)], s.blk.cfg.op = opSink.1 →
        exec (.nibble n) s = .next { s with
          blk := opSink.2 (.nib n) { s.blk with
            dp := { s.blk.dp with iptr := s.blk.dp.iptr + 1 } } })

/-- R60, R45: a RUN step that takes an element from IBUF is the execution of what that element decodes to
in the format the operation gives it; an element that is none of that format ends the operation. -/
def Obligations.RunStepExecutesDecodedElement : Prop :=
  ∀ (s : State) (f : Format), s.blk.phase = .run →
    (f = .sample ∧ (s.blk.cfg.op = 1 ∨ s.blk.cfg.op = 2 ∨ s.blk.cfg.op = 8) ∧
        s.blk.dp.row ≠ s.blk.cfg.height ∧ s.blk.dp.col < s.blk.cfg.width ∨
      f = .packedByte ∧ s.blk.cfg.op = 4 ∧ (s.blk.dp.sph = true ∨ s.blk.dp.iptr ≠ s.blk.cfg.inLen) ∨
      f = .runRecord ∧ s.blk.cfg.op = 7 ∧ s.blk.dp.rep = 0 ∧ s.blk.dp.iptr ≠ s.blk.cfg.inLen ∨
      f = .nibble ∧ (s.blk.cfg.op = 3 ∨ s.blk.cfg.op = 5 ∨ s.blk.cfg.op = 6) ∧
        s.blk.dp.iptr ≠ s.blk.cfg.inLen) →
    (∀ i, decode f s.blk.nextElement.toNat = .ok i → exec (decodeOp s.blk.cfg.op) s = exec i s) ∧
    (∀ e, decode f s.blk.nextElement.toNat = .error e →
      exec (decodeOp s.blk.cfg.op) s =
        .next (s.failed (if f = .runRecord then .malformedStream else .invalidNibble) s.blk.dp.iptr))
end

