-- ==== Sys2Proof/Laws/Bits.lean ====
section
/-! SUPPORT. The field assemblies of spec/30_encoding.md R68 in terms of numbers, and the fields of an
assembled transaction word (R67). -/

namespace Sys2Proof

theorem highNibble_toNat (b : Byte) : (highNibble b).toNat = b.toNat / 16 := by
  revert b; decide

theorem lowNibble_toNat (b : Byte) : (lowNibble b).toNat = b.toNat % 16 := by
  revert b; decide

theorem combineNibbles_toNat (a b : Nibble) : (combineNibbles a b).toNat = 16 * a.toNat + b.toNat := by
  revert a b; decide

@[simp] theorem highNibble_combineNibbles (a b : Nibble) : highNibble (combineNibbles a b) = a := by
  revert a b; decide

@[simp] theorem lowNibble_combineNibbles (a b : Nibble) : lowNibble (combineNibbles a b) = b := by
  revert a b; decide

@[simp] theorem combineNibbles_nibbles (b : Byte) : combineNibbles (highNibble b) (lowNibble b) = b := by
  revert b; decide

theorem highNibble_eq_zero_iff (b : Byte) : highNibble b = 0 ↔ b.toNat ≤ 15 := by
  revert b; decide

@[simp] theorem highNibble_setWidth (x : Nibble) : highNibble (x.setWidth 8) = 0 := by
  revert x; decide

@[simp] theorem htKind_htWord (k : BitVec 3) (a d : Word) : htKind (htWord k a d) = k := by
  apply BitVec.eq_of_getLsbD_eq
  intro i hi
  simp only [htKind, htWord, BitVec.getLsbD_extractLsb', BitVec.getLsbD_append]
  have h1 : ¬ 64 + i < 32 := by omega
  have h2 : ¬ 64 + i - 32 < 32 := by omega
  simp [hi, h1, h2, show 64 + i - 32 - 32 = i by omega]

@[simp] theorem htAddr_htWord (k : BitVec 3) (a d : Word) : htAddr (htWord k a d) = a := by
  apply BitVec.eq_of_getLsbD_eq
  intro i hi
  simp only [htAddr, htWord, BitVec.getLsbD_extractLsb', BitVec.getLsbD_append]
  have h1 : ¬ 32 + i < 32 := by omega
  simp [hi, h1]

@[simp] theorem htData_htWord (k : BitVec 3) (a d : Word) : htData (htWord k a d) = d := by
  apply BitVec.eq_of_getLsbD_eq
  intro i hi
  simp only [htData, htWord, BitVec.getLsbD_extractLsb', BitVec.getLsbD_append]
  simp [hi]

/-- A transaction word is put together from its own fields. -/
theorem htWord_fields (w : HtWord) : htWord (htKind w) (htAddr w) (htData w) = w := by
  apply BitVec.eq_of_getLsbD_eq
  intro i hi
  simp only [htWord, htKind, htAddr, htData, BitVec.getLsbD_append, BitVec.getLsbD_extractLsb']
  by_cases h1 : i < 32
  · simp [h1]
  · by_cases h2 : i - 32 < 32
    · simp [h1, h2, show 32 + (i - 32) = i by omega]
    · simp [h1, h2, show 64 + (i - 32 - 32) = i by omega, show i - 32 - 32 < 3 by omega]

end Sys2Proof
end

