-- ==== Sys2Proof/Laws/State.lean ====
section
/-! SUPPORT. One lemma for each field of each named update of the state, so that no proof unfolds a record
update. -/

namespace Sys2Proof.Machine

section Block
variable (b : Block) (e : ErrCode) (pos r : Word) (v : Byte)

@[simp] theorem Block.raise_phase : (b.raise e pos).phase = .done := rfl
@[simp] theorem Block.raise_res : (b.raise e pos).res = ⟨true, e, pos, 0, 0⟩ := rfl
@[simp] theorem Block.raise_cfg : (b.raise e pos).cfg = b.cfg := rfl
@[simp] theorem Block.raise_params : (b.raise e pos).params = b.params := rfl
@[simp] theorem Block.raise_dp : (b.raise e pos).dp = b.dp := rfl
@[simp] theorem Block.raise_ibuf : (b.raise e pos).ibuf = b.ibuf := rfl
@[simp] theorem Block.raise_ibufEpoch : (b.raise e pos).ibufEpoch = b.ibufEpoch := rfl
@[simp] theorem Block.raise_obuf : (b.raise e pos).obuf = b.obuf := rfl

@[simp] theorem Block.complete_phase : (b.complete r).phase = .done := rfl
@[simp] theorem Block.complete_res :
    (b.complete r).res = { b.res with outLen := b.dp.optr, result := r } := rfl
@[simp] theorem Block.complete_cfg : (b.complete r).cfg = b.cfg := rfl
@[simp] theorem Block.complete_params : (b.complete r).params = b.params := rfl
@[simp] theorem Block.complete_dp : (b.complete r).dp = b.dp := rfl
@[simp] theorem Block.complete_ibuf : (b.complete r).ibuf = b.ibuf := rfl
@[simp] theorem Block.complete_ibufEpoch : (b.complete r).ibufEpoch = b.ibufEpoch := rfl
@[simp] theorem Block.complete_obuf : (b.complete r).obuf = b.obuf := rfl

@[simp] theorem Block.push_phase : (b.push v).phase = b.phase := rfl
@[simp] theorem Block.push_res : (b.push v).res = b.res := rfl
@[simp] theorem Block.push_cfg : (b.push v).cfg = b.cfg := rfl
@[simp] theorem Block.push_params : (b.push v).params = b.params := rfl
@[simp] theorem Block.push_dp : (b.push v).dp = { b.dp with optr := b.dp.optr + 1 } := rfl
@[simp] theorem Block.push_ibuf : (b.push v).ibuf = b.ibuf := rfl
@[simp] theorem Block.push_ibufEpoch : (b.push v).ibufEpoch = b.ibufEpoch := rfl
@[simp] theorem Block.push_obuf : (b.push v).obuf = b.obuf.write b.dp.optr.toNat v := rfl

@[simp] theorem Block.launch_phase : b.launch.phase = .check := rfl
@[simp] theorem Block.launch_res : b.launch.res = .cleared := rfl
@[simp] theorem Block.launch_cfg : b.launch.cfg = b.cfg := rfl
@[simp] theorem Block.launch_params : b.launch.params = b.params := rfl
@[simp] theorem Block.launch_dp : b.launch.dp = .zero := rfl
@[simp] theorem Block.launch_ibuf : b.launch.ibuf = b.ibuf := rfl
@[simp] theorem Block.launch_ibufEpoch : b.launch.ibufEpoch = b.ibufEpoch := rfl
@[simp] theorem Block.launch_obuf : b.launch.obuf = b.obuf := rfl

@[simp] theorem Block.clear_phase : b.clear.phase = .idle := rfl
@[simp] theorem Block.clear_res : b.clear.res = .cleared := rfl
@[simp] theorem Block.clear_cfg : b.clear.cfg = b.cfg := rfl
@[simp] theorem Block.clear_params : b.clear.params = b.params := rfl
@[simp] theorem Block.clear_dp : b.clear.dp = .zero := rfl
@[simp] theorem Block.clear_ibuf : b.clear.ibuf = b.ibuf := rfl
@[simp] theorem Block.clear_ibufEpoch : b.clear.ibufEpoch = b.ibufEpoch := rfl
@[simp] theorem Block.clear_obuf : b.clear.obuf = b.obuf := rfl

@[simp] theorem Block.afterReset_phase : b.afterReset.phase = .idle := rfl
@[simp] theorem Block.afterReset_res : b.afterReset.res = .cleared := rfl
@[simp] theorem Block.afterReset_cfg : b.afterReset.cfg = .reset := rfl
@[simp] theorem Block.afterReset_params : b.afterReset.params = b.params := rfl
@[simp] theorem Block.afterReset_dp : b.afterReset.dp = .zero := rfl
@[simp] theorem Block.afterReset_ibuf : b.afterReset.ibuf = [] := rfl
@[simp] theorem Block.afterReset_ibufEpoch : b.afterReset.ibufEpoch = b.ibufEpoch + 1 := rfl
@[simp] theorem Block.afterReset_obuf : b.afterReset.obuf = [] := rfl

end Block

section State
variable (s : State) (f : Block → Block) (v : Word)

@[simp] theorem State.onBlock_blk : (s.onBlock f).blk = f s.blk := rfl
@[simp] theorem State.onBlock_port : (s.onBlock f).port = s.port := rfl
@[simp] theorem State.onBlock_hRdata : (s.onBlock f).hRdata = s.hRdata := rfl
@[simp] theorem State.onBlock_draws : (s.onBlock f).draws = s.draws := rfl

@[simp] theorem State.deliver_blk : (s.deliver v).blk = s.blk := rfl
@[simp] theorem State.deliver_port : (s.deliver v).port = s.port := rfl
@[simp] theorem State.deliver_hRdata : (s.deliver v).hRdata = v := rfl
@[simp] theorem State.deliver_draws : (s.deliver v).draws = s.draws := rfl

@[simp] theorem State.deliverFree_blk : s.deliverFree.blk = s.blk := rfl
@[simp] theorem State.deliverFree_port : s.deliverFree.port = s.port := rfl
@[simp] theorem State.deliverFree_hRdata : s.deliverFree.hRdata = Config.freeRead s.draws := rfl
@[simp] theorem State.deliverFree_draws : s.deliverFree.draws = s.draws + 1 := rfl

@[simp] theorem State.deliverFreeByte_blk : s.deliverFreeByte.blk = s.blk := rfl
@[simp] theorem State.deliverFreeByte_port : s.deliverFreeByte.port = s.port := rfl
@[simp] theorem State.deliverFreeByte_hRdata :
    s.deliverFreeByte.hRdata = ((Config.freeRead s.draws).setWidth 8).setWidth 32 := rfl
@[simp] theorem State.deliverFreeByte_draws : s.deliverFreeByte.draws = s.draws + 1 := rfl

end State

end Sys2Proof.Machine
end

