-- ==== Sys2Proof/Laws/Ops.lean ====
section
/-! SUPPORT. For each shared operation one lemma that says everything it can do. -/

namespace Sys2Proof.Machine

/-- `Emit` either finds OBUF full and raises, or writes one entry and goes on (R47). -/
theorem Block.emit_cases (v : Byte) (k : Block → Block) (b : Block) :
    (b.dp.optr = b.params.obufDepth ∧ b.emit v k = b.raise .capacityExceeded 0) ∨
      (b.dp.optr ≠ b.params.obufDepth ∧ b.emit v k = k (b.push v)) := by
  unfold Block.emit
  split
  · exact .inl ⟨‹_›, rfl⟩
  · exact .inr ⟨‹_›, rfl⟩

theorem Block.emit_full {v : Byte} {k : Block → Block} {b : Block}
    (h : b.dp.optr = b.params.obufDepth) : b.emit v k = b.raise .capacityExceeded 0 := if_pos h

theorem Block.emit_room {v : Byte} {k : Block → Block} {b : Block}
    (h : b.dp.optr ≠ b.params.obufDepth) : b.emit v k = k (b.push v) := if_neg h

/-- The engine is busy exactly in CHECK and RUN (R12). -/
theorem Block.busy_iff (b : Block) : b.busy = true ↔ b.phase = .check ∨ b.phase = .run := by
  unfold Block.busy
  cases b.phase <;> simp

/-- START launches when the engine is not busy and does nothing when it is (R146). -/
theorem Block.start_cases (b : Block) :
    (b.busy = true ∧ b.start = b) ∨ (b.busy = false ∧ b.start = b.launch) := by
  unfold Block.start
  cases h : b.busy <;> simp

/-- What a register write can do (R143, R145). -/
theorem Block.regWrite_cases (a d : Word) (b : Block) :
    (a = 0 ∧ (b.regWrite a d = b.clear ∨ b.regWrite a d = b.start ∨ b.regWrite a d = b)) ∨
      (a ≠ 0 ∧ b.busy = true ∧ b.regWrite a d = b) ∨
      (a ≠ 0 ∧ b.busy = false ∧ b.regWrite a d = { b with cfg := b.cfg.write a d }) := by
  unfold Block.regWrite
  split
  · refine .inl ⟨‹_›, ?_⟩
    unfold Block.ctrlWrite
    split
    · exact .inl rfl
    · split
      · exact .inr (.inl rfl)
      · exact .inr (.inr rfl)
  · rename_i ha
    cases h : b.busy
    · exact .inr (.inr ⟨ha, rfl, if_neg Bool.false_ne_true⟩)
    · exact .inr (.inl ⟨ha, rfl, if_pos rfl⟩)

/-- What the host's IBUF write can do (R144). -/
theorem Block.ibufWrite_cases (i d : Word) (b : Block) :
    b.ibufWrite i d = b ∨
      (i < b.params.ibufDepth ∧ b.busy = false ∧
        b.ibufWrite i d = { b with ibuf := b.ibuf.write i.toNat (d.setWidth 8) }) := by
  unfold Block.ibufWrite
  split
  · rename_i h
    exact .inr ⟨h.1, by simpa using h.2, rfl⟩
  · exact .inl rfl

/-- What the CHECK step can do (R152). -/
theorem stepCheck_cases (op : OpNum) (b : Block) :
    (∃ e, startCheck op b = some e ∧ stepCheck op b = b.raise e 0) ∨
      (startCheck op b = none ∧ op = 0 ∧ stepCheck op b = { b with
        res := { b.res with
          outLen := 0, result := BitVec.ofNat 32 (pixelCount b.cfg.width b.cfg.height) }
        phase := .done }) ∨
      (startCheck op b = none ∧ op ≠ 0 ∧ stepCheck op b = { b with phase := .run }) := by
  unfold stepCheck
  cases h : startCheck op b with
  | some e => exact .inl ⟨e, rfl, rfl⟩
  | none =>
    by_cases h0 : op = 0
    · exact .inr (.inl ⟨rfl, h0, if_pos h0⟩)
    · exact .inr (.inr ⟨rfl, h0, if_neg h0⟩)

/-- What an engine step can do, by phase (R150). -/
theorem engineStep_check {op : OpNum} {run : Block → Block} {b : Block} (h : b.phase = .check) :
    engineStep op run b = stepCheck op b := by simp [engineStep, h]

theorem engineStep_run {op : OpNum} {run : Block → Block} {b : Block} (h : b.phase = .run) :
    engineStep op run b = run b := by simp [engineStep, h]

theorem engineStep_quiet {op : OpNum} {run : Block → Block} {b : Block}
    (h : b.phase = .idle ∨ b.phase = .done) : engineStep op run b = b := by
  rcases h with h | h <;> simp [engineStep, h]

/-- `startCheck` is the chain of R168: an error is one of the five, with its cause; otherwise every check
has passed. -/
theorem startCheck_eq_none_iff (op : OpNum) (b : Block) :
    startCheck op b = none ↔
      op.toNat < 9 ∧
      (usesImage op = true → b.cfg.tdesig.toNat ≤ 15 ∧ b.cfg.width ≠ 0 ∧ b.cfg.height ≠ 0 ∧
        b.cfg.inLen.toNat = b.cfg.width.toNat * b.cfg.height.toNat) ∧
      (op = 3 → b.cfg.inLen.toNat % 2 = 0) ∧
      (op ≠ 0 → b.cfg.inLen ≤ b.params.ibufDepth) := by
  unfold startCheck
  constructor
  · intro h
    split at h
    · simp at h
    split at h
    · simp at h
    split at h
    · simp at h
    split at h
    · simp at h
    split at h
    · simp at h
    rename_i h1 h2 h3 h4 h5
    refine ⟨by omega, fun hi => ?_, fun h => ?_, fun h => ?_⟩
    · simp only [hi, true_and, not_or, not_lt, ne_eq, not_not] at h2 h3
      exact ⟨h2, h3.1, h3.2.1, h3.2.2⟩
    · simp only [h, true_and] at h4
      omega
    · exact BitVec.not_lt.1 fun hlt => h5 ⟨h, hlt⟩
  · rintro ⟨h1, h2, h3, h4⟩
    rw [if_neg (by omega), if_neg, if_neg, if_neg, if_neg]
    · rintro ⟨h0, hlt⟩
      have := h4 h0
      rw [BitVec.lt_def] at hlt
      rw [BitVec.le_def] at this
      omega
    · rintro ⟨h0, hlt⟩
      have := h3 h0
      omega
    · rintro ⟨hi, hc⟩
      obtain ⟨-, hw, hh, hn⟩ := h2 hi
      rcases hc with hc | hc | hc
      · exact hw hc
      · exact hh hc
      · exact hc hn
    · rintro ⟨hi, hc⟩
      have := (h2 hi).1
      omega

end Sys2Proof.Machine
end

