-- ==== Sys2Proof/Laws/PerInstr.lean ====
section
/-! SUPPORT. What is stated of every instruction as syntax, one lemma for each constructor. -/

namespace Sys2Proof.Laws.EncodeFits

/-- The instruction's word fits the width of its format (spec/30_encoding.md R60). -/
def Statement (i : Instr) : Prop := Sys2Proof.encode i < 2 ^ i.format.width

theorem pixcnt : Statement .pixcnt := by
  unfold Statement; decide
theorem pack : Statement .pack := by
  unfold Statement; decide
theorem qpad : Statement .qpad := by
  unfold Statement; decide
theorem combine : Statement .combine := by
  unfold Statement; decide
theorem unpack : Statement .unpack := by
  unfold Statement; decide
theorem encode : Statement .encode := by
  unfold Statement; decide
theorem enclen : Statement .enclen := by
  unfold Statement; decide
theorem decode : Statement .decode := by
  unfold Statement; decide
theorem packrle : Statement .packrle := by
  unfold Statement; decide
theorem illegalOp9 : Statement .illegalOp9 := by
  unfold Statement; decide
theorem illegalOp10 : Statement .illegalOp10 := by
  unfold Statement; decide
theorem illegalOp11 : Statement .illegalOp11 := by
  unfold Statement; decide
theorem illegalOp12 : Statement .illegalOp12 := by
  unfold Statement; decide
theorem illegalOp13 : Statement .illegalOp13 := by
  unfold Statement; decide
theorem illegalOp14 : Statement .illegalOp14 := by
  unfold Statement; decide
theorem illegalOp15 : Statement .illegalOp15 := by
  unfold Statement; decide
theorem ctrlNone : Statement .ctrlNone := by
  unfold Statement; decide
theorem start : Statement .start := by
  unfold Statement; decide
theorem clear : Statement .clear := by
  unfold Statement; decide
theorem clearWithStartBit : Statement .clearWithStartBit := by
  unfold Statement; decide
theorem rdReg (addr data : Word) : Statement (.rdReg addr data) := (htWord 0 addr data).isLt
theorem rdIbuf (addr data : Word) : Statement (.rdIbuf addr data) := (htWord 1 addr data).isLt
theorem rdObuf (addr data : Word) : Statement (.rdObuf addr data) := (htWord 2 addr data).isLt
theorem rdSpace3 (addr data : Word) : Statement (.rdSpace3 addr data) := (htWord 3 addr data).isLt
theorem wrReg (addr data : Word) : Statement (.wrReg addr data) := (htWord 4 addr data).isLt
theorem wrIbuf (addr data : Word) : Statement (.wrIbuf addr data) := (htWord 5 addr data).isLt
theorem wrObuf (addr data : Word) : Statement (.wrObuf addr data) := (htWord 6 addr data).isLt
theorem wrSpace3 (addr data : Word) : Statement (.wrSpace3 addr data) := (htWord 7 addr data).isLt
theorem sample (s : Byte) : Statement (.sample s) := s.isLt
theorem packedByte (hi lo : Nibble) : Statement (.packedByte hi lo) := (combineNibbles hi lo).isLt
theorem runRecord (value length : Nibble) : Statement (.runRecord value length) :=
  (combineNibbles value length).isLt
theorem nibble (n : Nibble) : Statement (.nibble n) :=
  show n.toNat < 2 ^ 8 from Nat.lt_trans n.isLt (by decide)

end Sys2Proof.Laws.EncodeFits
end

