-- ==== Sys2Proof/Laws/Script.lean ====
section
/-! SUPPORT. A step on an event placed before those already waiting, and what a line and a turn of a host
script do (spec/30_encoding.md R70, R71). -/

namespace Sys2Proof.Machine

theorem step_before_txn (w : HtWord) (s : State) : step (s.before (.txn w)) = exec (decodeHt w) s := by
  cases s
  rfl

theorem step_before_engine (s : State) : step (s.before .engine) = engineEvent s := by
  cases s
  rfl

theorem State.transact_next {l : ScriptLine} {s t : State} (k : State → ScriptRun)
    (h : exec (decodeHt l.word) s = .next t) : s.transact l k = .next (k t) := by
  simp only [State.transact, step_before_txn, h]

theorem scriptWriteFrom_eq (vs : List Word) (i : Nat) :
    scriptWriteFrom i vs = (vs.zipIdx i).map fun e => .wri (BitVec.ofNat 32 e.2) e.1 := by
  induction vs generalizing i with
  | nil => rfl
  | cons v vs ih => simp only [scriptWriteFrom, ih, List.zipIdx_cons, List.map_cons]

/-! One equation for each act of the host that performs a transaction. -/

theorem ScriptRun.hostTurn_line (l : ScriptLine) (rest : List HostAct) (kept : List Word) (s : State) :
    ScriptRun.hostTurn ⟨.line l :: rest, kept, s⟩ = s.transact l fun t => ⟨rest, kept, t⟩ := rfl

theorem ScriptRun.hostTurn_wait (rest : List HostAct) (kept : List Word) (s : State) :
    ScriptRun.hostTurn ⟨.wait :: rest, kept, s⟩ = s.transact (.rd .status) fun t =>
      ⟨if t.hRdata.getLsbD 0 then .wait :: rest else rest, kept, t⟩ := rfl

theorem ScriptRun.hostTurn_dump (rest : List HostAct) (kept : List Word) (s : State) :
    ScriptRun.hostTurn ⟨.dump :: rest, kept, s⟩ = s.transact (.rd .outLen) fun t =>
      ⟨(List.range t.hRdata.toNat).map (fun i => .keep (BitVec.ofNat 32 i)) ++ rest, [], t⟩ := rfl

theorem ScriptRun.hostTurn_keep (i : Word) (rest : List HostAct) (kept : List Word) (s : State) :
    ScriptRun.hostTurn ⟨.keep i :: rest, kept, s⟩ = s.transact (.rdo i) fun t =>
      ⟨rest, kept ++ [t.hRdata], t⟩ := rfl

@[simp] theorem ScriptRun.run_nil (r : ScriptRun) : ScriptRun.run [] r = .next r := rfl

theorem ScriptRun.run_host {r r' : ScriptRun} (ts : List Turn) (h : r.hostTurn = .next r') :
    ScriptRun.run (.host :: ts) r = ScriptRun.run ts r' := by
  simp only [ScriptRun.run, h]

theorem ScriptRun.run_engine {r r' : ScriptRun} (ts : List Turn) (h : r.engineTurn = .next r') :
    ScriptRun.run (.engine :: ts) r = ScriptRun.run ts r' := by
  simp only [ScriptRun.run, h]

end Sys2Proof.Machine
end

