-- ==== Sys2Proof/Laws/Stages.lean ====
section
/-! SUPPORT. What each source stage answers and what each sink stage makes of a token, case by case
(spec/40_nibble_packer.md R92 to R96, spec/41_rle_codec.md R112 to R114). -/

namespace Sys2Proof.Machine

variable {b : Block} {x : Nibble}

/-! ### Source stages -/

theorem decodeNibble_ok {e : Byte} (h : e.toNat ≤ 15) : decodeNibble e = .ok (lowNibble e) :=
  if_pos ((highNibble_eq_zero_iff e).2 h)

theorem decodeNibble_error {e : Byte} (h : 15 < e.toNat) : decodeNibble e = .error .nibbleAbove15 :=
  if_neg fun h' => Nat.not_le.2 h ((highNibble_eq_zero_iff e).1 h')

/-- The column advance, whatever IPTR has become. -/
theorem advanceColumn_eq (b : Block) (iptr : Word) :
    ({ b with dp := { b.dp with iptr := iptr } } : Block).advanceColumn =
      { b with dp := { b.dp with
        iptr := iptr
        col := if b.dp.col.toNat + 1 = paddedWidth b.cfg.width then 0 else b.dp.col + 1
        row := if b.dp.col.toNat + 1 = paddedWidth b.cfg.width then b.dp.row + 1 else b.dp.row } } := by
  unfold Block.advanceColumn
  dsimp only
  split <;> rfl

theorem sourceQpad_nib (h : b.dp.row ≠ b.cfg.height) :
    sourceQpad b = .nib b.gridNibble { b with dp := b.afterGridNibble } := by
  unfold sourceQpad
  rw [if_neg h]
  unfold Block.gridNibble Block.afterGridNibble
  split
  · exact congrArg _ (advanceColumn_eq b (b.dp.iptr + 1))
  · exact congrArg _ (advanceColumn_eq b b.dp.iptr)

theorem sourceQpad_fin (h : b.dp.row = b.cfg.height) : sourceQpad b = .fin := if_pos h

theorem sourceNib_nib (h : b.dp.iptr ≠ b.cfg.inLen) (he : b.nextElement.toNat ≤ 15) :
    sourceNib b = .nib (lowNibble b.nextElement) { b with dp := { b.dp with iptr := b.dp.iptr + 1 } } := by
  unfold sourceNib
  rw [if_neg h, decodeNibble_ok he]
  rfl

theorem sourceNib_raised (h : b.dp.iptr ≠ b.cfg.inLen) (he : 15 < b.nextElement.toNat) :
    sourceNib b = .raised .invalidNibble b.dp.iptr := by
  unfold sourceNib
  rw [if_neg h, decodeNibble_error he]

theorem sourceNib_fin (h : b.dp.iptr = b.cfg.inLen) : sourceNib b = .fin := if_pos h

theorem sourceSplit_high (hs : b.dp.sph = false) (h : b.dp.iptr ≠ b.cfg.inLen) :
    sourceSplit b =
      .nib (highNibble b.nextElement) { b with dp := { b.dp with sph := true } } := by
  unfold sourceSplit takePackedByte
  rw [if_neg fun h' => h h'.2, if_neg (by simp [hs])]

theorem sourceSplit_low (hs : b.dp.sph = true) :
    sourceSplit b =
      .nib (lowNibble b.nextElement)
        { b with dp := { b.dp with sph := false, iptr := b.dp.iptr + 1 } } := by
  unfold sourceSplit takePackedByte
  rw [if_neg (by simp [hs]), if_pos hs]

theorem sourceSplit_fin (hs : b.dp.sph = false) (h : b.dp.iptr = b.cfg.inLen) : sourceSplit b = .fin :=
  if_pos ⟨hs, h⟩

theorem sourceRuns_copy (hr : b.dp.rep ≠ 0) :
    sourceRuns b = .nib b.dp.dval { b with dp := { b.dp with rep := b.dp.rep - 1 } } := if_neg hr

theorem sourceRuns_fetch (hr : b.dp.rep = 0) (h : b.dp.iptr ≠ b.cfg.inLen)
    (hl : lowNibble b.nextElement ≠ 0) :
    sourceRuns b =
      .nib (highNibble b.nextElement)
        { b with dp := { b.dp with
          dval := highNibble b.nextElement
          rep := lowNibble b.nextElement - 1
          iptr := b.dp.iptr + 1 } } := by
  unfold sourceRuns takeRunRecord
  rw [if_pos hr, if_neg h, if_neg hl]

theorem sourceRuns_raised (hr : b.dp.rep = 0) (h : b.dp.iptr ≠ b.cfg.inLen)
    (hl : lowNibble b.nextElement = 0) : sourceRuns b = .raised .malformedStream b.dp.iptr := by
  unfold sourceRuns takeRunRecord
  rw [if_pos hr, if_neg h, if_pos hl]

theorem sourceRuns_fin (hr : b.dp.rep = 0) (h : b.dp.iptr = b.cfg.inLen) : sourceRuns b = .fin := by
  unfold sourceRuns
  rw [if_pos hr, if_pos h]

/-! ### Sink stages -/

theorem sinkNib_nib (h : b.dp.optr ≠ b.params.obufDepth) :
    sinkNib (.nib x) b = b.push (x.setWidth 8) := if_neg h

theorem sinkNib_full (h : b.dp.optr = b.params.obufDepth) :
    sinkNib (.nib x) b = b.raise .capacityExceeded 0 := if_pos h

theorem sinkNib_fin : sinkNib .fin b = b.complete 0 := rfl

theorem sinkCombine_hold (hv : b.dp.holdv = false) :
    sinkCombine (.nib x) b = { b with dp := { b.dp with hold := x, holdv := true } } :=
  if_neg (by simp [hv])

theorem sinkCombine_pair (hv : b.dp.holdv = true) (h : b.dp.optr ≠ b.params.obufDepth) :
    sinkCombine (.nib x) b =
      { b.push (combineNibbles b.dp.hold x) with
        dp := { (b.push (combineNibbles b.dp.hold x)).dp with holdv := false } } :=
  (if_pos hv).trans (if_neg h)

theorem sinkCombine_full (hv : b.dp.holdv = true) (h : b.dp.optr = b.params.obufDepth) :
    sinkCombine (.nib x) b = b.raise .capacityExceeded 0 := (if_pos hv).trans (if_pos h)

theorem sinkCombine_fin (hv : b.dp.holdv = false) : sinkCombine .fin b = b.complete 0 :=
  if_neg (by simp [hv])

theorem sinkCombine_fin_odd (hv : b.dp.holdv = true) :
    sinkCombine .fin b = b.raise .invalidLength 0 := if_pos hv

theorem sinkRle_open (hr : b.dp.run = 0) :
    sinkRle (.nib x) b = { b with dp := { b.dp with cur := x, run := 1 } } := if_pos hr

theorem sinkRle_extend (hr : b.dp.run ≠ 0) (hx : x = b.dp.cur ∧ b.dp.run.toNat < 15) :
    sinkRle (.nib x) b = { b with dp := { b.dp with run := b.dp.run + 1 } } :=
  (if_neg hr).trans (if_pos hx)

theorem sinkRle_close (hr : b.dp.run ≠ 0) (hx : ¬ (x = b.dp.cur ∧ b.dp.run.toNat < 15))
    (h : b.dp.optr ≠ b.params.obufDepth) :
    sinkRle (.nib x) b =
      { b.push (combineNibbles b.dp.cur b.dp.run) with
        dp := { (b.push (combineNibbles b.dp.cur b.dp.run)).dp with cur := x, run := 1 } } :=
  (if_neg hr).trans ((if_neg hx).trans (if_neg h))

theorem sinkRle_full (hr : b.dp.run ≠ 0) (hx : ¬ (x = b.dp.cur ∧ b.dp.run.toNat < 15))
    (h : b.dp.optr = b.params.obufDepth) : sinkRle (.nib x) b = b.raise .capacityExceeded 0 :=
  (if_neg hr).trans ((if_neg hx).trans (if_pos h))

theorem sinkRle_fin_none (hr : b.dp.run = 0) : sinkRle .fin b = b.complete 0 := if_pos hr

theorem sinkRle_fin_close (hr : b.dp.run ≠ 0) (h : b.dp.optr ≠ b.params.obufDepth) :
    sinkRle .fin b =
      ({ b.push (combineNibbles b.dp.cur b.dp.run) with
        dp := { (b.push (combineNibbles b.dp.cur b.dp.run)).dp with run := 0 } } : Block).complete 0 :=
  (if_neg hr).trans (if_neg h)

theorem sinkRle_fin_full (hr : b.dp.run ≠ 0) (h : b.dp.optr = b.params.obufDepth) :
    sinkRle .fin b = b.raise .capacityExceeded 0 := (if_neg hr).trans (if_pos h)

theorem sinkRleCount_open (hr : b.dp.run = 0) :
    sinkRleCount (.nib x) b = { b with dp := { b.dp with cur := x, run := 1 } } := if_pos hr

theorem sinkRleCount_extend (hr : b.dp.run ≠ 0) (hx : x = b.dp.cur ∧ b.dp.run.toNat < 15) :
    sinkRleCount (.nib x) b = { b with dp := { b.dp with run := b.dp.run + 1 } } :=
  (if_neg hr).trans (if_pos hx)

theorem sinkRleCount_close (hr : b.dp.run ≠ 0) (hx : ¬ (x = b.dp.cur ∧ b.dp.run.toNat < 15)) :
    sinkRleCount (.nib x) b = { b with dp := { b.dp with cnt := b.dp.cnt + 1, cur := x, run := 1 } } :=
  (if_neg hr).trans (if_neg hx)

theorem sinkRleCount_fin_none (hr : b.dp.run = 0) : sinkRleCount .fin b = b.complete b.dp.cnt :=
  if_pos hr

theorem sinkRleCount_fin_close (hr : b.dp.run ≠ 0) :
    sinkRleCount .fin b =
      ({ b with dp := { b.dp with cnt := b.dp.cnt + 1, run := 0 } } : Block).complete (b.dp.cnt + 1) :=
  if_neg hr

/-! ### Both stages of a RUN step -/

theorem runStages_nib {source : Block → Fetched} {sink : Token → Block → Block} {b' : Block}
    (h : source b = .nib x b') : runStages source sink b = sink (.nib x) b' := by
  simp [runStages, feed, h]

theorem runStages_fin {source : Block → Fetched} {sink : Token → Block → Block}
    (h : source b = .fin) : runStages source sink b = sink .fin b := by
  simp [runStages, feed, h]

theorem runStages_raised {source : Block → Fetched} {sink : Token → Block → Block} {e : ErrCode}
    {pos : Word} (h : source b = .raised e pos) : runStages source sink b = b.raise e pos := by
  simp [runStages, feed, h]

end Sys2Proof.Machine
end

