-- ==== Sys2Proof/Tests/Slice0.lean ====
section
/-! SUPPORT. Tests with expected values written out from the encoding tables of spec/30_encoding.md and
the worked examples of spec/95_test_vectors.md, and for every obligation with hypotheses a state and
operands that meet them, clause by clause. -/

namespace Sys2Proof.Tests

open Machine

/-! ### Small states -/

/-- A block with both depths 64, TDESIG 1 and the given elements in IBUF from entry 0 on. -/
def blk (phase : Phase) (op : OpNum) (w h : Dim) (n : Word) (elems : List Byte)
    (dp : Datapath := .zero) : Block where
  params := ⟨64, 64⟩
  phase := phase
  cfg := ⟨op, w, h, 1, n⟩
  res := .cleared
  dp := dp
  ibuf := elems.zipIdx.map fun e => (e.2, e.1)
  ibufEpoch := 0
  obuf := []

/-- The state around a block, with the given events coming. -/
def st (b : Block) (port : List Event := []) : State := ⟨b, port, 0, 0⟩

/-- The block after an outcome that is a next state. -/
def blkOf : Host.Outcome State Fault Refusal → Option Block
  | .next t => some t.blk
  | .fault _ => none
  | .refused _ => none

/-- The read data after an outcome that is a next state. -/
def rdataOf : Host.Outcome State Fault Refusal → Option Word
  | .next t => some t.hRdata
  | .fault _ => none
  | .refused _ => none

/-- The block after one instruction in a block. -/
def after (i : Instr) (b : Block) : Option Block := blkOf (exec i (st b))

/-- The same block with an OBUF of another depth. -/
def withObufDepth (d : Word) (b : Block) : Block := { b with params := ⟨b.params.ibufDepth, d⟩ }

/-- T1: PACK of a 3 × 1 image, T = 0xD. -/
def t1 (dp : Datapath) : Block :=
  let b := blk .run 1 3 1 3 [0xAA, 0xBB, 0xCC] dp
  { b with cfg := { b.cfg with tdesig := 0x0D } }

/-- A block that ended without error with one output element. -/
def doneBlk : Block :=
  { blk .done 5 0 0 1 [0x07] with
    res := ⟨false, .noError, 0, 1, 0⟩, obuf := [(0, 0x71)] }

/-- A block that ended with an error. -/
def failedBlk : Block :=
  { blk .done 7 0 0 1 [0x50] with res := ⟨true, .malformedStream, 0, 0, 0⟩ }

/-! ### WellFormed smoke test -/

theorem test_zero_length_record_ill_formed : WellFormed (.runRecord 0x9 0) = false := by decide
theorem test_records_well_formed : ∀ v n : Nibble, WellFormed (.runRecord v n) = decide (n.toNat ≠ 0) := by
  decide

/-! ### Decoding: words written out from R62 to R67 -/

theorem test_decode_op :
    (List.range 16).map (fun w => (decode .op w).toOption) =
      [some .pixcnt, some .pack, some .qpad, some .combine, some .unpack, some .encode, some .enclen,
       some .decode] ++
      [some .packrle, some .illegalOp9, some .illegalOp10, some .illegalOp11, some .illegalOp12,
       some .illegalOp13, some .illegalOp14, some .illegalOp15] := by decide

theorem test_decode_ctrl :
    (List.range 4).map (fun w => (decode .ctrl w).toOption) =
      [some .ctrlNone, some .start, some .clear, some .clearWithStartBit] := by decide

/-- `{h_write, h_space} h_addr h_wdata` as 19 hexadecimal digits (R70). -/
theorem test_decode_ht :
    decode .ht 0x0_00000006_00000000 = .ok (.rdReg 6 0) ∧
    decode .ht 0x1_00000001_00000000 = .ok (.rdIbuf 1 0) ∧
    decode .ht 0x2_00000007_00000000 = .ok (.rdObuf 7 0) ∧
    decode .ht 0x3_00000002_00000005 = .ok (.rdSpace3 2 5) ∧
    decode .ht 0x4_00000005_00000014 = .ok (.wrReg 5 20) ∧
    decode .ht 0x5_00000005_00000064 = .ok (.wrIbuf 5 100) ∧
    decode .ht 0x6_00000000_000000FF = .ok (.wrObuf 0 255) ∧
    decode .ht 0x7_FFFFFFFF_00000001 = .ok (.wrSpace3 0xFFFFFFFF 1) := by
  refine ⟨?_, ?_, ?_, ?_, ?_, ?_, ?_, ?_⟩ <;> rfl

theorem test_decode_data8 :
    decode .sample 0b10000000 = .ok (.sample 128) ∧
    decode .packedByte 0b11110001 = .ok (.packedByte 15 1) ∧
    decode .runRecord 0b01110010 = .ok (.runRecord 7 2) ∧
    decode .nibble 0b00001110 = .ok (.nibble 14) ∧
    decode .runRecord 0b01010000 = .error .zeroRunLength ∧
    decode .nibble 0b00010000 = .error .nibbleAbove15 ∧
    decode .op 16 = .error .wordTooWide ∧ decode .ht (2 ^ 67) = .error .wordTooWide := by
  refine ⟨?_, ?_, ?_, ?_, ?_, ?_, ?_, ?_⟩ <;> rfl

/-! ### The pure functions (95, 2.1, S4, S6, S12, V60, V74, S3) -/

theorem test_quantize :
    [0, 8, 9, 25, 26, 100, 127, 128, 136, 229, 230, 246, 247, 255].map (fun s => (quantize s).toNat) =
      [0, 0, 1, 1, 2, 6, 7, 8, 8, 13, 14, 14, 15, 15] := by decide

theorem test_pad : pad [0xA, 0xB, 0xC] 3 1 0xD = [0xA, 0xB, 0xC, 0xD] ∧
    pad [15, 15, 15] 1 3 0 = [15, 0, 15, 0, 15, 0] := by decide

theorem test_comb : comb [0xA, 0xB, 0xC, 0xD] = some [0xAB, 0xCD] ∧ comb [1, 2, 3] = none ∧
    split [0x12, 0xF0] = [1, 2, 15, 0] := by decide

theorem test_enc : enc (List.replicate 17 9 ++ [3, 3, 0]) = [0x9F, 0x92, 0x32, 0x01] ∧
    enc [7, 1, 15, 1] = [0x71, 0x11, 0xF1, 0x11] := by decide

theorem test_dec : dec [0x52, 0x31, 0x11] = .ok [5, 5, 3, 1] ∧ dec [0x52, 0x30, 0x11] = .error 1 := by
  decide

/-! ### Result contracts and error order (V10, V37, V38, V6D, V79, V7A, V7B) -/

theorem test_verdict_pack : (blk .check 1 3 2 6 [0x00, 0x80, 0xFF, 0x08, 0x09, 0x64]).verdict 1 =
    .success [0x08, 0xF1, 0x01, 0x61] 0 := by decide

theorem test_verdict_combine :
    (withObufDepth 1 (blk .check 3 0 0 6 [1, 2, 3, 4, 0x20, 6])).verdict 3 =
      .failure .capacityExceeded 0 ∧
    (withObufDepth 1 (blk .check 3 0 0 6 [1, 2, 0x20, 4, 5, 6])).verdict 3 =
      .failure .invalidNibble 2 := by decide

theorem test_verdict_encode :
    (withObufDepth 2 (blk .check 5 0 0 4 [1, 2, 3, 0x33])).verdict 5 = .failure .invalidNibble 3 := by
  decide

theorem test_verdict_decode :
    (withObufDepth 15 (blk .check 7 0 0 2 [0x1F, 0x21])).verdict 7 = .failure .capacityExceeded 0 ∧
    (withObufDepth 15 (blk .check 7 0 0 2 [0x1F, 0x20])).verdict 7 = .failure .malformedStream 1 ∧
    (withObufDepth 14 (blk .check 7 0 0 2 [0x1F, 0x20])).verdict 7 = .failure .capacityExceeded 0 := by
  decide

/-! ### One step of each operation (V01, V05, traces T1 to T5, P5, V35) -/

theorem test_pixcnt :
    (after .pixcnt (blk .check 0 65535 65535 0 [])).map (·.res.result) = some 0xFFFF0000 ∧
    (after .pixcnt (blk .check 0 3 5 0 [])).map (fun b => (b.phase, b.res.result)) =
      some (.done, 20) := by decide

theorem test_pack_pad_pixel_completes_byte :
    (after .pack (t1 { Datapath.zero with iptr := 3, col := 3, hold := 0xC, holdv := true, optr := 1 })).map
      (fun b => (b.dp.col, b.dp.row, b.dp.holdv, b.obuf)) = some (0, 1, false, [(1, 0xCD)]) := by decide

theorem test_qpad_writes_nibble :
    (after .qpad (blk .run 2 2 1 2 [0xF6, 0xF7] { Datapath.zero with iptr := 1, col := 1, optr := 1 })).map
      (fun b => (b.dp.row, b.obuf)) = some (1, [(1, 0x0F)]) := by decide

theorem test_combine_invalid_nibble :
    (after .combine (blk .run 3 0 0 4 [1, 2, 0x10, 4] { Datapath.zero with iptr := 2, optr := 1 })).map
      (·.res) = some ⟨true, .invalidNibble, 2, 0, 0⟩ := by decide

theorem test_unpack_low_nibble :
    (after .unpack (blk .run 4 0 0 1 [0x5A] { Datapath.zero with sph := true, optr := 1 })).map
      (fun b => (b.dp.iptr, b.dp.sph, b.obuf)) = some (1, false, [(1, 0x0A)]) := by decide

theorem test_encode_value_changes :
    (after .encode (blk .run 5 0 0 4 [7, 7, 3, 3] { Datapath.zero with iptr := 2, cur := 7, run := 2 })).map
      (fun b => (b.dp.iptr, b.dp.cur, b.dp.run, b.obuf)) = some (3, 3, 1, [(0, 0x72)]) := by decide

theorem test_enclen_end :
    (after .enclen (blk .run 6 0 0 3 [7, 7, 3]
      { Datapath.zero with iptr := 3, cur := 3, run := 1, cnt := 1 })).map
      (fun b => (b.phase, b.res.result, b.res.outLen)) = some (.done, 2, 0) := by decide

theorem test_decode_fetch_and_malformed :
    (after .decode (blk .run 7 0 0 2 [0x22, 0x30])).map
      (fun b => (b.dp.iptr, b.dp.dval, b.dp.rep, b.obuf)) = some (1, 2, 1, [(0, 0x02)]) ∧
    (after .decode (blk .run 7 0 0 2 [0x22, 0x30] { Datapath.zero with iptr := 1, dval := 2, optr := 2 })).map
      (·.res) = some ⟨true, .malformedStream, 1, 0, 0⟩ := by decide

theorem test_packrle_end :
    (after .packrle (blk .run 8 1 1 1 [0xFF] { Datapath.zero with iptr := 1, row := 1, cur := 1, run := 1, optr := 1 })).map
      (fun b => (b.phase, b.res.outLen, b.obuf)) = some (.done, 2, [(1, 0x11)]) := by decide

theorem test_illegal_op :
    (after .illegalOp9 (blk .check 9 0 0 0 [])).map (·.res) = some ⟨true, .illegalOp, 0, 0, 0⟩ ∧
    (after .illegalOp15 (blk .check 15 0 0 0 [])).map (·.res) = some ⟨true, .illegalOp, 0, 0, 0⟩ := by
  decide

theorem test_config_before_dimensions :
    (let b := blk .check 1 0 2 0 []
     after .pack { b with cfg := { b.cfg with tdesig := 16 } }).map (·.res.errCode) =
      some .configurationOutOfRange := by decide

/-! ### Commands and transactions (P1, P3, P5, P6) -/

theorem test_clear_wins : (after .clearWithStartBit failedBlk).map (fun b => (b.phase, b.res.err)) =
    some (.idle, false) := by decide

theorem test_start_from_error : (after .start failedBlk).map (fun b => (b.phase, b.res.errCode)) =
    some (.check, .noError) := by decide

theorem test_status_after_error :
    rdataOf (exec (.rdReg 6 0) (st failedBlk)) = some 6 ∧
    rdataOf (exec (.rdReg 7 0) (st failedBlk)) = some 3 := by decide

theorem test_write_op_keeps_low_bits :
    (after (.wrReg 1 0xFFFFFFF1) (blk .idle 0 0 0 0 [])).map (·.cfg.op) = some 1 := by decide

theorem test_ibuf_write_then_read :
    (after (.wrIbuf 1 0x31) failedBlk).map (·.ibuf) = some [(0, 0x50), (1, 0x31)] ∧
    rdataOf (exec (.rdIbuf 0 0) (st failedBlk)) = some 0x50 := by decide

theorem test_obuf_read : rdataOf (exec (.rdObuf 0 0) (st doneBlk)) = some 0x71 := by decide

theorem test_fetch_word_runs_transaction :
    blkOf (step (State.reset.withFetchWord 72 0x4_00000003_00000002)) =
      some { State.reset.blk with cfg := { State.reset.blk.cfg with height := 2 } } := by decide

theorem test_fetch_word_runs_operation :
    (blkOf (step (State.reset.withFetchWord 8 9))).map (·.res.errCode) = some .illegalOp := by decide

/-! ### Host scripts (R71) -/

/-- A LOAD value above 255 is written as it is. -/
theorem test_script_load : scriptLoad [0x12, 0x1FF] = [.wri 0 0x12, .wri 1 0x1FF, .wr .inLen 2] := by decide

/-- What is left to do and what has been read after a run of a script. -/
def leftOf : Host.Outcome ScriptRun Fault Refusal → Option (List HostAct × List Word)
  | .next r => some (r.todo, r.kept)
  | .fault _ => none
  | .refused _ => none

/-- WAIT polls again while BUSY is 1 and ends when it is 0. -/
theorem test_script_wait :
    leftOf (ScriptRun.hostTurn ⟨scriptWait, [], st (blk .run 5 0 0 1 [7])⟩) = some (scriptWait, []) ∧
    leftOf (ScriptRun.hostTurn ⟨scriptWait, [], st failedBlk⟩) = some ([], []) := by decide

/-- MOVEOUT reads OUT_LEN = 1 and entry 0, and its LOAD is `WRI 0, 0x71` and `WR IN_LEN, 1`. -/
theorem test_script_moveout :
    leftOf (ScriptRun.run [.host, .host, .host] ⟨scriptMoveout, [], st doneBlk⟩) =
      some ([.line (.wri 0 0x71), .line (.wr .inLen 1)], [0x71]) := by decide

/-! ### States that meet the invariant -/

/-- ENCODE in RUN, about to look at its one element, which is above 15. -/
def encodeBlk : Block := blk .run 5 0 0 1 [0x10]

/-- ENCODE in RUN, its input used up and a run open. -/
def encodeEndBlk : Block := blk .run 5 0 0 1 [0x07] { Datapath.zero with iptr := 1, cur := 7, run := 1 }

theorem test_encodeBlk_runInv : encodeBlk.RunInv where
  launched := rfl
  checked := by decide
  iptrInInput := by decide
  written := fun i h => absurd h (Nat.not_lt_zero i)
  holdUsers := by decide
  runUsers := by decide
  splitUser := by decide
  grid := by decide
  packHold := by decide
  combineHold := by decide
  counted := by decide

theorem test_encodeEndBlk_runInv : encodeEndBlk.RunInv where
  launched := rfl
  checked := by decide
  iptrInInput := by decide
  written := fun i h => absurd h (Nat.not_lt_zero i)
  holdUsers := by decide
  runUsers := by decide
  splitUser := by decide
  grid := by decide
  packHold := by decide
  combineHold := by decide
  counted := by decide

theorem test_encodeBlk_inv : (st encodeBlk).Inv where
  depthsLegal := by decide
  ibufWf := by decide
  obufWf := by decide
  ibufWithin := by decide
  obufWithin := by decide
  optrWithin := by decide
  errAgrees := by decide
  errInDone := by decide
  errPosUsers := by decide
  outLenShown := by decide
  resultShown := by decide
  outLenWithin := by decide
  outValid := fun i h => absurd h (Nat.not_lt_zero i)
  quiet := by decide
  running := fun _ => test_encodeBlk_runInv

theorem test_encodeEndBlk_inv : (st encodeEndBlk).Inv where
  depthsLegal := by decide
  ibufWf := by decide
  obufWf := by decide
  ibufWithin := by decide
  obufWithin := by decide
  optrWithin := by decide
  errAgrees := by decide
  errInDone := by decide
  errPosUsers := by decide
  outLenShown := by decide
  resultShown := by decide
  outLenWithin := by decide
  outValid := fun i h => absurd h (Nat.not_lt_zero i)
  quiet := by decide
  running := fun _ => test_encodeEndBlk_runInv

theorem test_doneBlk_inv : (st doneBlk).Inv where
  depthsLegal := by decide
  ibufWf := by decide
  obufWf := by decide
  ibufWithin := by decide
  obufWithin := by decide
  optrWithin := by decide
  errAgrees := by decide
  errInDone := by decide
  errPosUsers := by decide
  outLenShown := by decide
  resultShown := by decide
  outLenWithin := by decide
  outValid := fun i h => ⟨0x71, by
    obtain rfl : i = 0 := Nat.lt_one_iff.1 h
    decide⟩
  quiet := by decide
  running := fun h => absurd h (by decide)

/-! ### Witnesses for the hypotheses of the obligations

Each theorem names the obligation in its own name; a clause with hypotheses of its own has a witness. -/

/-- A block in CHECK that no check stops, with a 1 × 1 image. -/
def imageBlk (op : OpNum) : Block := blk .check op 1 1 1 [0xFF]

/-- A block in CHECK with `n` input elements and no image. -/
def streamBlk (op : OpNum) (n : Word) : Block := blk .check op 0 0 n [0x01, 0x02]

/-- PACKRLE in RUN on a 2 × 1 image. -/
def rleBlk (dp : Datapath) : Block := blk .run 8 2 1 2 [0x11, 0x22] dp

theorem test_witness_decodeOfEncodeIsIdentity :
    WellFormed (.runRecord 15 1) = true ∧ WellFormed (.runRecord 0 15) = true := by decide

theorem test_witness_stepExecutesDecodedTransaction : ∃ (s : State) (w : HtWord) (rest : List Event),
    s.port = .txn w :: rest :=
  ⟨st (streamBlk 5 2) [.txn (htWord 0 6 0), .engine], htWord 0 6 0, [.engine], rfl⟩

theorem test_witness_stepExecutesOperationInOp :
    (∃ (s : State) (rest : List Event), s.port = .engine :: rest ∧
      (s.blk.phase = .check ∨ s.blk.phase = .run)) ∧
    (∃ (s : State) (rest : List Event), s.port = .engine :: rest ∧
      (s.blk.phase = .idle ∨ s.blk.phase = .done)) ∧
    (∃ s : State, s.port = [] ∧ (s.blk.phase = .check ∨ s.blk.phase = .run)) ∧
    (∃ s : State, s.port = [] ∧ (s.blk.phase = .idle ∨ s.blk.phase = .done)) :=
  ⟨⟨st encodeBlk [.engine], [], by decide⟩, ⟨st doneBlk [.engine], [], by decide⟩,
    ⟨st (streamBlk 5 2), by decide⟩, ⟨State.reset, by decide⟩⟩

theorem test_witness_resetEventGivesResetState : ∃ (s : State) (rest : List Event), s.port = .reset :: rest :=
  ⟨st encodeBlk [.reset], [], rfl⟩

theorem test_witness_registerReadReturnsMappedValue :
    (∃ (s : State) (v : Word), v.toNat = (if s.blk.phase = .check ∨ s.blk.phase = .run then 1 else 0) +
      (if s.blk.phase = .done then 2 else 0) + (if s.blk.res.err then 4 else 0)) ∧
    (11 ≤ (11 : Word).toNat ∧ (15 : Word).toNat ≤ 15) ∧ 16 ≤ (16 : Word).toNat ∧
    16 ≤ (0xFFFFFFFF : Word).toNat :=
  ⟨⟨st failedBlk, 6, by decide⟩, by decide⟩

theorem test_witness_registerRead_errorCodes :
    (∃ s : State, s.blk.res.errCode = .noError) ∧ (∃ s : State, s.blk.res.errCode = .malformedStream) ∧
    (∃ s : State, s.blk.res.errCode = .capacityExceeded) :=
  ⟨⟨st doneBlk, rfl⟩, ⟨st failedBlk, rfl⟩,
    ⟨st { failedBlk with res := ⟨true, .capacityExceeded, 0, 0, 0⟩ }, rfl⟩⟩

theorem test_witness_bufferReadReturnsEntryOrFreeValue :
    (∃ s : State, (63 : Word) < s.blk.params.ibufDepth ∧ s.blk.params.ibufDepth ≤ (64 : Word)) ∧
    (∃ (s : State) (v : Byte), s.blk.phase = .done ∧ s.blk.res.err = false ∧ (0 : Word) < s.blk.res.outLen ∧
      s.blk.obuf.read? (0 : Word).toNat = some v) ∧
    (∃ s : State, s.blk.phase ≠ .done) ∧ (∃ s : State, s.blk.res.err = true) ∧
    (∃ s : State, s.blk.res.outLen ≤ (1 : Word)) :=
  ⟨⟨st encodeBlk, by decide⟩, ⟨st doneBlk, 0x71, by decide⟩, ⟨st encodeBlk, by decide⟩,
    ⟨st failedBlk, by decide⟩, ⟨st doneBlk, by decide⟩⟩

theorem test_witness_registerWriteStoresLowBitsOrNothing :
    (∃ s : State, s.blk.phase = .idle ∨ s.blk.phase = .done) ∧
    (∃ s : State, (s.blk.phase = .check ∨ s.blk.phase = .run) ∧ 1 ≤ (1 : Word).toNat ∧ (5 : Word).toNat ≤ 5) ∧
    6 ≤ (6 : Word).toNat ∧ 6 ≤ (0xFFFFFFFF : Word).toNat :=
  ⟨⟨st doneBlk, by decide⟩, ⟨st encodeBlk, by decide⟩, by decide⟩

theorem test_witness_ctrlWritePerformsCommand :
    (∃ d : Word, d.getLsbD 1 = true ∧ d.getLsbD 0 = true) ∧
    (∃ d : Word, d.getLsbD 1 = false ∧ d.getLsbD 0 = true) ∧
    (∃ d : Word, d.getLsbD 1 = false ∧ d.getLsbD 0 = false) :=
  ⟨⟨3, by decide⟩, ⟨0xFFFFFFFD, by decide⟩, ⟨0xFFFFFFFC, by decide⟩⟩

theorem test_witness_bufferWriteStoresByteOrNothing :
    (∃ s : State, (63 : Word) < s.blk.params.ibufDepth ∧ (s.blk.phase = .idle ∨ s.blk.phase = .done)) ∧
    (∃ s : State, s.blk.params.ibufDepth ≤ (64 : Word)) ∧
    (∃ s : State, s.blk.phase = .check) ∧ (∃ s : State, s.blk.phase = .run) :=
  ⟨⟨st doneBlk, by decide⟩, ⟨st doneBlk, by decide⟩, ⟨st (streamBlk 5 2), by decide⟩,
    ⟨st encodeBlk, by decide⟩⟩

theorem test_witness_startLaunchesUnlessBusy :
    (∃ s : State, s.blk.phase = .idle ∨ s.blk.phase = .done) ∧
    (∃ s : State, s.blk.phase = .check ∨ s.blk.phase = .run) :=
  ⟨⟨st failedBlk, by decide⟩, ⟨st encodeBlk, by decide⟩⟩

theorem test_witness_clearReturnsToIdleFromAnyPhase :
    Instr.clear ∈ [Instr.clear, Instr.clearWithStartBit] ∧
    Instr.clearWithStartBit ∈ [Instr.clear, Instr.clearWithStartBit] := by decide

theorem test_witness_startTimeChecksRaiseInOrder :
    (∃ s : State, s.blk.phase = .check ∧ 15 < s.blk.cfg.tdesig.toNat) ∧
    (∃ s : State, s.blk.phase = .check ∧ s.blk.cfg.tdesig.toNat ≤ 15 ∧
      (s.blk.cfg.width = 0 ∨ s.blk.cfg.height = 0 ∨
        s.blk.cfg.inLen.toNat ≠ s.blk.cfg.width.toNat * s.blk.cfg.height.toNat)) ∧
    (∃ s : State, s.blk.phase = .check ∧ s.blk.cfg.tdesig.toNat ≤ 15 ∧ s.blk.cfg.width ≠ 0 ∧
      s.blk.cfg.height ≠ 0 ∧ s.blk.cfg.inLen.toNat = s.blk.cfg.width.toNat * s.blk.cfg.height.toNat ∧
      s.blk.params.ibufDepth < s.blk.cfg.inLen) ∧
    (∃ s : State, s.blk.phase = .check ∧ s.blk.cfg.inLen.toNat % 2 = 1) ∧
    (∃ s : State, s.blk.phase = .check ∧ s.blk.cfg.inLen.toNat % 2 = 0 ∧
      s.blk.params.ibufDepth < s.blk.cfg.inLen) ∧
    (∃ s : State, s.blk.phase = .check ∧ s.blk.params.ibufDepth < s.blk.cfg.inLen) :=
  ⟨⟨st { imageBlk 1 with cfg := ⟨1, 1, 1, 16, 1⟩ }, by decide⟩, ⟨st (blk .check 1 2 2 3 []), by decide⟩,
    ⟨st (blk .check 1 13 5 65 []), by decide⟩, ⟨st (streamBlk 3 3), by decide⟩,
    ⟨st (streamBlk 3 66), by decide⟩, ⟨st (streamBlk 7 65), by decide⟩⟩

theorem test_witness_reservedOperationRaisesIllegalOp : ∃ s : State, s.blk.phase = .check :=
  ⟨st (streamBlk 9 0), rfl⟩

theorem test_witness_pixcntGivesPaddedPixelCount : ∃ s : State, s.blk.phase = .check :=
  ⟨st (blk .check 0 65535 65535 0 []), rfl⟩

theorem test_witness_passedChecksEnterRun :
    (∃ s : State, s.blk.phase = .check ∧ s.blk.cfg.inLen ≤ s.blk.params.ibufDepth ∧
      s.blk.cfg.tdesig.toNat ≤ 15 ∧ s.blk.cfg.width ≠ 0 ∧ s.blk.cfg.height ≠ 0 ∧
      s.blk.cfg.inLen.toNat = s.blk.cfg.width.toNat * s.blk.cfg.height.toNat) ∧
    (∃ s : State, s.blk.phase = .check ∧ s.blk.cfg.inLen ≤ s.blk.params.ibufDepth ∧
      s.blk.cfg.inLen.toNat % 2 = 0) ∧
    (∃ s : State, s.blk.phase = .check ∧ s.blk.cfg.inLen ≤ s.blk.params.ibufDepth) :=
  ⟨⟨st (blk .check 1 8 8 64 []), by decide⟩, ⟨st (streamBlk 3 0), by decide⟩,
    ⟨st (streamBlk 5 64), by decide⟩⟩

theorem test_witness_packRunSteps :
    (∃ s : State, s.blk.phase = .run ∧ s.blk.dp.row ≠ s.blk.cfg.height ∧ s.blk.dp.holdv = false) ∧
    (∃ s : State, s.blk.phase = .run ∧ s.blk.dp.row ≠ s.blk.cfg.height ∧ s.blk.dp.holdv = true ∧
      s.blk.dp.optr ≠ s.blk.params.obufDepth) ∧
    (∃ s : State, s.blk.phase = .run ∧ s.blk.dp.row = s.blk.cfg.height ∧ s.blk.dp.holdv = false) :=
  ⟨⟨st (t1 .zero), by decide⟩, ⟨st (t1 { Datapath.zero with col := 3, holdv := true }), by decide⟩,
    ⟨st (t1 { Datapath.zero with iptr := 3, row := 1 }), by decide⟩⟩

theorem test_witness_qpadRunSteps :
    (∃ s : State, s.blk.phase = .run ∧ s.blk.dp.row ≠ s.blk.cfg.height ∧
      s.blk.dp.optr ≠ s.blk.params.obufDepth) ∧
    (∃ s : State, s.blk.phase = .run ∧ s.blk.dp.row = s.blk.cfg.height) :=
  ⟨⟨st (blk .run 2 1 1 1 [0xFF] { Datapath.zero with optr := 63 }), by decide⟩,
    ⟨st (blk .run 2 1 1 1 [0xFF] { Datapath.zero with row := 1 }), by decide⟩⟩

theorem test_witness_packrleRunSteps :
    (∃ s : State, s.blk.phase = .run ∧ s.blk.dp.row ≠ s.blk.cfg.height ∧ s.blk.dp.run = 0) ∧
    (∃ s : State, s.blk.phase = .run ∧ s.blk.dp.row ≠ s.blk.cfg.height ∧ s.blk.dp.run ≠ 0 ∧
      s.blk.gridNibble = s.blk.dp.cur ∧ s.blk.dp.run.toNat < 15) ∧
    (∃ s : State, s.blk.phase = .run ∧ s.blk.dp.row ≠ s.blk.cfg.height ∧ s.blk.dp.run ≠ 0 ∧
      ¬ (s.blk.gridNibble = s.blk.dp.cur ∧ s.blk.dp.run.toNat < 15) ∧
      s.blk.dp.optr ≠ s.blk.params.obufDepth) ∧
    (∃ s : State, s.blk.phase = .run ∧ s.blk.dp.row = s.blk.cfg.height ∧ s.blk.dp.run = 0) ∧
    (∃ s : State, s.blk.phase = .run ∧ s.blk.dp.row = s.blk.cfg.height ∧ s.blk.dp.run ≠ 0 ∧
      s.blk.dp.optr ≠ s.blk.params.obufDepth) :=
  ⟨⟨st (rleBlk .zero), by decide⟩, ⟨st (rleBlk { Datapath.zero with cur := 1, run := 14 }), by decide⟩,
    ⟨st (rleBlk { Datapath.zero with cur := 1, run := 15 }), by decide⟩,
    ⟨st (rleBlk { Datapath.zero with row := 1 }), by decide⟩,
    ⟨st (rleBlk { Datapath.zero with row := 1, run := 1 }), by decide⟩⟩

theorem test_witness_combineRunSteps :
    (∃ s : State, s.blk.phase = .run ∧ s.blk.dp.iptr ≠ s.blk.cfg.inLen ∧ s.blk.nextElement.toNat ≤ 15 ∧
      s.blk.dp.holdv = false) ∧
    (∃ s : State, s.blk.phase = .run ∧ s.blk.dp.iptr ≠ s.blk.cfg.inLen ∧ s.blk.nextElement.toNat ≤ 15 ∧
      s.blk.dp.holdv = true ∧ s.blk.dp.optr ≠ s.blk.params.obufDepth) ∧
    (∃ s : State, s.blk.phase = .run ∧ s.blk.dp.iptr = s.blk.cfg.inLen ∧ s.blk.dp.holdv = false) :=
  ⟨⟨st (blk .run 3 0 0 2 [0x0F, 0x00]), by decide⟩,
    ⟨st (blk .run 3 0 0 2 [0x0F, 0x00] { Datapath.zero with iptr := 1, holdv := true }), by decide⟩,
    ⟨st (blk .run 3 0 0 2 [0x0F, 0x00] { Datapath.zero with iptr := 2 }), by decide⟩⟩

theorem test_witness_unpackRunSteps :
    (∃ s : State, s.blk.phase = .run ∧ s.blk.dp.sph = false ∧ s.blk.dp.iptr ≠ s.blk.cfg.inLen ∧
      s.blk.dp.optr ≠ s.blk.params.obufDepth) ∧
    (∃ s : State, s.blk.phase = .run ∧ s.blk.dp.sph = true ∧ s.blk.dp.optr ≠ s.blk.params.obufDepth) ∧
    (∃ s : State, s.blk.phase = .run ∧ s.blk.dp.sph = false ∧ s.blk.dp.iptr = s.blk.cfg.inLen) :=
  ⟨⟨st (blk .run 4 0 0 1 [0x5A]), by decide⟩,
    ⟨st (blk .run 4 0 0 1 [0x5A] { Datapath.zero with sph := true }), by decide⟩,
    ⟨st (blk .run 4 0 0 1 [0x5A] { Datapath.zero with iptr := 1 }), by decide⟩⟩

/-- For ENCODE and ENCLEN, whose clauses have the same hypotheses but for room in OBUF. -/
theorem test_witness_encodeRunSteps_enclenRunSteps :
    (∃ s : State, s.blk.phase = .run ∧ s.blk.dp.iptr ≠ s.blk.cfg.inLen ∧ s.blk.nextElement.toNat ≤ 15 ∧
      s.blk.dp.run = 0) ∧
    (∃ s : State, s.blk.phase = .run ∧ s.blk.dp.iptr ≠ s.blk.cfg.inLen ∧ s.blk.nextElement.toNat ≤ 15 ∧
      s.blk.dp.run ≠ 0 ∧ lowNibble s.blk.nextElement = s.blk.dp.cur ∧ s.blk.dp.run.toNat < 15) ∧
    (∃ s : State, s.blk.phase = .run ∧ s.blk.dp.iptr ≠ s.blk.cfg.inLen ∧ s.blk.nextElement.toNat ≤ 15 ∧
      s.blk.dp.run ≠ 0 ∧ ¬ (lowNibble s.blk.nextElement = s.blk.dp.cur ∧ s.blk.dp.run.toNat < 15) ∧
      s.blk.dp.optr ≠ s.blk.params.obufDepth) ∧
    (∃ s : State, s.blk.phase = .run ∧ s.blk.dp.iptr = s.blk.cfg.inLen ∧ s.blk.dp.run = 0) ∧
    (∃ s : State, s.blk.phase = .run ∧ s.blk.dp.iptr = s.blk.cfg.inLen ∧ s.blk.dp.run ≠ 0 ∧
      s.blk.dp.optr ≠ s.blk.params.obufDepth) :=
  ⟨⟨st (blk .run 5 0 0 1 [0x0F]), by decide⟩,
    ⟨st (blk .run 5 0 0 1 [0x0F] { Datapath.zero with cur := 15, run := 14 }), by decide⟩,
    ⟨st (blk .run 5 0 0 1 [0x0F] { Datapath.zero with cur := 15, run := 15 }), by decide⟩,
    ⟨st (blk .run 5 0 0 0 []), by decide⟩, ⟨st encodeEndBlk, by decide⟩⟩

theorem test_witness_decodeRunSteps :
    (∃ s : State, s.blk.phase = .run ∧ s.blk.dp.rep = 0 ∧ s.blk.dp.iptr ≠ s.blk.cfg.inLen ∧
      lowNibble s.blk.nextElement ≠ 0 ∧ s.blk.dp.optr ≠ s.blk.params.obufDepth) ∧
    (∃ s : State, s.blk.phase = .run ∧ s.blk.dp.rep ≠ 0 ∧ s.blk.dp.optr ≠ s.blk.params.obufDepth) ∧
    (∃ s : State, s.blk.phase = .run ∧ s.blk.dp.rep = 0 ∧ s.blk.dp.iptr = s.blk.cfg.inLen) :=
  ⟨⟨st (blk .run 7 0 0 1 [0x2F]), by decide⟩,
    ⟨st (blk .run 7 0 0 1 [0x2F] { Datapath.zero with iptr := 1, dval := 2, rep := 14 }), by decide⟩,
    ⟨st (blk .run 7 0 0 0 []), by decide⟩⟩

/-- The state of a full OBUF of depth 1. -/
def fullSt (op : OpNum) (w h : Dim) (n : Word) (elems : List Byte) (dp : Datapath) : State :=
  st (withObufDepth 1 (blk .run op w h n elems { dp with optr := 1 }))

theorem test_witness_runTimeErrorsAreRaised :
    (∃ s : State, s.blk.phase = .run ∧ s.blk.dp.iptr ≠ s.blk.cfg.inLen ∧ 15 < s.blk.nextElement.toNat) ∧
    (∃ s : State, s.blk.phase = .run ∧ s.blk.dp.rep = 0 ∧ s.blk.dp.iptr ≠ s.blk.cfg.inLen ∧
      lowNibble s.blk.nextElement = 0) ∧
    (∃ s : State, s.blk.phase = .run ∧ s.blk.dp.optr = s.blk.params.obufDepth ∧
      s.blk.dp.row ≠ s.blk.cfg.height ∧ s.blk.dp.holdv = true) ∧
    (∃ s : State, s.blk.phase = .run ∧ s.blk.dp.optr = s.blk.params.obufDepth ∧ s.blk.dp.run ≠ 0 ∧
      s.blk.dp.row = s.blk.cfg.height) ∧
    (∃ s : State, s.blk.phase = .run ∧ s.blk.dp.optr = s.blk.params.obufDepth ∧ s.blk.dp.run ≠ 0 ∧
      ¬ (s.blk.gridNibble = s.blk.dp.cur ∧ s.blk.dp.run.toNat < 15)) ∧
    (∃ s : State, s.blk.phase = .run ∧ s.blk.dp.optr = s.blk.params.obufDepth ∧
      s.blk.dp.iptr ≠ s.blk.cfg.inLen ∧ s.blk.nextElement.toNat ≤ 15 ∧ s.blk.dp.holdv = true) ∧
    (∃ s : State, s.blk.phase = .run ∧ s.blk.dp.optr = s.blk.params.obufDepth ∧ s.blk.dp.sph = true) ∧
    (∃ s : State, s.blk.phase = .run ∧ s.blk.dp.optr = s.blk.params.obufDepth ∧ s.blk.dp.run ≠ 0 ∧
      s.blk.dp.iptr = s.blk.cfg.inLen) ∧
    (∃ s : State, s.blk.phase = .run ∧ s.blk.dp.optr = s.blk.params.obufDepth ∧ s.blk.dp.run ≠ 0 ∧
      s.blk.nextElement.toNat ≤ 15 ∧
      ¬ (lowNibble s.blk.nextElement = s.blk.dp.cur ∧ s.blk.dp.run.toNat < 15)) ∧
    (∃ s : State, s.blk.phase = .run ∧ s.blk.dp.optr = s.blk.params.obufDepth ∧ s.blk.dp.rep ≠ 0) ∧
    (∃ s : State, s.blk.phase = .run ∧ s.blk.dp.optr = s.blk.params.obufDepth ∧
      s.blk.dp.iptr ≠ s.blk.cfg.inLen ∧ lowNibble s.blk.nextElement ≠ 0) :=
  ⟨⟨st encodeBlk, by decide⟩, ⟨st (blk .run 7 0 0 1 [0x50]), by decide⟩,
    ⟨fullSt 1 1 2 2 [0xFF, 0xFF] { Datapath.zero with holdv := true }, by decide⟩,
    ⟨fullSt 8 2 1 2 [0, 0] { Datapath.zero with row := 1, run := 2 }, by decide⟩,
    ⟨fullSt 8 2 1 2 [0, 0xFF] { Datapath.zero with iptr := 1, col := 1, run := 1 }, by decide⟩,
    ⟨fullSt 3 0 0 4 [1, 2, 3, 4] { Datapath.zero with iptr := 3, holdv := true }, by decide⟩,
    ⟨fullSt 4 0 0 1 [0x5A] { Datapath.zero with sph := true }, by decide⟩,
    ⟨fullSt 5 0 0 2 [1, 2] { Datapath.zero with iptr := 2, cur := 2, run := 1 }, by decide⟩,
    ⟨fullSt 5 0 0 3 [1, 2, 3] { Datapath.zero with iptr := 2, cur := 2, run := 1 }, by decide⟩,
    ⟨fullSt 7 0 0 1 [0x22] { Datapath.zero with iptr := 1, dval := 2, rep := 1 }, by decide⟩,
    ⟨fullSt 7 0 0 2 [0x21, 0x31] { Datapath.zero with iptr := 1 }, by decide⟩⟩

theorem test_witness_operationEndsOnlyWithAllowedErrors : ∃ s t : State,
    s.Inv ∧ (s.blk.phase = .check ∨ s.blk.phase = .run) ∧
    exec (decodeOp s.blk.cfg.op) s = .next t ∧ t.blk.res.err = true :=
  ⟨st encodeBlk, st { encodeBlk with phase := .done, res := ⟨true, .invalidNibble, 0, 0, 0⟩ },
    test_encodeBlk_inv, .inr rfl, rfl, rfl⟩

theorem test_witness_errorEntryKeepsInputAndConfiguration : ∃ s t : State,
    Instr.encode.format = .op ∧ s.blk.res.err = false ∧ exec .encode s = .next t ∧ t.blk.res.err = true ∧
    t.blk.res.errCode = .invalidNibble :=
  ⟨st encodeBlk, st { encodeBlk with phase := .done, res := ⟨true, .invalidNibble, 0, 0, 0⟩ },
    rfl, rfl, rfl, rfl, rfl⟩

/-- The launch states of the whole-operation statements. -/
theorem test_imageBlk_launched (op : OpNum) : (st (imageBlk op)).Launched := ⟨rfl, rfl, rfl, rfl⟩

theorem test_streamBlk_launched (op : OpNum) (n : Word) : (st (streamBlk op n)).Launched :=
  ⟨rfl, rfl, rfl, rfl⟩

/-- For PACK, QPAD and PACKRLE. -/
theorem test_witness_imageOperations : ∀ op ∈ [(1 : OpNum), 2, 8], ∃ s : State, s.Launched ∧
    s.blk.cfg.op = op ∧ s.blk.cfg.tdesig.toNat ≤ 15 ∧ s.blk.cfg.width ≠ 0 ∧ s.blk.cfg.height ≠ 0 ∧
    s.blk.cfg.inLen.toNat = s.blk.cfg.width.toNat * s.blk.cfg.height.toNat ∧
    s.blk.cfg.inLen ≤ s.blk.params.ibufDepth ∧
    pixelCount s.blk.cfg.width s.blk.cfg.height ≤ s.blk.params.obufDepth.toNat ∧
    (enc s.blk.paddedStream).length ≤ s.blk.params.obufDepth.toNat ∧
    comb s.blk.paddedStream = some [0xF1] :=
  fun op hop => ⟨st (imageBlk op), test_imageBlk_launched op, rfl, by
    revert op
    decide⟩

theorem test_witness_combineWritesPairs : ∃ (s : State) (out : List Byte), s.Launched ∧
    s.blk.cfg.op = 3 ∧ s.blk.cfg.inLen ≤ s.blk.params.ibufDepth ∧ (∀ e ∈ s.blk.inputElements, e.toNat ≤ 15) ∧
    comb (s.blk.inputElements.map lowNibble) = some out ∧ out.length ≤ s.blk.params.obufDepth.toNat :=
  ⟨st (streamBlk 3 2), [0x12], test_streamBlk_launched 3 2, by decide⟩

theorem test_witness_unpackWritesBothNibbles : ∃ s : State, s.Launched ∧ s.blk.cfg.op = 4 ∧
    s.blk.cfg.inLen ≤ s.blk.params.ibufDepth ∧ 2 * s.blk.cfg.inLen.toNat ≤ s.blk.params.obufDepth.toNat :=
  ⟨st (streamBlk 4 2), test_streamBlk_launched 4 2, by decide⟩

/-- For ENCODE and ENCLEN. -/
theorem test_witness_encodeWritesRunRecords_enclenCountsRunRecords : ∀ op ∈ [(5 : OpNum), 6],
    ∃ s : State, s.Launched ∧ s.blk.cfg.op = op ∧ s.blk.cfg.inLen ≤ s.blk.params.ibufDepth ∧
    (∀ e ∈ s.blk.inputElements, e.toNat ≤ 15) ∧
    (enc (s.blk.inputElements.map lowNibble)).length ≤ s.blk.params.obufDepth.toNat :=
  fun op hop => ⟨st (streamBlk op 2), test_streamBlk_launched op 2, rfl, by
    revert op
    decide⟩

theorem test_witness_decodeExpandsRunRecords : ∃ (s : State) (v : List Nibble), s.Launched ∧
    s.blk.cfg.op = 7 ∧ s.blk.cfg.inLen ≤ s.blk.params.ibufDepth ∧ dec s.blk.inputElements = .ok v ∧
    v.length ≤ s.blk.params.obufDepth.toNat :=
  ⟨st (streamBlk 7 2), [0, 0, 0], test_streamBlk_launched 7 2, by decide⟩

theorem test_witness_everyOperationReachesItsVerdict :
    (∃ s : State, s.Launched ∧ s.blk.cfg.op = 15) ∧
    (∃ s : State, s.Launched ∧ s.blk.cfg.op.toNat ≤ 8 ∧
      s.blk.verdict s.blk.cfg.op = .failure .capacityExceeded 0 ∧
      ¬ s.blk.lastRecordOverflows s.blk.cfg.op) ∧
    (∃ s : State, s.Launched ∧ s.blk.cfg.op = 5 ∧ s.blk.lastRecordOverflows s.blk.cfg.op) ∧
    (∃ s : State, s.Launched ∧ s.blk.cfg.op = 8 ∧ s.blk.lastRecordOverflows s.blk.cfg.op) :=
  ⟨⟨st (streamBlk 15 2), test_streamBlk_launched 15 2, rfl⟩,
    ⟨st (streamBlk 5 65), test_streamBlk_launched 5 65, by decide, by decide,
      fun h => absurd h.1 (by decide)⟩,
    ⟨st (withObufDepth 2 (blk .check 5 0 0 3 [1, 2, 3])), ⟨rfl, rfl, rfl, rfl⟩, rfl, by decide,
      .inl (by decide)⟩,
    ⟨st (withObufDepth 1 (blk .check 8 4 4 16 (List.replicate 16 0))), ⟨rfl, rfl, rfl, rfl⟩, rfl, by decide,
      .inr (by decide)⟩⟩

theorem test_witness_combineAndSplitAreInverse :
    (∃ p : List Nibble, p.length % 2 = 0 ∧ p ≠ []) ∧ (∃ p : List Nibble, p.length % 2 = 1) ∧
    (∃ (g : List Nibble) (w h : Nat), 1 ≤ w ∧ 1 ≤ h ∧ g.length = w * h ∧ w % 2 = 1) :=
  ⟨⟨[1, 2], by decide⟩, ⟨[1, 2, 3], by decide⟩, ⟨[10, 11, 12], 3, 1, by decide⟩⟩

theorem test_witness_padInsertsOneDesignatorPerOddRow : ∃ (g : List Nibble) (w h : Nat),
    1 ≤ w ∧ 1 ≤ h ∧ g.length = w * h ∧ w % 2 = 1 :=
  ⟨[10, 11, 12], 3, 1, by decide⟩

theorem test_witness_decodeUndoesEncode : ∃ (v : List Nibble) (i : Nat) (r r' : Byte),
    r ∈ enc v ∧ (enc v)[i]? = some r ∧ (enc v)[i + 1]? = some r' ∧ highNibble r = highNibble r' :=
  ⟨List.replicate 17 7, 0, 0x7F, 0x72, by decide⟩

theorem test_witness_encodeUndoesDecodeOnCanonicalStreams :
    (∃ (rs : List Byte) (v : List Nibble), dec rs = .ok v ∧ enc v = rs) ∧
    (∃ (rs : List Byte) (v : List Nibble), dec rs = .ok v ∧ enc v ≠ rs) :=
  ⟨⟨[0x52, 0x31, 0x11], [5, 5, 3, 1], by decide⟩, ⟨[0x51, 0x51], [5, 5], by decide⟩⟩

theorem test_witness_runLengthSinksComputeEnc : ∃ (v : List Nibble) (b : Block), b.dp.run = 0 ∧
    b.dp.optr.toNat + (enc v).length ≤ b.params.obufDepth.toNat ∧ b.dp.cnt = 0 ∧ v.length < 2 ^ 32 ∧ v ≠ [] :=
  ⟨[7, 7, 3, 3], blk .run 5 0 0 4 [7, 7, 3, 3] { Datapath.zero with optr := 62 }, by decide⟩

theorem test_witness_stepKeepsInvariant :
    (∃ s t : State, s.Inv ∧ step s = .next t ∧ t.blk.phase = .done) ∧
    (∃ s t : State, s.Inv ∧ step s = .next t ∧ t.blk.phase = .check) :=
  ⟨⟨st encodeEndBlk, st { encodeEndBlk with
      phase := .done, dp := { encodeEndBlk.dp with run := 0, optr := 1 }, obuf := [(0, 0x71)]
      res := ⟨false, .noError, 0, 1, 0⟩ }, test_encodeEndBlk_inv, rfl, rfl⟩,
    ⟨st doneBlk [.txn (htWord 4 0 1)], st { doneBlk with phase := .check, res := .cleared },
      test_doneBlk_inv, rfl, rfl⟩⟩

theorem test_witness_completedOutputIsTyped : ∃ s t : State, s.Inv ∧
    (s.blk.phase = .check ∨ s.blk.phase = .run) ∧ exec (decodeOp s.blk.cfg.op) s = .next t ∧
    t.blk.phase = .done ∧ t.blk.res.err = false ∧ (0 : Word) < t.blk.res.outLen ∧ s.blk.cfg.op = 5 :=
  ⟨st encodeEndBlk, st { encodeEndBlk with
      phase := .done, dp := { encodeEndBlk.dp with run := 0, optr := 1 }, obuf := [(0, 0x71)]
      res := ⟨false, .noError, 0, 1, 0⟩ }, test_encodeEndBlk_inv, .inr rfl, rfl, rfl, rfl, by decide, rfl⟩

theorem test_witness_statusReflectsPhase : ∃ s t : State, s.Inv ∧ exec (.rdReg 6 0) s = .next t ∧
    t.hRdata.getLsbD 1 = true :=
  ⟨st doneBlk, { st doneBlk with hRdata := 2 }, test_doneBlk_inv, rfl, by decide⟩

theorem test_witness_pinsPresentResetOrTransactionThenEngine :
    (∃ (s : State) (p : Pins), s.port = [] ∧ p.rst = true) ∧
    (∃ (s : State) (p : Pins), s.port = [] ∧ p.rst = false ∧ p.hValid = true) ∧
    (∃ (s : State) (p : Pins), s.port = [] ∧ p.rst = false ∧ p.hValid = false) :=
  ⟨⟨State.reset, ⟨true, true, true, 1, 0, 7⟩, rfl, rfl⟩, ⟨State.reset, ⟨false, true, true, 1, 0, 7⟩, rfl, rfl, rfl⟩,
    ⟨State.reset, ⟨false, false, true, 1, 0, 7⟩, rfl, rfl, rfl⟩⟩

theorem test_witness_pinsPresent_everyTransaction : ∀ (write : Bool) (space : BitVec 2),
    ∃ (s : State) (p : Pins), s.port = [] ∧ p.hWrite = write ∧ p.hSpace = space :=
  fun write space => ⟨State.reset, ⟨false, true, write, space, 0xFFFFFFFF, 7⟩, rfl, rfl, rfl⟩

theorem test_witness_scriptLinesAreTheirTransactions :
    (∃ (l : ScriptLine) (s t : State), exec (decodeHt l.word) s = .next t) ∧
    (∃ s : State, s.blk.phase = .check ∨ s.blk.phase = .run) ∧
    (∃ s : State, s.blk.phase = .idle ∨ s.blk.phase = .done) ∧ (∃ s : State, s.Launched) ∧
    (∃ (s : State) (vs : List Byte), vs.length = s.blk.res.outLen.toNat ∧
      ∀ i (h : i < vs.length), s.blk.obufRead (BitVec.ofNat 32 i) = some vs[i]) :=
  ⟨⟨.rd .status, st doneBlk, { st doneBlk with hRdata := 2 }, rfl⟩, ⟨st encodeBlk, by decide⟩,
    ⟨st doneBlk, by decide⟩, ⟨st (streamBlk 5 2), test_streamBlk_launched 5 2⟩,
    ⟨st doneBlk, [0x71], by decide, fun i h => by
      obtain rfl : i = 0 := Nat.lt_one_iff.1 h
      rfl⟩⟩

theorem test_witness_busyBlockIgnoresTheHost : ∃ (s : State) (w : HtWord) (rest : List Event),
    s.port = .txn w :: rest ∧ (s.blk.phase = .check ∨ s.blk.phase = .run) ∧ isClearWrite w = false :=
  ⟨st encodeBlk [.txn (htWord 4 0 0xFFFFFFFD)], htWord 4 0 0xFFFFFFFD, [], rfl, .inr rfl, by decide⟩

theorem test_witness_hostWritesChangeOnlyTheirTarget :
    (∃ (i : Instr) (a d : Word), i = .wrReg a d ∧ a ≠ 0) ∧ (∃ a d : Word, Instr.clear ≠ .wrReg a d) ∧
    (∃ a : Word, 5 < a.toNat) ∧ (∃ a d : Word, Instr.wrReg a d ≠ .wrIbuf a d) ∧
    (∃ (k : Nat) (a : Word), k ≠ a.toNat) :=
  ⟨⟨.wrReg 5 9, 5, 9, by decide⟩, ⟨0, 0, by decide⟩, ⟨6, by decide⟩, ⟨0, 0, by decide⟩, ⟨1, 0, by decide⟩⟩

theorem test_witness_interleavingDoesNotChangeTheOperation : ∃ (s : State) (evs : List Event),
    (∀ e ∈ evs, e.harmless = true) ∧ evs.count .engine = 1 ∧
    ∀ j ≤ evs.count .engine, ∃ u : State, Host.Core.run core j { s with port := [] } = .next u ∧
      (u.blk.phase = .check ∨ u.blk.phase = .run) := by
  refine ⟨st (streamBlk 5 2), [.txn (htWord 5 0 9), .engine, .txn (htWord 0 6 0)], by decide, by decide,
    fun j hj => ?_⟩
  have h1 : j ≤ 1 := hj
  interval_cases j
  · exact ⟨st (streamBlk 5 2), rfl, .inl rfl⟩
  · exact ⟨st { streamBlk 5 2 with phase := .run }, rfl, .inr rfl⟩

theorem test_witness_engineStepsChangeOnlyEngineState :
    Instr.pack.format ≠ .ht ∧ Instr.pack.format ≠ .ctrl ∧ (Instr.sample 0).format ≠ .ht ∧
    (Instr.sample 0).format ≠ .ctrl ∧ 9 ≤ encode .illegalOp9 ∧ Instr.illegalOp9.format = .op := by decide

theorem test_witness_dataElementIsConsumedBySourceStage :
    (∃ s : State, s.blk.phase = .run ∧ s.blk.dp.row ≠ s.blk.cfg.height ∧ s.blk.dp.col < s.blk.cfg.width ∧
      s.blk.cfg.op = 1) ∧
    (∃ s : State, s.blk.phase = .run ∧ s.blk.cfg.op = 4 ∧ s.blk.dp.sph = false ∧
      s.blk.dp.iptr ≠ s.blk.cfg.inLen) ∧
    (∃ s : State, s.blk.phase = .run ∧ s.blk.cfg.op = 4 ∧ s.blk.dp.sph = true) ∧
    (∃ s : State, s.blk.phase = .run ∧ s.blk.cfg.op = 7 ∧ s.blk.dp.rep = 0 ∧
      s.blk.dp.iptr ≠ s.blk.cfg.inLen) ∧
    (∃ s : State, s.blk.phase = .run ∧ s.blk.dp.iptr ≠ s.blk.cfg.inLen ∧ s.blk.cfg.op = 5) :=
  ⟨⟨st (t1 { Datapath.zero with iptr := 2, col := 2 }), by decide⟩,
    ⟨st (blk .run 4 0 0 1 [0x5A]), by decide⟩,
    ⟨st (blk .run 4 0 0 1 [0x5A] { Datapath.zero with sph := true }), by decide⟩,
    ⟨st (blk .run 7 0 0 1 [0x50]), by decide⟩, ⟨st encodeBlk, by decide⟩⟩

theorem test_witness_runStepExecutesDecodedElement :
    (∃ s : State, s.blk.phase = .run ∧ s.blk.cfg.op = 1 ∧ s.blk.dp.row ≠ s.blk.cfg.height ∧
      s.blk.dp.col < s.blk.cfg.width ∧ decode .sample s.blk.nextElement.toNat = .ok (.sample 0xAA)) ∧
    (∃ s : State, s.blk.phase = .run ∧ s.blk.cfg.op = 4 ∧ s.blk.dp.iptr ≠ s.blk.cfg.inLen ∧
      decode .packedByte s.blk.nextElement.toNat = .ok (.packedByte 5 10)) ∧
    (∃ s : State, s.blk.phase = .run ∧ s.blk.cfg.op = 7 ∧ s.blk.dp.rep = 0 ∧
      s.blk.dp.iptr ≠ s.blk.cfg.inLen ∧ decode .runRecord s.blk.nextElement.toNat = .error .zeroRunLength) ∧
    (∃ s : State, s.blk.phase = .run ∧ s.blk.cfg.op = 5 ∧ s.blk.dp.iptr ≠ s.blk.cfg.inLen ∧
      decode .nibble s.blk.nextElement.toNat = .error .nibbleAbove15) :=
  ⟨⟨st (t1 .zero), by decide, by decide, by decide, by decide, rfl⟩,
    ⟨st (blk .run 4 0 0 1 [0x5A]), by decide, by decide, by decide, rfl⟩,
    ⟨st (blk .run 7 0 0 1 [0x50]), by decide, by decide, by decide, by decide, rfl⟩,
    ⟨st encodeBlk, by decide, by decide, by decide, rfl⟩⟩

end Sys2Proof.Tests
end

section
/-! ## The invariant of R34: reset meets it and every step keeps it -/

namespace Sys2Proof.Machine

variable {b c t : Block}

/-- A pointer that is within its bound and not at it advances without wrapping. -/
theorem toNat_succ_of_le_of_ne {w : Nat} {x n : BitVec w} (hle : x ≤ n) (hne : x ≠ n) :
    x.toNat < n.toNat ∧ (x + 1).toNat = x.toNat + 1 := by
  have hlt : x.toNat < n.toNat := Nat.lt_of_le_of_ne (BitVec.le_def.1 hle) (BitVec.toNat_ne.1 hne)
  have hn := n.isLt
  have h1 : (1 : BitVec w).toNat = 1 := (BitVec.toNat_ofNat 1 w).trans (Nat.mod_eq_of_lt (by omega))
  exact ⟨hlt, by rw [BitVec.toNat_add_of_lt (by omega), h1]⟩

/-! ### The buffers and what has been written so far -/

/-- The part of the invariant that no phase changes: legal depths, canonical buffers within them, OPTR
within OBUF. -/
structure Block.BuffersInv (b : Block) : Prop where
  depthsLegal : b.params.ibufDepth ≠ 0 ∧ b.params.obufDepth ≠ 0
  ibufWf : b.ibuf.wf
  obufWf : b.obuf.wf
  ibufWithin : ∀ c ∈ b.ibuf, c.1 < b.params.ibufDepth.toNat
  obufWithin : ∀ c ∈ b.obuf, c.1 < b.params.obufDepth.toNat
  optrWithin : b.dp.optr ≤ b.params.obufDepth

/-- What a launched operation keeps until it ends: no result yet, and below OPTR only written elements of
the operation's type. -/
structure Block.OutputInv (b : Block) : Prop extends b.BuffersInv where
  launched : b.res = .cleared
  written : ∀ i < b.dp.optr.toNat, ∃ v, b.obuf.read? i = some v ∧ elementTyped b.cfg.op v

theorem Block.Inv.buffers (h : b.Inv) : b.BuffersInv :=
  ⟨h.depthsLegal, h.ibufWf, h.obufWf, h.ibufWithin, h.obufWithin, h.optrWithin⟩

theorem Block.Inv.output (h : b.Inv) (hp : b.phase = .check ∨ b.phase = .run) : b.OutputInv := by
  rcases hp with hp | hp
  · obtain ⟨hdp, hres⟩ := h.quiet (.inr hp)
    exact ⟨h.buffers, hres, fun i hi => absurd hi (by simp [hdp, Datapath.zero])⟩
  · exact ⟨h.buffers, (h.running hp).launched, (h.running hp).written⟩

theorem Block.BuffersInv.congr (h : b.BuffersInv) (hparams : c.params = b.params)
    (hibuf : c.ibuf = b.ibuf) (hobuf : c.obuf = b.obuf) (hoptr : c.dp.optr ≤ b.params.obufDepth) :
    c.BuffersInv where
  depthsLegal := hparams ▸ h.depthsLegal
  ibufWf := hibuf ▸ h.ibufWf
  obufWf := hobuf ▸ h.obufWf
  ibufWithin := by simpa only [hibuf, hparams] using h.ibufWithin
  obufWithin := by simpa only [hobuf, hparams] using h.obufWithin
  optrWithin := hparams ▸ hoptr

theorem Block.OutputInv.withDp (h : b.OutputInv) {dp : Datapath} (ho : dp.optr = b.dp.optr) :
    ({ b with dp := dp } : Block).OutputInv where
  toBuffersInv := h.toBuffersInv.congr rfl rfl rfl (ho ▸ h.optrWithin)
  launched := h.launched
  written := by simpa only [ho] using h.written

/-- Writing an element of the operation's type where there is room keeps the output side (R47). -/
theorem Block.OutputInv.push (h : b.OutputInv) (hroom : b.dp.optr ≠ b.params.obufDepth) {v : Byte}
    (hv : elementTyped b.cfg.op v) : (b.push v).OutputInv := by
  obtain ⟨hlt, hsucc⟩ := toNat_succ_of_le_of_ne h.optrWithin hroom
  have hoptr : (b.push v).dp.optr.toNat = b.dp.optr.toNat + 1 := hsucc
  refine ⟨⟨h.depthsLegal, h.ibufWf, Memory.write_wf h.obufWf _ v, h.ibufWithin,
    Memory.write_within h.obufWithin hlt v, BitVec.le_def.2 (hoptr ▸ hlt)⟩, h.launched, fun i hi => ?_⟩
  · rw [hoptr] at hi
    rw [Block.push_obuf]
    rcases Nat.lt_succ_iff_lt_or_eq.1 hi with hi | rfl
    · rw [Memory.read?_write_ne _ v (Nat.ne_of_lt hi)]
      exact h.written i hi
    · exact ⟨v, Memory.read?_write_same .., hv⟩

/-! ### The states with the invariant -/

/-- Where no result shows, only the buffers, IDLE and CHECK, and RUN are left to ask about. -/
theorem Block.BuffersInv.inv_of_cleared (h : b.BuffersInv) (hres : b.res = .cleared)
    (hquiet : b.phase = .idle ∨ b.phase = .check → b.dp = .zero) (hrun : b.phase = .run → b.RunInv) :
    b.Inv where
  depthsLegal := h.depthsLegal
  ibufWf := h.ibufWf
  obufWf := h.obufWf
  ibufWithin := h.ibufWithin
  obufWithin := h.obufWithin
  optrWithin := h.optrWithin
  errAgrees := by simp [hres, ResultRegs.cleared]
  errInDone := by simp [hres, ResultRegs.cleared]
  errPosUsers := by simp [hres, ResultRegs.cleared]
  outLenShown := by simp [hres, ResultRegs.cleared]
  resultShown := by simp [hres, ResultRegs.cleared]
  outLenWithin := by simp [hres, ResultRegs.cleared, BitVec.le_def]
  outValid := by simp [hres, ResultRegs.cleared]
  quiet := fun hp => ⟨hquiet hp, hres⟩
  running := hrun

/-- An operation that raises ends in a state with the invariant (R170). -/
theorem Block.BuffersInv.raise_inv (h : b.BuffersInv) {e : ErrCode} {pos : Word} (he : e ≠ .noError)
    (hpos : pos ≠ 0 → e = .malformedStream ∨ e = .invalidNibble) : (b.raise e pos).Inv where
  depthsLegal := h.depthsLegal
  ibufWf := h.ibufWf
  obufWf := h.obufWf
  ibufWithin := h.ibufWithin
  obufWithin := h.obufWithin
  optrWithin := h.optrWithin
  errAgrees := by simp [he]
  errInDone := fun _ => rfl
  errPosUsers := hpos
  outLenShown := by simp
  resultShown := by simp
  outLenWithin := by simp [BitVec.le_def]
  outValid := by simp
  quiet := by simp
  running := by simp

/-- An operation that completes ends in a state with the invariant (R153). -/
theorem Block.OutputInv.complete_inv (h : b.OutputInv) (r : Word) : (b.complete r).Inv where
  depthsLegal := h.depthsLegal
  ibufWf := h.ibufWf
  obufWf := h.obufWf
  ibufWithin := h.ibufWithin
  obufWithin := h.obufWithin
  optrWithin := h.optrWithin
  errAgrees := by simp [h.launched, ResultRegs.cleared]
  errInDone := fun _ => rfl
  errPosUsers := by simp [h.launched, ResultRegs.cleared]
  outLenShown := by simp [h.launched, ResultRegs.cleared]
  resultShown := by simp [h.launched, ResultRegs.cleared]
  outLenWithin := h.optrWithin
  outValid := fun i hi => (h.written i hi).imp fun _ => And.left
  quiet := by simp
  running := by simp

/-- What an engine step can make of a busy block: the operation fails, completes, or is in RUN. -/
inductive Block.EngineResult (b : Block) : Block → Prop where
  | failed {d : Block} {e : ErrCode} {pos : Word} (buffers : d.BuffersInv) (code : e ≠ .noError)
      (position : pos ≠ 0 → e = .malformedStream ∨ e = .invalidNibble) : EngineResult b (d.raise e pos)
  | completed {d : Block} {r : Word} (output : d.OutputInv) (op : d.cfg.op = b.cfg.op) :
      EngineResult b (d.complete r)
  | runs {d : Block} (output : d.OutputInv) (running : d.RunInv) (phase : d.phase = .run) :
      EngineResult b d

theorem Block.EngineResult.inv (h : b.EngineResult t) : t.Inv := by
  cases h with
  | failed buffers code position => exact buffers.raise_inv code position
  | completed output op => exact output.complete_inv _
  | runs output running phase =>
    exact output.inv_of_cleared output.launched (by simp [phase]) fun _ => running

/-! ### Source stages -/

/-- The place `dp` gives on the padded grid, and the samples taken up to there (the clause of R34). -/
def Block.OnGrid (b : Block) (dp : Datapath) : Prop :=
  dp.col.toNat < paddedWidth b.cfg.width ∧ dp.row ≤ b.cfg.height ∧
  (dp.row = b.cfg.height → dp.col = 0) ∧
  dp.iptr.toNat = dp.row.toNat * b.cfg.width.toNat + min dp.col.toNat b.cfg.width.toNat

/-- A source stage has produced a nibble and left the registers `dp`: its own are within the bounds of R34
again, those of the sink stage are as they were, and the input has advanced by what the sinks rely on. -/
structure Block.SourceAdvance (b : Block) (dp : Datapath) : Prop where
  optr : dp.optr = b.dp.optr := by rfl
  holdv : dp.holdv = b.dp.holdv := by rfl
  run : dp.run = b.dp.run := by rfl
  cnt : dp.cnt = b.dp.cnt := by rfl
  iptrInInput : dp.iptr ≤ b.cfg.inLen
  splitUser : dp.sph → b.cfg.op = 4 ∧ dp.iptr ≠ b.cfg.inLen
  grid : usesImage b.cfg.op → b.OnGrid dp
  colParity : b.cfg.op = 1 → (dp.col.toNat % 2 = 1 ↔ ¬ b.dp.col.toNat % 2 = 1)
  nibbleTaken : b.cfg.op = 3 ∨ b.cfg.op = 6 → dp.iptr.toNat = b.dp.iptr.toNat + 1

/-- What the source stage of a running operation can answer. -/
inductive Block.SourceAnswer (b : Block) : Fetched → Prop where
  | nib {x : Nibble} {dp : Datapath} (advance : b.SourceAdvance dp) :
      SourceAnswer b (.nib x { b with dp := dp })
  | fin : SourceAnswer b .fin
  | raised {e : ErrCode} {pos : Word} (code : e = .malformedStream ∨ e = .invalidNibble) :
      SourceAnswer b (.raised e pos)

/-- For the operations that read no image, only IPTR and SPH are left to ask about. -/
theorem Block.SourceAdvance.of_stream {dp : Datapath} (himage : usesImage b.cfg.op = false)
    (hsink : dp.optr = b.dp.optr ∧ dp.holdv = b.dp.holdv ∧ dp.run = b.dp.run ∧ dp.cnt = b.dp.cnt)
    (hiptr : dp.iptr ≤ b.cfg.inLen) (hsplit : dp.sph → b.cfg.op = 4 ∧ dp.iptr ≠ b.cfg.inLen)
    (htaken : b.cfg.op = 3 ∨ b.cfg.op = 6 → dp.iptr.toNat = b.dp.iptr.toNat + 1) :
    b.SourceAdvance dp := by
  obtain ⟨hoptr, hholdv, hrun, hcnt⟩ := hsink
  refine ⟨hoptr, hholdv, hrun, hcnt, hiptr, hsplit, by simp [himage], fun h1 => ?_, htaken⟩
  simp [h1, usesImage] at himage

/-- Before the end of the input IPTR advances without wrapping. -/
theorem Block.RunInv.iptr_succ (h : b.RunInv) (hne : b.dp.iptr ≠ b.cfg.inLen) :
    (b.dp.iptr + 1).toNat = b.dp.iptr.toNat + 1 ∧ b.dp.iptr + 1 ≤ b.cfg.inLen := by
  obtain ⟨hlt, hsucc⟩ := toNat_succ_of_le_of_ne h.iptrInInput hne
  exact ⟨hsucc, BitVec.le_def.2 (hsucc ▸ hlt)⟩

/-- Only UNPACK uses SPH. -/
theorem Block.RunInv.sph_of_op_ne (h : b.RunInv) (hop : b.cfg.op ≠ 4) : b.dp.sph = false :=
  Bool.eq_false_iff.2 fun hs => hop (h.splitUser hs).1

theorem sourceNib_answer (h : b.RunInv) (hop : b.cfg.op = 3 ∨ b.cfg.op = 5 ∨ b.cfg.op = 6) :
    b.SourceAnswer (sourceNib b) := by
  obtain ⟨himage, h4⟩ : usesImage b.cfg.op = false ∧ b.cfg.op ≠ 4 := by
    rcases hop with hop | hop | hop <;> simp [hop, usesImage]
  by_cases hend : b.dp.iptr = b.cfg.inLen
  · rw [sourceNib_fin hend]
    exact .fin
  by_cases hbig : 15 < b.nextElement.toNat
  · rw [sourceNib_raised hend hbig]
    exact .raised (.inr rfl)
  · rw [sourceNib_nib hend (Nat.le_of_not_lt hbig)]
    obtain ⟨hsucc, hle⟩ := h.iptr_succ hend
    exact .nib (.of_stream himage ⟨rfl, rfl, rfl, rfl⟩ hle (by simp [h.sph_of_op_ne h4]) fun _ => hsucc)

/-- SPH is set only before the end of the input, so the low half always has its element (R94). -/
theorem sourceSplit_answer (h : b.RunInv) (hop : b.cfg.op = 4) : b.SourceAnswer (sourceSplit b) := by
  have himage : usesImage b.cfg.op = false := by simp [hop, usesImage]
  cases hs : b.dp.sph with
  | true =>
    rw [sourceSplit_low hs]
    exact .nib (.of_stream himage ⟨rfl, rfl, rfl, rfl⟩ (h.iptr_succ (h.splitUser hs).2).2 (by simp)
      (by simp [hop]))
  | false =>
    by_cases hend : b.dp.iptr = b.cfg.inLen
    · rw [sourceSplit_fin hs hend]
      exact .fin
    · rw [sourceSplit_high hs hend]
      exact .nib (.of_stream himage ⟨rfl, rfl, rfl, rfl⟩ h.iptrInInput (fun _ => ⟨hop, hend⟩)
        (by simp [hop]))

theorem sourceRuns_answer (h : b.RunInv) (hop : b.cfg.op = 7) : b.SourceAnswer (sourceRuns b) := by
  have himage : usesImage b.cfg.op = false := by simp [hop, usesImage]
  have hsph : b.dp.sph = false := h.sph_of_op_ne (by simp [hop])
  by_cases hrep : b.dp.rep = 0
  · by_cases hend : b.dp.iptr = b.cfg.inLen
    · rw [sourceRuns_fin hrep hend]
      exact .fin
    by_cases hlen : lowNibble b.nextElement = 0
    · rw [sourceRuns_raised hrep hend hlen]
      exact .raised (.inl rfl)
    · rw [sourceRuns_fetch hrep hend hlen]
      exact .nib (.of_stream himage ⟨rfl, rfl, rfl, rfl⟩ (h.iptr_succ hend).2 (by simp [hsph])
        (by simp [hop]))
  · rw [sourceRuns_copy hrep]
    exact .nib (.of_stream himage ⟨rfl, rfl, rfl, rfl⟩ h.iptrInInput (by simp [hsph]) (by simp [hop]))

/-- The index of the next sample counts the samples of the rows before and of this row (R92). -/
theorem Block.RunInv.afterGridNibble_iptr (h : b.RunInv) (himage : usesImage b.cfg.op)
    (hrow : b.dp.row ≠ b.cfg.height) :
    b.afterGridNibble.iptr ≤ b.cfg.inLen ∧
    b.afterGridNibble.iptr.toNat =
      b.dp.row.toNat * b.cfg.width.toNat + min (b.dp.col.toNat + 1) b.cfg.width.toNat := by
  obtain ⟨-, hrowle, -, hiptr⟩ := h.grid himage
  by_cases hreal : b.dp.col < b.cfg.width
  · have hcol := BitVec.lt_def.1 hreal
    have hinLen : (b.dp.row.toNat + 1) * b.cfg.width.toNat ≤ b.cfg.inLen.toNat := by
      obtain ⟨-, hchecks, -, -⟩ := (startCheck_eq_none_iff ..).1 h.checked.2
      rw [(hchecks himage).2.2.2, Nat.mul_comm b.cfg.width.toNat]
      exact Nat.mul_le_mul_right _ (toNat_succ_of_le_of_ne hrowle hrow).1
    rw [Nat.succ_mul] at hinLen
    obtain ⟨hsucc, hle⟩ := h.iptr_succ (BitVec.toNat_ne.2 (by omega))
    simp only [Block.afterGridNibble, if_pos hreal]
    exact ⟨hle, by omega⟩
  · have hcol := BitVec.le_def.1 (BitVec.not_lt.1 hreal)
    simp only [Block.afterGridNibble, if_neg hreal]
    exact ⟨h.iptrInInput, by omega⟩

/-- One step along the padded grid: within a row, or from its last column to the next row's first (R92).
The padded width is even, so the column's parity changes either way. -/
theorem Block.RunInv.afterGridNibble_onGrid (h : b.RunInv) (himage : usesImage b.cfg.op)
    (hrow : b.dp.row ≠ b.cfg.height) :
    b.OnGrid b.afterGridNibble ∧
    (b.afterGridNibble.col.toNat % 2 = 1 ↔ ¬ b.dp.col.toNat % 2 = 1) := by
  obtain ⟨hcol, hrowle, -, -⟩ := h.grid himage
  have hwidth := b.cfg.width.isLt
  unfold Block.OnGrid
  rw [(h.afterGridNibble_iptr himage hrow).2]
  by_cases hlast : b.dp.col.toNat + 1 = paddedWidth b.cfg.width
  · obtain ⟨hrowlt, hrowsucc⟩ := toNat_succ_of_le_of_ne hrowle hrow
    have hrow' : b.afterGridNibble.row = b.dp.row + 1 := if_pos hlast
    have hcol' : b.afterGridNibble.col = 0 := if_pos hlast
    rw [hrow', hcol', hrowsucc, Nat.succ_mul, BitVec.le_def, hrowsucc]
    unfold paddedWidth at *
    simp only [BitVec.ofNat_eq_ofNat, BitVec.toNat_ofNat, implies_true, true_and]
    omega
  · have hrow' : b.afterGridNibble.row = b.dp.row := if_neg hlast
    have hcol' : b.afterGridNibble.col = b.dp.col + 1 := if_neg hlast
    unfold paddedWidth at *
    have hcolsucc : (b.dp.col + 1).toNat = b.dp.col.toNat + 1 :=
      BitVec.toNat_add_of_lt (by simp; omega)
    rw [hrow', hcol', hcolsucc]
    exact ⟨⟨by omega, hrowle, fun he => absurd he hrow, rfl⟩, by omega⟩

theorem sourceQpad_answer (h : b.RunInv) (himage : usesImage b.cfg.op) :
    b.SourceAnswer (sourceQpad b) := by
  by_cases hrow : b.dp.row = b.cfg.height
  · rw [sourceQpad_fin hrow]
    exact .fin
  · rw [sourceQpad_nib hrow]
    obtain ⟨hgrid, hparity⟩ := h.afterGridNibble_onGrid himage hrow
    exact .nib {
      iptrInInput := (h.afterGridNibble_iptr himage hrow).1
      splitUser := fun hs => by simp [(h.splitUser hs).1, usesImage] at himage
      grid := fun _ => hgrid
      colParity := fun _ => hparity
      nibbleTaken := fun hop => by rcases hop with hop | hop <;> simp [hop, usesImage] at himage }

/-! ### Sink stages -/

/-- The records counted so far and the open one (R113). -/
def Datapath.recordsSeen (dp : Datapath) : Nat := dp.cnt.toNat + if dp.run = 0 then 0 else 1

/-- What a sink stage relies on: the output side, and which operations use its registers. -/
structure Block.SinkInv (b : Block) : Prop where
  output : b.OutputInv
  holdUsers : b.dp.holdv → b.cfg.op = 1 ∨ b.cfg.op = 3
  runUsers : b.dp.run ≠ 0 → b.cfg.op = 5 ∨ b.cfg.op = 6 ∨ b.cfg.op = 8

/-- A sink stage has consumed a nibble and the operation goes on: what it relies on holds again, the
source's registers are as they were, and the held nibble and the open run account for the one consumed. -/
structure Block.SinkAdvance (c t : Block) : Prop where
  phase : t.phase = c.phase := by rfl
  cfg : t.cfg = c.cfg := by rfl
  params : t.params = c.params := by rfl
  iptr : t.dp.iptr = c.dp.iptr := by rfl
  col : t.dp.col = c.dp.col := by rfl
  row : t.dp.row = c.dp.row := by rfl
  sph : t.dp.sph = c.dp.sph := by rfl
  sinkInv : t.SinkInv
  holdFlips : c.cfg.op = 1 ∨ c.cfg.op = 3 → (t.dp.holdv ↔ ¬ c.dp.holdv)
  recordsGrow : c.cfg.op = 6 → t.dp.recordsSeen ≤ c.dp.recordsSeen + 1

/-- What the sink stage of a running operation can make of a token. -/
inductive Block.SinkResult (c : Block) : Token → Block → Prop where
  | failed {tok : Token} {e : ErrCode} (code : e ≠ .noError) : SinkResult c tok (c.raise e 0)
  | completed {tok : Token} {d : Block} {r : Word} (output : d.OutputInv) (cfg : d.cfg = c.cfg) :
      SinkResult c tok (d.complete r)
  | advanced {x : Nibble} {t : Block} (advance : c.SinkAdvance t) : SinkResult c (.nib x) t

theorem sinkNib_result (h : c.SinkInv) (hop : c.cfg.op = 2 ∨ c.cfg.op = 4 ∨ c.cfg.op = 7) (tok : Token) :
    c.SinkResult tok (sinkNib tok c) := by
  obtain ⟨noHold, noRle, noCount⟩ : ¬ (c.cfg.op = 1 ∨ c.cfg.op = 3) ∧ ¬ (c.cfg.op = 5 ∨ c.cfg.op = 8) ∧
      c.cfg.op ≠ 6 := by rcases hop with hop | hop | hop <;> simp [hop]
  cases tok with
  | fin => exact .completed h.output rfl
  | nib x =>
    by_cases hfull : c.dp.optr = c.params.obufDepth
    · rw [sinkNib_full hfull]
      exact .failed (by decide)
    · rw [sinkNib_nib hfull]
      have htyped : elementTyped c.cfg.op (x.setWidth 8) :=
        ⟨fun _ => highNibble_setWidth x, fun h' => absurd h' noRle⟩
      exact .advanced {
        sinkInv := ⟨h.output.push hfull htyped, h.holdUsers, h.runUsers⟩
        holdFlips := fun h' => absurd h' noHold
        recordsGrow := fun h' => absurd h' noCount }

theorem sinkCombine_result (h : c.SinkInv) (hop : c.cfg.op = 1 ∨ c.cfg.op = 3) (tok : Token) :
    c.SinkResult tok (sinkCombine tok c) := by
  have noCount : c.cfg.op ≠ 6 := by rcases hop with hop | hop <;> simp [hop]
  have htyped (v : Byte) : elementTyped c.cfg.op v := by
    rcases hop with hop | hop <;> simp [hop, elementTyped]
  cases hv : c.dp.holdv with
  | false =>
    cases tok with
    | fin =>
      rw [sinkCombine_fin hv]
      exact .completed h.output rfl
    | nib x =>
      rw [sinkCombine_hold hv]
      exact .advanced {
        sinkInv := ⟨h.output.withDp rfl, fun _ => hop, h.runUsers⟩
        holdFlips := by simp [hv]
        recordsGrow := fun h' => absurd h' noCount }
  | true =>
    cases tok with
    | fin =>
      rw [sinkCombine_fin_odd hv]
      exact .failed (by decide)
    | nib x =>
      by_cases hfull : c.dp.optr = c.params.obufDepth
      · rw [sinkCombine_full hv hfull]
        exact .failed (by decide)
      · rw [sinkCombine_pair hv hfull]
        exact .advanced {
          sinkInv := ⟨(h.output.push hfull (htyped _)).withDp rfl, by simp, h.runUsers⟩
          holdFlips := by simp [hv]
          recordsGrow := fun h' => absurd h' noCount }

/-- The open run has a length, so the record that closes it is well-formed (R63, R112). -/
theorem sinkRle_result (h : c.SinkInv) (hop : c.cfg.op = 5 ∨ c.cfg.op = 8) (tok : Token) :
    c.SinkResult tok (sinkRle tok c) := by
  obtain ⟨noHold, noNib, noCount⟩ : ¬ (c.cfg.op = 1 ∨ c.cfg.op = 3) ∧
      ¬ (c.cfg.op = 2 ∨ c.cfg.op = 4 ∨ c.cfg.op = 7) ∧ c.cfg.op ≠ 6 := by
    rcases hop with hop | hop <;> simp [hop]
  have users : c.cfg.op = 5 ∨ c.cfg.op = 6 ∨ c.cfg.op = 8 := hop.imp id .inr
  by_cases hrun : c.dp.run = 0
  · cases tok with
    | fin =>
      rw [sinkRle_fin_none hrun]
      exact .completed h.output rfl
    | nib x =>
      rw [sinkRle_open hrun]
      exact .advanced {
        sinkInv := ⟨h.output.withDp rfl, h.holdUsers, fun _ => users⟩
        holdFlips := fun h' => absurd h' noHold
        recordsGrow := fun h' => absurd h' noCount }
  have htyped : elementTyped c.cfg.op (combineNibbles c.dp.cur c.dp.run) :=
    ⟨fun h' => absurd h' noNib, fun _ => by simpa using hrun⟩
  cases tok with
  | fin =>
    by_cases hfull : c.dp.optr = c.params.obufDepth
    · rw [sinkRle_fin_full hrun hfull]
      exact .failed (by decide)
    · rw [sinkRle_fin_close hrun hfull]
      exact .completed ((h.output.push hfull htyped).withDp rfl) rfl
  | nib x =>
    by_cases hx : x = c.dp.cur ∧ c.dp.run.toNat < 15
    · rw [sinkRle_extend hrun hx]
      exact .advanced {
        sinkInv := ⟨h.output.withDp rfl, h.holdUsers, fun _ => users⟩
        holdFlips := fun h' => absurd h' noHold
        recordsGrow := fun h' => absurd h' noCount }
    by_cases hfull : c.dp.optr = c.params.obufDepth
    · rw [sinkRle_full hrun hx hfull]
      exact .failed (by decide)
    · rw [sinkRle_close hrun hx hfull]
      exact .advanced {
        sinkInv := ⟨(h.output.push hfull htyped).withDp rfl, h.holdUsers, fun _ => users⟩
        holdFlips := fun h' => absurd h' noHold
        recordsGrow := fun h' => absurd h' noCount }

/-- A consumed nibble opens, extends or closes a run: at most one more record is seen (R113). -/
theorem sinkRleCount_result (h : c.SinkInv) (hop : c.cfg.op = 6) (tok : Token) :
    c.SinkResult tok (sinkRleCount tok c) := by
  have users : c.cfg.op = 5 ∨ c.cfg.op = 6 ∨ c.cfg.op = 8 := .inr (.inl hop)
  have advance {dp : Datapath} (hsource : dp.iptr = c.dp.iptr ∧ dp.col = c.dp.col ∧ dp.row = c.dp.row ∧
      dp.sph = c.dp.sph) (hsink : dp.optr = c.dp.optr ∧ dp.holdv = c.dp.holdv)
      (hrecords : dp.recordsSeen ≤ c.dp.recordsSeen + 1) : c.SinkAdvance { c with dp := dp } := by
    obtain ⟨hiptr, hcol, hrow, hsph⟩ := hsource
    obtain ⟨hoptr, hholdv⟩ := hsink
    exact {
      iptr := hiptr
      col := hcol
      row := hrow
      sph := hsph
      sinkInv := ⟨h.output.withDp hoptr, by simpa only [hholdv] using h.holdUsers, fun _ => users⟩
      holdFlips := by simp [hop]
      recordsGrow := fun _ => hrecords }
  by_cases hrun : c.dp.run = 0
  · cases tok with
    | fin =>
      rw [sinkRleCount_fin_none hrun]
      exact .completed h.output rfl
    | nib x =>
      rw [sinkRleCount_open hrun]
      exact .advanced (advance ⟨rfl, rfl, rfl, rfl⟩ ⟨rfl, rfl⟩ (by simp [Datapath.recordsSeen, hrun]))
  cases tok with
  | fin =>
    rw [sinkRleCount_fin_close hrun]
    exact .completed (h.output.withDp rfl) rfl
  | nib x =>
    by_cases hx : x = c.dp.cur ∧ c.dp.run.toNat < 15
    · rw [sinkRleCount_extend hrun hx]
      refine .advanced (advance ⟨rfl, rfl, rfl, rfl⟩ ⟨rfl, rfl⟩ ?_)
      simp only [Datapath.recordsSeen, if_neg hrun]
      split <;> omega
    · rw [sinkRleCount_close hrun hx]
      refine .advanced (advance ⟨rfl, rfl, rfl, rfl⟩ ⟨rfl, rfl⟩ ?_)
      have hcnt : (c.dp.cnt + 1).toNat ≤ c.dp.cnt.toNat + 1 := Nat.mod_le _ _
      simp only [Datapath.recordsSeen, if_neg hrun]
      split <;> omega

/-! ### The RUN step -/

/-- Both stages have advanced, so the coupling of HOLDV to the input and of CNT to IPTR holds again. -/
theorem Block.RunInv.advance (h : b.RunInv) {dp : Datapath} (hs : b.SourceAdvance dp)
    (ht : ({ b with dp := dp } : Block).SinkAdvance t) : t.RunInv where
  launched := ht.sinkInv.output.launched
  checked := by
    have hcheck : startCheck b.cfg.op t = startCheck b.cfg.op b := by simp [startCheck, ht.cfg, ht.params]
    simpa only [ht.cfg, hcheck] using h.checked
  iptrInInput := by simpa only [ht.cfg, ht.iptr] using hs.iptrInInput
  written := ht.sinkInv.output.written
  holdUsers := ht.sinkInv.holdUsers
  runUsers := ht.sinkInv.runUsers
  splitUser := by simpa only [ht.cfg, ht.iptr, ht.sph] using hs.splitUser
  grid := by simpa only [ht.cfg, ht.iptr, ht.col, ht.row, Block.OnGrid] using hs.grid
  packHold := fun hop => by
    rw [ht.cfg] at hop
    rw [ht.holdFlips (.inl hop), ht.col, hs.colParity hop]
    exact not_congr (hs.holdv ▸ h.packHold hop)
  combineHold := fun hop => by
    rw [ht.cfg] at hop
    have hhold := h.combineHold hop
    have htaken := hs.nibbleTaken (.inl hop)
    rw [ht.holdFlips (.inr hop), ht.iptr, hs.holdv, hhold]
    simp only [htaken]
    omega
  counted := fun hop => by
    rw [ht.cfg] at hop
    have hgrow : t.dp.recordsSeen ≤ dp.recordsSeen + 1 := ht.recordsGrow hop
    have hkept : dp.recordsSeen = b.dp.recordsSeen := by simp only [Datapath.recordsSeen, hs.cnt, hs.run]
    have hcount : b.dp.recordsSeen ≤ b.dp.iptr.toNat := h.counted hop
    have htaken := hs.nibbleTaken (.inr hop)
    have hseen : t.dp.recordsSeen ≤ dp.iptr.toNat := by omega
    rw [ht.iptr]
    exact hseen

/-- A RUN step of an operation whose two stages keep their bounds. -/
theorem runStages_result {source : Block → Fetched} {sink : Token → Block → Block}
    (hphase : b.phase = .run) (ho : b.OutputInv) (hr : b.RunInv) (hsource : b.SourceAnswer (source b))
    (hsink : ∀ (tok : Token) (c : Block), c.cfg = b.cfg → c.SinkInv → c.SinkResult tok (sink tok c)) :
    b.EngineResult (runStages source sink b) := by
  generalize hf : source b = f at hsource
  cases hsource with
  | fin =>
    rw [runStages_fin hf]
    have hresult := hsink .fin b rfl ⟨ho, hr.holdUsers, hr.runUsers⟩
    generalize sink .fin b = t at hresult
    cases hresult with
    | failed code => exact .failed ho.toBuffersInv code (by simp)
    | completed output cfg => exact .completed output (by rw [cfg])
  | raised code =>
    rw [runStages_raised hf]
    exact .failed ho.toBuffersInv (by rintro rfl; simp at code) fun _ => code
  | @nib x dp advance =>
    rw [runStages_nib hf]
    have hc : ({ b with dp := dp } : Block).SinkInv :=
      ⟨ho.withDp advance.optr, by simpa only [advance.holdv] using hr.holdUsers,
        by simpa only [advance.run] using hr.runUsers⟩
    have hresult := hsink (.nib x) { b with dp := dp } rfl hc
    generalize sink (.nib x) { b with dp := dp } = t at hresult
    cases hresult with
    | failed code => exact .failed hc.output.toBuffersInv code (by simp)
    | completed output cfg => exact .completed output (by rw [cfg])
    | advanced ht => exact .runs ht.sinkInv.output (hr.advance advance ht) (ht.phase.trans hphase)

/-- The RUN step of each operation number: the two stages R14 gives it. -/
def runStep (op : OpNum) (b : Block) : Block :=
  match op.toNat with
  | 1 => runStages sourceQpad sinkCombine b
  | 2 => runStages sourceQpad sinkNib b
  | 3 => runStages sourceNib sinkCombine b
  | 4 => runStages sourceSplit sinkNib b
  | 5 => runStages sourceNib sinkRle b
  | 6 => runStages sourceNib sinkRleCount b
  | 7 => runStages sourceRuns sinkNib b
  | 8 => runStages sourceQpad sinkRle b
  | _ => b

/-- Executing the operation a number decodes to is one engine step with that number and its stages. -/
theorem exec_decodeOp (op : OpNum) (s : State) :
    exec (decodeOp op) s = .next (s.onBlock (engineStep op (runStep op))) := by
  obtain ⟨⟨n, hn⟩⟩ := op
  interval_cases n <;> rfl

theorem op_cases_of_defined {op : OpNum} : op ≠ 0 → op.toNat < 9 →
    op = 1 ∨ op = 2 ∨ op = 3 ∨ op = 4 ∨ op = 5 ∨ op = 6 ∨ op = 7 ∨ op = 8 := by
  revert op
  decide

theorem runStep_result (h : b.Inv) (hphase : b.phase = .run) : b.EngineResult (runStep b.cfg.op b) := by
  have ho := h.output (.inr hphase)
  have hr := h.running hphase
  obtain ⟨hne, hchecked⟩ := hr.checked
  rcases op_cases_of_defined hne ((startCheck_eq_none_iff ..).1 hchecked).1 with
    hop | hop | hop | hop | hop | hop | hop | hop <;> rw [hop]
  · exact runStages_result hphase ho hr (sourceQpad_answer hr (by simp [hop, usesImage]))
      fun tok c hc hi => sinkCombine_result hi (by simp [hc, hop]) tok
  · exact runStages_result hphase ho hr (sourceQpad_answer hr (by simp [hop, usesImage]))
      fun tok c hc hi => sinkNib_result hi (by simp [hc, hop]) tok
  · exact runStages_result hphase ho hr (sourceNib_answer hr (by simp [hop]))
      fun tok c hc hi => sinkCombine_result hi (by simp [hc, hop]) tok
  · exact runStages_result hphase ho hr (sourceSplit_answer hr hop)
      fun tok c hc hi => sinkNib_result hi (by simp [hc, hop]) tok
  · exact runStages_result hphase ho hr (sourceNib_answer hr (by simp [hop]))
      fun tok c hc hi => sinkRle_result hi (by simp [hc, hop]) tok
  · exact runStages_result hphase ho hr (sourceNib_answer hr (by simp [hop]))
      fun tok c hc hi => sinkRleCount_result hi (by simp [hc, hop]) tok
  · exact runStages_result hphase ho hr (sourceRuns_answer hr hop)
      fun tok c hc hi => sinkNib_result hi (by simp [hc, hop]) tok
  · exact runStages_result hphase ho hr (sourceQpad_answer hr (by simp [hop, usesImage]))
      fun tok c hc hi => sinkRle_result hi (by simp [hc, hop]) tok

/-! ### The CHECK step -/

/-- What `startCheck` finds is an error. -/
theorem startCheck_ne_noError {op : OpNum} {e : ErrCode} (h : startCheck op b = some e) : e ≠ .noError := by
  rintro rfl
  unfold startCheck at h
  split_ifs at h <;> simp at h

/-- An operation whose checks pass enters RUN with its stages at their start (R152). -/
theorem Block.RunInv.of_zero (hres : b.res = .cleared) (hdp : b.dp = .zero)
    (hop : b.cfg.op ≠ 0 ∧ startCheck b.cfg.op b = none) : ({ b with phase := .run } : Block).RunInv where
  launched := hres
  checked := hop
  iptrInInput := by simp [hdp, Datapath.zero, BitVec.le_def]
  written := by simp [hdp, Datapath.zero]
  holdUsers := by simp [hdp, Datapath.zero]
  runUsers := by simp [hdp, Datapath.zero]
  splitUser := by simp [hdp, Datapath.zero]
  grid := fun himage => by
    have hwidth := ((startCheck_eq_none_iff ..).1 hop.2).2.1 himage |>.2.1
    have hpos := BitVec.toNat_ne.1 hwidth
    simp [hdp, Datapath.zero, BitVec.le_def, paddedWidth] at *
    omega
  packHold := by simp [hdp, Datapath.zero]
  combineHold := by simp [hdp, Datapath.zero]
  counted := by simp [hdp, Datapath.zero]

theorem stepCheck_result (h : b.Inv) (hphase : b.phase = .check) :
    b.EngineResult (stepCheck b.cfg.op b) := by
  have ho := h.output (.inl hphase)
  obtain ⟨hdp, hres⟩ := h.quiet (.inr hphase)
  rcases stepCheck_cases b.cfg.op b with ⟨e, he, heq⟩ | ⟨-, -, heq⟩ | ⟨hnone, hne, heq⟩
  · rw [heq]
    exact .failed ho.toBuffersInv (startCheck_ne_noError he) (by simp)
  · have hcomplete : stepCheck b.cfg.op b =
        b.complete (BitVec.ofNat 32 (pixelCount b.cfg.width b.cfg.height)) := by
      rw [heq, Block.complete, hdp]
      rfl
    rw [hcomplete]
    exact .completed ho rfl
  · rw [heq]
    have hrun := Block.RunInv.of_zero hres hdp ⟨hne, hnone⟩
    exact .runs ⟨ho.toBuffersInv.congr rfl rfl rfl ho.optrWithin, hres, hrun.written⟩ hrun rfl

/-- What the engine step of a busy block comes to. -/
theorem engineStep_result (h : b.Inv) (hbusy : b.phase = .check ∨ b.phase = .run) :
    b.EngineResult (engineStep b.cfg.op (runStep b.cfg.op) b) := by
  rcases hbusy with hp | hp
  · rw [engineStep_check hp]
    exact stepCheck_result h hp
  · rw [engineStep_run hp]
    exact runStep_result h hp

/-! ### Commands, writes and reset -/

theorem Block.BuffersInv.launch_inv (h : b.BuffersInv) : b.launch.Inv :=
  Block.BuffersInv.inv_of_cleared (b := b.launch) (h.congr rfl rfl rfl (BitVec.le_def.2 (Nat.zero_le _))) rfl
    (fun _ => rfl) (by simp)

theorem Block.BuffersInv.clear_inv (h : b.BuffersInv) : b.clear.Inv :=
  Block.BuffersInv.inv_of_cleared (b := b.clear) (h.congr rfl rfl rfl (BitVec.le_def.2 (Nat.zero_le _))) rfl
    (fun _ => rfl) (by simp)

/-- The reset state for legal depths has the invariant (R31). -/
theorem Block.reset_inv {params : Params} (h : params.ibufDepth ≠ 0 ∧ params.obufDepth ≠ 0) (epoch : Nat) :
    (Block.reset params epoch).Inv :=
  Block.BuffersInv.inv_of_cleared
    ⟨h, .nil, .nil, by simp [Block.reset], by simp [Block.reset], BitVec.le_def.2 (Nat.zero_le _)⟩
    rfl (fun _ => rfl) (by simp [Block.reset])

/-- While the engine is not busy the invariant does not speak of the configuration, and of IBUF only with
the buffers. -/
theorem Block.Inv.of_not_busy (h : b.Inv) (hbusy : b.busy = false) (hc : c.BuffersInv)
    (hparams : c.params = b.params) (hobuf : c.obuf = b.obuf) (hphase : c.phase = b.phase)
    (hres : c.res = b.res) (hdp : c.dp = b.dp) : c.Inv where
  depthsLegal := hc.depthsLegal
  ibufWf := hc.ibufWf
  obufWf := hc.obufWf
  ibufWithin := hc.ibufWithin
  obufWithin := hc.obufWithin
  optrWithin := hc.optrWithin
  errAgrees := hres ▸ h.errAgrees
  errInDone := by simpa only [hres, hphase] using h.errInDone
  errPosUsers := hres ▸ h.errPosUsers
  outLenShown := by simpa only [hres, hphase] using h.outLenShown
  resultShown := by simpa only [hres, hphase] using h.resultShown
  outLenWithin := by simpa only [hres, hparams] using h.outLenWithin
  outValid := by simpa only [hres, hobuf] using h.outValid
  quiet := by simpa only [hphase, hdp, hres] using h.quiet
  running := fun hp => by simp [Block.busy, ← hphase, hp] at hbusy

theorem Block.Inv.start (h : b.Inv) : b.start.Inv := by
  rcases b.start_cases with ⟨-, heq⟩ | ⟨-, heq⟩ <;> rw [heq]
  · exact h
  · exact h.buffers.launch_inv

theorem Block.Inv.regWrite (h : b.Inv) (a d : Word) : (b.regWrite a d).Inv := by
  rcases b.regWrite_cases a d with ⟨-, heq | heq | heq⟩ | ⟨-, -, heq⟩ | ⟨-, hbusy, heq⟩ <;> rw [heq]
  · exact h.buffers.clear_inv
  · exact h.start
  · exact h
  · exact h
  · exact h.of_not_busy hbusy (h.buffers.congr rfl rfl rfl h.optrWithin) rfl rfl rfl rfl rfl

theorem Block.Inv.ibufWrite (h : b.Inv) (i d : Word) : (b.ibufWrite i d).Inv := by
  rcases b.ibufWrite_cases i d with heq | ⟨hi, hbusy, heq⟩ <;> rw [heq]
  · exact h
  · exact h.of_not_busy hbusy ⟨h.depthsLegal, Memory.write_wf h.ibufWf _ _, h.obufWf,
      Memory.write_within h.ibufWithin (BitVec.lt_def.1 hi) _, h.obufWithin, h.optrWithin⟩ rfl rfl rfl rfl rfl

/-! ### The step -/

theorem decodeHt_format (w : HtWord) : (decodeHt w).format = .ht := by
  unfold decodeHt
  split <;> rfl

/-- A read changes no state of the block (R45). -/
theorem exec_rdReg_blk {a d : Word} {s t : State} (h : exec (.rdReg a d) s = .next t) : t.blk = s.blk := by
  simp only [exec, execRdReg] at h
  split at h <;> cases h <;> rfl

theorem exec_rdIbuf_blk {i d : Word} {s t : State} (h : exec (.rdIbuf i d) s = .next t) : t.blk = s.blk := by
  simp only [exec, execRdIbuf] at h
  split at h <;> cases h <;> rfl

theorem exec_rdObuf_blk {i d : Word} {s t : State} (h : exec (.rdObuf i d) s = .next t) : t.blk = s.blk := by
  simp only [exec, execRdObuf] at h
  split at h <;> cases h <;> rfl

theorem State.Inv.congr {s t : State} (h : s.Inv) (hblk : t.blk = s.blk) : t.Inv := by
  unfold State.Inv
  exact hblk ▸ h

/-- Every host transaction keeps the invariant. -/
theorem State.Inv.exec_ht {s t : State} (h : s.Inv) {i : Instr} (hi : i.format = .ht)
    (hexec : exec i s = .next t) : t.Inv := by
  cases i with
  | rdReg a d => exact h.congr (exec_rdReg_blk hexec)
  | rdIbuf a d => exact h.congr (exec_rdIbuf_blk hexec)
  | rdObuf a d => exact h.congr (exec_rdObuf_blk hexec)
  | rdSpace3 a d =>
    cases hexec
    exact h
  | wrReg a d =>
    cases hexec
    exact Block.Inv.regWrite h a d
  | wrIbuf a d =>
    cases hexec
    exact Block.Inv.ibufWrite h a d
  | wrObuf a d =>
    cases hexec
    exact h
  | wrSpace3 a d =>
    cases hexec
    exact h
  | _ => simp [Instr.format] at hi

/-- So does the engine, busy or not. -/
theorem State.Inv.engineEvent {s t : State} (h : s.Inv) (hstep : engineEvent s = .next t) : t.Inv := by
  unfold Machine.engineEvent at hstep
  split at hstep
  · rename_i hbusy
    rw [exec_decodeOp] at hstep
    cases hstep
    exact (engineStep_result h ((Block.busy_iff _).1 hbusy)).inv
  · cases hstep
    exact h

theorem step_engine {s : State} {rest : List Event} (h : s.port = .engine :: rest) :
    step s = engineEvent { s with port := rest } := by simp [step, h]

theorem step_idle {s : State} (h : s.port = []) : step s = engineEvent s := by simp [step, h]

theorem step_txn {s : State} {w : HtWord} {rest : List Event} (h : s.port = .txn w :: rest) :
    step s = exec (decodeHt w) { s with port := rest } := by simp [step, h]

theorem step_reset {s : State} {rest : List Event} (h : s.port = .reset :: rest) :
    step s = .next { s with port := rest, blk := s.blk.afterReset } := by simp [step, h, State.onBlock]

theorem State.Inv.step {s t : State} (h : s.Inv) (hstep : step s = .next t) : t.Inv := by
  cases hport : s.port with
  | nil =>
    rw [step_idle hport] at hstep
    exact h.engineEvent hstep
  | cons e rest =>
    have h' : ({ s with port := rest } : State).Inv := h
    cases e with
    | txn w =>
      rw [step_txn hport] at hstep
      exact h'.exec_ht (decodeHt_format w) hstep
    | engine =>
      rw [step_engine hport] at hstep
      exact h'.engineEvent hstep
    | reset =>
      rw [step_reset hport] at hstep
      cases hstep
      exact Block.reset_inv h.depthsLegal _

/-- Settles O50: the engine's steps by what the two stages keep, the host's by what a write may reach. -/
theorem stepKeepsInvariant : Obligations.StepKeepsInvariant := by
  unfold Obligations.StepKeepsInvariant
  exact fun s t h hstep => h.step hstep

/-- Settles O49: both depths of the reset state are 65536, and its buffers are empty. -/
theorem invariantHoldsAtReset : Obligations.InvariantHoldsAtReset := by
  unfold Obligations.InvariantHoldsAtReset
  exact Block.reset_inv (by decide) 0

end Sys2Proof.Machine
end

section
/-! ## The reset state, STATUS and the engine event -/

namespace Sys2Proof.Machine

variable {b : Block}

theorem engineEvent_busy {s : State} (h : s.blk.phase = .check ∨ s.blk.phase = .run) :
    engineEvent s = exec (decodeOp s.blk.cfg.op) s := if_pos ((Block.busy_iff _).2 h)

theorem engineEvent_quiet {s : State} (h : s.blk.phase = .idle ∨ s.blk.phase = .done) :
    engineEvent s = .next s :=
  if_neg fun hb => by
    rcases (Block.busy_iff _).1 hb with hp | hp <;> simp [hp] at h

/-- Settles O6: whatever the port says, an engine step is `engineEvent`, and that asks only for PHASE. -/
theorem stepExecutesOperationInOp : Obligations.StepExecutesOperationInOp := by
  unfold Obligations.StepExecutesOperationInOp
  intro s
  refine ⟨fun rest hport hbusy => ?_, fun rest hport hquiet => ?_, fun hport hbusy => ?_,
    fun hport hquiet => ?_⟩
  · exact (step_engine hport).trans (engineEvent_busy hbusy)
  · exact (step_engine hport).trans (engineEvent_quiet hquiet)
  · exact (step_idle hport).trans (engineEvent_busy hbusy)
  · exact (step_idle hport).trans (engineEvent_quiet hquiet)

/-- An IBUF nothing has written since a reset holds the free values of that reset (U1). -/
theorem Block.reset_ibufEntry (params : Params) (epoch : Nat) (i : Word) :
    (Block.reset params epoch).ibufEntry i = Config.ibufFill epoch i.toNat := rfl

/-- No OBUF entry is valid outside DONE (R29). -/
theorem Block.obufRead_of_not_done (h : b.phase ≠ .done) (i : Word) : b.obufRead i = none :=
  if_neg fun hc => h hc.1

/-- Settles O7: the event performs `Block.afterReset`, whose fields are those of R31. -/
theorem resetEventGivesResetState : Obligations.ResetEventGivesResetState := by
  unfold Obligations.ResetEventGivesResetState
  intro s rest hport
  exact ⟨s.blk.afterReset, step_reset hport, rfl, rfl, rfl, rfl, rfl,
    Block.reset_ibufEntry _ _, Block.obufRead_of_not_done (by simp)⟩

theorem State.reset_regRead {a : Word} (ha : a.toNat < 16) :
    State.reset.blk.regRead a = some (if a = 4 then 1 else 0) := by
  obtain ⟨⟨n, hn⟩⟩ := a
  replace ha : n < 16 := ha
  interval_cases n <;> rfl

/-- Settles O8: the sixteen registers one by one, everything else for all indices at once. -/
theorem resetStateHasTheSpecsValues : Obligations.ResetStateHasTheSpecsValues := by
  unfold Obligations.ResetStateHasTheSpecsValues
  exact ⟨rfl, fun _ => State.reset_regRead, rfl, rfl,
    Block.obufRead_of_not_done (by decide), Block.reset_ibufEntry _ 0⟩

/-! ### STATUS -/

theorem Block.isDone_iff (b : Block) : b.isDone = true ↔ b.phase = .done := by
  unfold Block.isDone
  cases b.phase <;> simp

/-- STATUS as a word: the three status bits in bits [2:0] and nothing above them (R22). -/
theorem Block.status_bits (b : Block) :
    (b.status.setWidth 32).getLsbD 0 = b.busy ∧ (b.status.setWidth 32).getLsbD 1 = b.isDone ∧
    (b.status.setWidth 32).getLsbD 2 = b.res.err ∧ (b.status.setWidth 32).toNat < 8 := by
  unfold Block.status
  cases b.busy <;> cases b.isDone <;> cases b.res.err <;> decide

/-- Settles O52: each bit is one of the three status lines, and the invariant says what ERR goes with. -/
theorem statusReflectsPhase : Obligations.StatusReflectsPhase := by
  unfold Obligations.StatusReflectsPhase
  intro s t d h hexec
  obtain ⟨hbusy, hdone, herr, hlt⟩ := s.blk.status_bits
  have hread : t.hRdata = s.blk.status.setWidth 32 := by
    cases hexec
    rfl
  rw [hread, hbusy, hdone, herr]
  exact ⟨s.blk.busy_iff, s.blk.isDone_iff, h.errAgrees, fun he => s.blk.isDone_iff.2 (h.errInDone he), hlt, rfl⟩

/-! ### The output of a completed operation -/

/-- What `elementTyped` says of a byte's value (R63, R64). -/
theorem elementTyped_toNat {op : OpNum} {v : Byte} (h : elementTyped op v) :
    (op = 2 ∨ op = 4 ∨ op = 7 → v.toNat ≤ 15) ∧ (op = 5 ∨ op = 8 → v.toNat % 16 ≠ 0) :=
  ⟨fun hop => (highNibble_eq_zero_iff v).1 (h.1 hop), fun hop => by
    rw [← lowNibble_toNat]
    exact BitVec.toNat_ne.1 (h.2 hop)⟩

/-- Settles O51: of the three things an engine step can make of a busy block only completion shows DONE
without an error, and then OUT_LEN is OPTR. -/
theorem completedOutputIsTyped : Obligations.CompletedOutputIsTyped := by
  unfold Obligations.CompletedOutputIsTyped
  intro s t h hbusy hexec hdone herr i hi
  rw [exec_decodeOp] at hexec
  cases hexec
  have hresult := engineStep_result h hbusy
  simp only [State.onBlock_blk] at hdone herr hi ⊢
  generalize engineStep s.blk.cfg.op (runStep s.blk.cfg.op) s.blk = c at *
  cases hresult with
  | failed buffers code position => simp at herr
  | runs output running phase => simp [phase] at hdone
  | completed output op =>
    obtain ⟨v, hread, htyped⟩ := output.written i.toNat (BitVec.lt_def.1 hi)
    exact ⟨v, (if_pos ⟨hdone, herr, hi⟩).trans hread, elementTyped_toNat (op ▸ htyped)⟩

end Sys2Proof.Machine
end

section
/-! ## Frames: what the engine and the host leave unchanged -/

namespace Sys2Proof.Machine

variable {b c d : Block}

/-! ### The stages -/

/-- `c` has the configuration, the parameters and both buffers of `b`: only PHASE, the results and the
datapath may differ. -/
structure Block.StoreFrame (b c : Block) : Prop where
  cfg : c.cfg = b.cfg := by rfl
  params : c.params = b.params := by rfl
  ibuf : c.ibuf = b.ibuf := by rfl
  ibufEpoch : c.ibufEpoch = b.ibufEpoch := by rfl
  obuf : c.obuf = b.obuf := by rfl

/-- At most one element has been written, at OPTR of `b` (R47). -/
def Block.EmitFrame (b c : Block) : Prop := b.StoreFrame c ∨ ∃ v, (b.push v).StoreFrame c

theorem Block.StoreFrame.trans (h : b.StoreFrame c) (h' : c.StoreFrame d) : b.StoreFrame d :=
  ⟨h'.cfg.trans h.cfg, h'.params.trans h.params, h'.ibuf.trans h.ibuf, h'.ibufEpoch.trans h.ibufEpoch,
    h'.obuf.trans h.obuf⟩

theorem Block.StoreFrame.push (h : b.StoreFrame c) (hoptr : c.dp.optr = b.dp.optr) (v : Byte) :
    (b.push v).StoreFrame (c.push v) :=
  ⟨h.cfg, h.params, h.ibuf, h.ibufEpoch, by simp [h.obuf, hoptr]⟩

theorem Block.emit_frame (v : Byte) {k : Block → Block} (hk : ∀ d : Block, d.StoreFrame (k d)) (b : Block) :
    b.EmitFrame (b.emit v k) := by
  rcases b.emit_cases v k with ⟨-, heq⟩ | ⟨-, heq⟩ <;> rw [heq]
  · exact .inl {}
  · exact .inr ⟨v, hk _⟩

theorem sinkNib_frame (tok : Token) (b : Block) : b.EmitFrame (sinkNib tok b) := by
  cases tok with
  | nib x => exact Block.emit_frame _ (fun _ => {}) b
  | fin => exact .inl {}

theorem sinkCombine_frame (tok : Token) (b : Block) : b.EmitFrame (sinkCombine tok b) := by
  cases tok with
  | nib x =>
    simp only [sinkCombine]
    split
    · exact Block.emit_frame _ (fun _ => {}) b
    · exact .inl {}
  | fin =>
    simp only [sinkCombine]
    split <;> exact .inl {}

theorem sinkRle_frame (tok : Token) (b : Block) : b.EmitFrame (sinkRle tok b) := by
  cases tok with
  | nib x =>
    simp only [sinkRle]
    split
    · exact .inl {}
    · split
      · exact .inl {}
      · exact Block.emit_frame _ (fun _ => {}) b
  | fin =>
    simp only [sinkRle]
    split
    · exact .inl {}
    · exact Block.emit_frame _ (fun _ => {}) b

/-- The counting sink writes nothing (R113). -/
theorem sinkRleCount_frame (tok : Token) (b : Block) : b.StoreFrame (sinkRleCount tok b) := by
  cases tok with
  | nib x =>
    simp only [sinkRleCount]
    split
    · exact {}
    · split <;> exact {}
  | fin =>
    simp only [sinkRleCount]
    split <;> exact {}

/-- A source stage reads the buffers and moves its own registers (R92 to R94, R114). -/
def Fetched.KeepsStore (b : Block) : Fetched → Prop
  | .nib _ c => b.StoreFrame c ∧ c.dp.optr = b.dp.optr
  | .fin => True
  | .raised _ _ => True

theorem takeSample_keepsStore (v : Byte) (b : Block) : (takeSample v b).KeepsStore b := by
  unfold takeSample
  rw [advanceColumn_eq]
  exact ⟨{}, rfl⟩

theorem takeNibble_keepsStore (n : Nibble) (b : Block) : (takeNibble n b).KeepsStore b := ⟨{}, rfl⟩

theorem takePackedByte_keepsStore (hi lo : Nibble) (b : Block) : (takePackedByte hi lo b).KeepsStore b := by
  unfold takePackedByte
  split <;> exact ⟨{}, rfl⟩

theorem takeRunRecord_keepsStore (value length : Nibble) (b : Block) :
    (takeRunRecord value length b).KeepsStore b := by
  unfold takeRunRecord
  split
  · trivial
  · exact ⟨{}, rfl⟩

theorem sourceQpad_keepsStore (b : Block) : (sourceQpad b).KeepsStore b := by
  by_cases hrow : b.dp.row = b.cfg.height
  · rw [sourceQpad_fin hrow]
    trivial
  · rw [sourceQpad_nib hrow]
    exact ⟨{}, rfl⟩

theorem sourceNib_keepsStore (b : Block) : (sourceNib b).KeepsStore b := by
  unfold sourceNib
  split
  · trivial
  · split
    · exact takeNibble_keepsStore _ b
    · trivial

theorem sourceSplit_keepsStore (b : Block) : (sourceSplit b).KeepsStore b := by
  unfold sourceSplit
  split
  · trivial
  · exact takePackedByte_keepsStore _ _ b

theorem sourceRuns_keepsStore (b : Block) : (sourceRuns b).KeepsStore b := by
  unfold sourceRuns
  split
  · split
    · trivial
    · exact takeRunRecord_keepsStore _ _ b
  · exact ⟨{}, rfl⟩

/-- The source leaves OPTR, so what the sink emits goes to the OPTR of the step's start. -/
theorem feed_frame {sink : Token → Block → Block} {f : Fetched} (hf : f.KeepsStore b)
    (hsink : ∀ (tok : Token) (c : Block), c.EmitFrame (sink tok c)) : b.EmitFrame (feed sink b f) := by
  cases f with
  | nib x c =>
    obtain ⟨hstore, hoptr⟩ := hf
    rcases hsink (.nib x) c with h | ⟨v, h⟩
    · exact .inl (hstore.trans h)
    · exact .inr ⟨v, (hstore.push hoptr v).trans h⟩
  | fin => exact hsink .fin b
  | raised e pos => exact .inl {}

theorem feed_storeFrame {sink : Token → Block → Block} {f : Fetched} (hf : f.KeepsStore b)
    (hsink : ∀ (tok : Token) (c : Block), c.StoreFrame (sink tok c)) : b.StoreFrame (feed sink b f) := by
  cases f with
  | nib x c => exact hf.1.trans (hsink (.nib x) c)
  | fin => exact hsink .fin b
  | raised e pos => exact {}

/-! ### Operations -/

theorem stepCheck_frame (op : OpNum) (b : Block) : b.StoreFrame (stepCheck op b) := by
  rcases stepCheck_cases op b with ⟨e, -, heq⟩ | ⟨-, -, heq⟩ | ⟨-, -, heq⟩ <;> rw [heq] <;> exact {}

theorem runStep_frame (op : OpNum) (b : Block) : b.EmitFrame (runStep op b) := by
  unfold runStep
  split
  · exact feed_frame (sourceQpad_keepsStore b) sinkCombine_frame
  · exact feed_frame (sourceQpad_keepsStore b) sinkNib_frame
  · exact feed_frame (sourceNib_keepsStore b) sinkCombine_frame
  · exact feed_frame (sourceSplit_keepsStore b) sinkNib_frame
  · exact feed_frame (sourceNib_keepsStore b) sinkRle_frame
  · exact .inl (feed_storeFrame (sourceNib_keepsStore b) sinkRleCount_frame)
  · exact feed_frame (sourceRuns_keepsStore b) sinkNib_frame
  · exact feed_frame (sourceQpad_keepsStore b) sinkRle_frame
  · exact .inl {}

/-- PIXCNT, ENCLEN and the reserved numbers have no sink that writes. -/
theorem runStep_storeFrame {op : OpNum} (hop : op = 0 ∨ op = 6 ∨ 9 ≤ op.toNat) (b : Block) :
    b.StoreFrame (runStep op b) := by
  rcases hop with rfl | rfl | hop
  · exact {}
  · exact feed_storeFrame (sourceNib_keepsStore b) sinkRleCount_frame
  · unfold runStep
    split
    case h_9 => exact {}
    all_goals omega

theorem engineStep_frame (op : OpNum) {run : Block → Block} (hrun : b.EmitFrame (run b)) :
    b.EmitFrame (engineStep op run b) := by
  unfold engineStep
  split
  · exact .inl {}
  · exact .inl (stepCheck_frame op b)
  · exact hrun
  · exact .inl {}

theorem engineStep_storeFrame (op : OpNum) {run : Block → Block} (hrun : b.StoreFrame (run b)) :
    b.StoreFrame (engineStep op run b) := by
  unfold engineStep
  split
  · exact {}
  · exact stepCheck_frame op b
  · exact hrun
  · exact {}

/-! ### Data elements -/

theorem consumeSample_frame (v : Byte) (b : Block) : b.EmitFrame (b.consumeSample v) := by
  have hf := takeSample_keepsStore v b
  unfold Block.consumeSample
  split
  · split
    · exact feed_frame hf sinkCombine_frame
    · exact feed_frame hf sinkNib_frame
    · exact feed_frame hf sinkRle_frame
    · exact .inl {}
  · exact .inl {}

theorem consumePackedByte_frame (hi lo : Nibble) (b : Block) :
    b.EmitFrame (b.consumePackedByte hi lo) := by
  unfold Block.consumePackedByte
  split
  · exact feed_frame (takePackedByte_keepsStore hi lo b) sinkNib_frame
  · exact .inl {}

theorem consumeRunRecord_frame (value length : Nibble) (b : Block) :
    b.EmitFrame (b.consumeRunRecord value length) := by
  unfold Block.consumeRunRecord
  split
  · exact feed_frame (takeRunRecord_keepsStore value length b) sinkNib_frame
  · exact .inl {}

theorem consumeNibble_frame (n : Nibble) (b : Block) : b.EmitFrame (b.consumeNibble n) := by
  have hf := takeNibble_keepsStore n b
  unfold Block.consumeNibble
  split
  · split
    · exact feed_frame hf sinkCombine_frame
    · exact feed_frame hf sinkRle_frame
    · exact .inl (feed_storeFrame hf sinkRleCount_frame)
    · exact .inl {}
  · exact .inl {}

theorem eq_decodeOp_of_format_op {i : Instr} (h : i.format = .op) : ∃ op, i = decodeOp op := by
  refine ⟨BitVec.ofNat 4 (encode i), ?_⟩
  cases i <;> simp [Instr.format] at h <;> rfl

theorem decodeOp_writes_nothing {op : OpNum}
    (h : decodeOp op = .pixcnt ∨ decodeOp op = .enclen ∨ 9 ≤ encode (decodeOp op)) :
    op = 0 ∨ op = 6 ∨ 9 ≤ op.toNat := by
  revert op
  decide

/-- What the frame of one emitted element says of the OBUF entries. -/
theorem Block.EmitFrame.frame (h : b.EmitFrame c) :
    c.cfg = b.cfg ∧ c.ibuf = b.ibuf ∧ c.ibufEpoch = b.ibufEpoch ∧ c.params = b.params ∧
    ∀ a, a ≠ b.dp.optr.toNat → c.obuf.read? a = b.obuf.read? a := by
  rcases h with h | ⟨v, h⟩
  · exact ⟨h.cfg, h.ibuf, h.ibufEpoch, h.params, fun a _ => by rw [h.obuf]⟩
  · refine ⟨h.cfg, h.ibuf, h.ibufEpoch, h.params, fun a ha => ?_⟩
    rw [h.obuf, Block.push_obuf, Memory.read?_write_ne _ v ha]

/-- Settles O57: an operation is an engine step of its two stages, and a data element is fed to a sink. -/
theorem engineStepsChangeOnlyEngineState : Obligations.EngineStepsChangeOnlyEngineState := by
  unfold Obligations.EngineStepsChangeOnlyEngineState
  intro s i hht hctrl
  suffices h : ∃ f : Block → Block, exec i s = .next (s.onBlock f) ∧ s.blk.EmitFrame (f s.blk) ∧
      ((i = .pixcnt ∨ i = .enclen ∨ 9 ≤ encode i ∧ i.format = .op) → s.blk.StoreFrame (f s.blk)) by
    obtain ⟨f, hexec, hemit, hstore⟩ := h
    obtain ⟨hcfg, hibuf, hepoch, hparams, hobuf⟩ := hemit.frame
    exact ⟨f s.blk, hexec, hcfg, hibuf, hepoch, hparams, hobuf, fun hi => (hstore hi).obuf⟩
  by_cases hop : i.format = .op
  · obtain ⟨op, rfl⟩ := eq_decodeOp_of_format_op hop
    refine ⟨_, exec_decodeOp op s, engineStep_frame op (runStep_frame op _), fun hi => ?_⟩
    exact engineStep_storeFrame op
      (runStep_storeFrame (decodeOp_writes_nothing (hi.imp id (Or.imp id And.left))) _)
  cases i with
  | sample v => exact ⟨_, rfl, consumeSample_frame v _, by simp [hop]⟩
  | packedByte hi lo => exact ⟨_, rfl, consumePackedByte_frame hi lo _, by simp [hop]⟩
  | runRecord value length => exact ⟨_, rfl, consumeRunRecord_frame value length _, by simp [hop]⟩
  | nibble n => exact ⟨_, rfl, consumeNibble_frame n _, by simp [hop]⟩
  | _ => simp [Instr.format] at *

/-! ### Commands and writes -/

/-- A configuration write stores only at the register numbers 1 to 5 (R143). -/
theorem ConfigRegs.write_of_no_register (c : ConfigRegs) {a : Word} (d : Word)
    (h : a.toNat = 0 ∨ 5 < a.toNat) : c.write a d = c := by
  unfold ConfigRegs.write
  split
  case h_6 => rfl
  all_goals omega

theorem Block.start_frame (b : Block) : b.StoreFrame b.start := by
  rcases b.start_cases with ⟨-, heq⟩ | ⟨-, heq⟩ <;> rw [heq] <;> exact {}

/-- A register write changes no buffer; only a configuration register changes the configuration, and only
CTRL anything else. -/
theorem Block.regWrite_frame (a d : Word) (b : Block) :
    (b.regWrite a d).obuf = b.obuf ∧ (b.regWrite a d).ibuf = b.ibuf ∧
    (b.regWrite a d).params = b.params ∧ (b.regWrite a d).ibufEpoch = b.ibufEpoch ∧
    (a.toNat = 0 ∨ 5 < a.toNat → (b.regWrite a d).cfg = b.cfg) ∧
    (a ≠ 0 → (b.regWrite a d).phase = b.phase ∧ (b.regWrite a d).res = b.res ∧
      (b.regWrite a d).dp = b.dp) := by
  rcases b.regWrite_cases a d with ⟨h0, hctrl⟩ | ⟨-, -, heq⟩ | ⟨-, -, heq⟩
  · have h : b.StoreFrame (b.regWrite a d) := by
      rcases hctrl with heq | heq | heq <;> rw [heq]
      · exact {}
      · exact b.start_frame
      · exact {}
    exact ⟨h.obuf, h.ibuf, h.params, h.ibufEpoch, fun _ => h.cfg, fun hne => absurd h0 hne⟩
  · rw [heq]
    exact ⟨rfl, rfl, rfl, rfl, fun _ => rfl, fun _ => ⟨rfl, rfl, rfl⟩⟩
  · rw [heq]
    exact ⟨rfl, rfl, rfl, rfl, b.cfg.write_of_no_register d, fun _ => ⟨rfl, rfl, rfl⟩⟩

/-- An IBUF write changes at most the entry it names. -/
theorem Block.ibufWrite_frame (i d : Word) (b : Block) :
    ∃ m : Memory, b.ibufWrite i d = { b with ibuf := m } ∧ ∀ k, k ≠ i.toNat → m.read? k = b.ibuf.read? k := by
  rcases b.ibufWrite_cases i d with heq | ⟨-, -, heq⟩
  · exact ⟨b.ibuf, heq, fun _ _ => rfl⟩
  · exact ⟨_, heq, fun k hk => Memory.read?_write_ne _ _ hk⟩

/-- Settles O58: the commands change no buffer and no configuration, a register write only its register,
an IBUF write only its entry, and the other writes nothing. -/
theorem hostWritesChangeOnlyTheirTarget : Obligations.HostWritesChangeOnlyTheirTarget := by
  unfold Obligations.HostWritesChangeOnlyTheirTarget
  intro s a d i hi
  simp only [List.mem_cons, List.not_mem_nil, or_false] at hi
  rcases hi with rfl | rfl | rfl | rfl | rfl | rfl | rfl | rfl
  · exact ⟨s.blk, rfl, rfl, rfl, rfl, fun _ => rfl, fun _ => rfl, fun _ _ => rfl, fun _ => ⟨rfl, rfl, rfl⟩⟩
  · have h := s.blk.start_frame
    exact ⟨s.blk.start, rfl, h.obuf, h.params, h.ibufEpoch, fun _ => h.cfg, fun _ => h.ibuf,
      fun _ _ => by rw [h.ibuf], by simp⟩
  · exact ⟨s.blk.clear, rfl, rfl, rfl, rfl, fun _ => rfl, fun _ => rfl, fun _ _ => rfl, by simp⟩
  · exact ⟨s.blk.clear, rfl, rfl, rfl, rfl, fun _ => rfl, fun _ => rfl, fun _ _ => rfl, by simp⟩
  · obtain ⟨hobuf, hibuf, hparams, hepoch, hcfg, hrest⟩ := s.blk.regWrite_frame a d
    exact ⟨s.blk.regWrite a d, rfl, hobuf, hparams, hepoch, fun h => hcfg (by simpa using h), fun _ => hibuf,
      fun _ _ => by rw [hibuf], fun h => hrest (by simpa using h)⟩
  · obtain ⟨m, heq, hothers⟩ := s.blk.ibufWrite_frame a d
    have hexec : exec (.wrIbuf a d) s = .next { s with blk := { s.blk with ibuf := m } } := by
      rw [← heq]
      rfl
    exact ⟨{ s.blk with ibuf := m }, hexec, rfl, rfl, rfl, fun _ => rfl, fun h => absurd rfl h, hothers,
      fun _ => ⟨rfl, rfl, rfl⟩⟩
  · exact ⟨s.blk, rfl, rfl, rfl, rfl, fun _ => rfl, fun _ => rfl, fun _ _ => rfl, fun _ => ⟨rfl, rfl, rfl⟩⟩
  · exact ⟨s.blk, rfl, rfl, rfl, rfl, fun _ => rfl, fun _ => rfl, fun _ _ => rfl, fun _ => ⟨rfl, rfl, rfl⟩⟩

end Sys2Proof.Machine
end

section
/-! ## Reads: what the four read transactions answer -/

namespace Sys2Proof.Machine

/-- `o` delivers some read data in `s`: beside `h_rdata` only the count of the free values drawn may differ,
so the block and the events to come are those of `s` (R45). -/
def State.AnswersRead (s : State) (o : Host.Outcome State Fault Refusal) : Prop :=
  ∃ v n, o = .next { s with hRdata := v, draws := n }

theorem State.answersRead_deliver (s : State) (v : Word) : s.AnswersRead (.next (s.deliver v)) :=
  ⟨v, s.draws, rfl⟩

theorem State.answersRead_deliverFree (s : State) : s.AnswersRead (.next s.deliverFree) :=
  ⟨_, _, rfl⟩

theorem State.answersRead_deliverFreeByte (s : State) : s.AnswersRead (.next s.deliverFreeByte) :=
  ⟨_, _, rfl⟩

/-- A register number of the map delivers its value, any other a free one (R142). -/
theorem execRdReg_answersRead (a d : Word) (s : State) : s.AnswersRead (execRdReg a d s) := by
  unfold execRdReg
  split
  · exact s.answersRead_deliver _
  · exact s.answersRead_deliverFree

/-- Within the depth the entry is delivered, beyond it a free byte (R144). -/
theorem execRdIbuf_answersRead (i d : Word) (s : State) : s.AnswersRead (execRdIbuf i d s) := by
  unfold execRdIbuf
  split
  · exact s.answersRead_deliver _
  · exact s.answersRead_deliverFreeByte

/-- A valid entry is delivered, for any other a free byte (R29, R144). -/
theorem execRdObuf_answersRead (i d : Word) (s : State) : s.AnswersRead (execRdObuf i d s) := by
  unfold execRdObuf
  split
  · exact s.answersRead_deliver _
  · exact s.answersRead_deliverFreeByte

theorem execRdSpace3_answersRead (a d : Word) (s : State) : s.AnswersRead (execRdSpace3 a d s) :=
  s.answersRead_deliverFree

/-- Settles O11: each of the four reads delivers read data (`State.AnswersRead`), and none of their meanings
mentions its data operand, so the answers for two data words are one by definition. -/
theorem readsChangeNoBlockState : Obligations.ReadsChangeNoBlockState := by
  unfold Obligations.ReadsChangeNoBlockState
  intro s a d d' rd hrd
  simp only [List.mem_cons, List.not_mem_nil, or_false] at hrd
  suffices h : s.AnswersRead (exec (rd a d) s) ∧ exec (rd a d') s = exec (rd a d) s by
    obtain ⟨⟨v, n, hexec⟩, hdata⟩ := h
    exact ⟨v, n, hexec, hdata⟩
  rcases hrd with rfl | rfl | rfl | rfl
  · exact ⟨execRdReg_answersRead a d s, rfl⟩
  · exact ⟨execRdIbuf_answersRead a d s, rfl⟩
  · exact ⟨execRdObuf_answersRead a d s, rfl⟩
  · exact ⟨execRdSpace3_answersRead a d s, rfl⟩

end Sys2Proof.Machine
end

section
/-! ## Encodings: the decoder and the encoder are inverse -/

namespace Sys2Proof

/-! ### The decoder on words of each format's width -/

theorem decode_ht (w : HtWord) : decode .ht w.toNat = .ok (decodeHt w) := by
  simp [decode, Format.width, w.isLt]

theorem decode_sample (v : Byte) : decode .sample v.toNat = .ok (.sample v) := by
  simp [decode, Format.width, v.isLt]

theorem decode_packedByte (v : Byte) :
    decode .packedByte v.toNat = .ok (.packedByte (highNibble v) (lowNibble v)) := by
  simp [decode, Format.width, v.isLt]

theorem decode_runRecord (v : Byte) :
    decode .runRecord v.toNat =
      if lowNibble v = 0 then .error .zeroRunLength else .ok (.runRecord (highNibble v) (lowNibble v)) := by
  simp only [decode, Format.width, v.isLt, if_true, BitVec.ofNat_toNat, BitVec.setWidth_eq, decodeRunRecord]
  split <;> rfl

theorem decode_nibble (v : Byte) :
    decode .nibble v.toNat =
      if highNibble v = 0 then .ok (.nibble (lowNibble v)) else .error .nibbleAbove15 := by
  simp only [decode, Format.width, v.isLt, if_true, BitVec.ofNat_toNat, BitVec.setWidth_eq, decodeNibble]
  split <;> rfl

/-! ### Transactions -/

theorem wellFormed_of_format_ht {i : Instr} (h : i.format = .ht) : WellFormed i = true := by
  cases i <;> simp [Instr.format] at h <;> rfl

/-- The kind bits choose the transaction, and the encoder of the one chosen puts the same bits back. -/
theorem encode_decodeHt_htWord (k : BitVec 3) (a d : Word) :
    encode (decodeHt (htWord k a d)) = (htWord k a d).toNat := by
  simp only [decodeHt, htKind_htWord, htAddr_htWord, htData_htWord]
  obtain ⟨⟨n, hn⟩⟩ := k
  interval_cases n <;> rfl

/-- A transaction is read back from a word with its kind bits, its address and its data. -/
theorem decode_encode_ht {i : Instr} (h : i.format = .ht) : decode .ht (encode i) = .ok i := by
  cases i <;> simp only [Instr.format, reduceCtorEq] at h <;> simp [encode, decode_ht, decodeHt]

/-- Settles O2: a word is put together from its fields (`htWord_fields`), and so is the word of its decoding. -/
theorem transactionWordIsWordOfItsDecoding : Obligations.TransactionWordIsWordOfItsDecoding := by
  unfold Obligations.TransactionWordIsWordOfItsDecoding
  intro w
  have hformat := Machine.decodeHt_format w
  refine ⟨hformat, wellFormed_of_format_ht hformat, ?_⟩
  simpa only [htWord_fields] using encode_decodeHt_htWord (htKind w) (htAddr w) (htData w)

/-! ### Data elements -/

/-- A nibble stands in a byte with bits [7:4] zero (R64). -/
theorem toNat_setWidth_byte (n : Nibble) : (n.setWidth 8).toNat = n.toNat :=
  (BitVec.toNat_setWidth 8 n).trans (Nat.mod_eq_of_lt (by omega))

@[simp] theorem lowNibble_setWidth (n : Nibble) : lowNibble (n.setWidth 8) = n := by
  revert n; decide

theorem decode_encode_packedByte (hi lo : Nibble) :
    decode .packedByte (encode (.packedByte hi lo)) = .ok (.packedByte hi lo) := by
  simp [encode, decode_packedByte]

theorem decode_encode_runRecord (value : Nibble) {length : Nibble} (h : length ≠ 0) :
    decode .runRecord (encode (.runRecord value length)) = .ok (.runRecord value length) := by
  rw [encode, decode_runRecord, lowNibble_combineNibbles, if_neg h, highNibble_combineNibbles]

theorem decode_encode_nibble (n : Nibble) : decode .nibble (encode (.nibble n)) = .ok (.nibble n) := by
  rw [encode, ← toNat_setWidth_byte, decode_nibble, if_pos (highNibble_setWidth n), lowNibble_setWidth]

/-- Settles O1: an operation or a command has one fixed word, a transaction and a data element are read back
from the fields of theirs. -/
theorem decodeOfEncodeIsIdentity : Obligations.DecodeOfEncodeIsIdentity := by
  unfold Obligations.DecodeOfEncodeIsIdentity
  intro i hwf
  by_cases hht : i.format = .ht
  · rw [hht]
    exact decode_encode_ht hht
  cases i with
  | sample s => exact decode_sample s
  | packedByte hi lo => exact decode_encode_packedByte hi lo
  | runRecord value length => exact decode_encode_runRecord value (by simpa [WellFormed] using hwf)
  | nibble n => exact decode_encode_nibble n
  | rdReg | rdIbuf | rdObuf | rdSpace3 | wrReg | wrIbuf | wrObuf | wrSpace3 => exact absurd rfl hht
  | _ => rfl

/-- Settles O3: each word is a literal, and the decoder computes its instruction. -/
theorem specWordsDecodeAsWritten : Obligations.SpecWordsDecodeAsWritten := by
  unfold Obligations.SpecWordsDecodeAsWritten
  exact ⟨rfl, rfl, rfl, rfl, rfl, rfl, rfl, rfl, rfl, rfl⟩

/-- The fields of a byte as quotient and remainder by 16. -/
theorem highNibble_eq_ofNat (b : Byte) : highNibble b = BitVec.ofNat 4 (b.toNat / 16) := by
  rw [← highNibble_toNat, BitVec.ofNat_toNat, BitVec.setWidth_eq]

theorem lowNibble_eq_ofNat (b : Byte) : lowNibble b = BitVec.ofNat 4 (b.toNat % 16) := by
  rw [← lowNibble_toNat, BitVec.ofNat_toNat, BitVec.setWidth_eq]

theorem lowNibble_eq_zero_iff (b : Byte) : lowNibble b = 0 ↔ b.toNat % 16 = 0 := by
  rw [← lowNibble_toNat]
  exact BitVec.toNat_inj.symm

/-- Settles O4: the decoder asks for the low nibble of a run record and the high nibble of a nibble element,
which are the remainder and the quotient of the byte by 16. -/
theorem illegalElementsAreRejectedByName : Obligations.IllegalElementsAreRejectedByName := by
  unfold Obligations.IllegalElementsAreRejectedByName
  intro b
  constructor
  · simp only [decode_runRecord, lowNibble_eq_zero_iff, ← highNibble_eq_ofNat, ← lowNibble_eq_ofNat]
  · rw [decode_nibble]
    by_cases hbig : 15 < b.toNat
    · rw [if_pos hbig, if_neg fun h => Nat.not_le.2 hbig ((highNibble_eq_zero_iff b).1 h)]
    · have hsmall := Nat.le_of_not_lt hbig
      rw [if_neg hbig, if_pos ((highNibble_eq_zero_iff b).2 hsmall), lowNibble_eq_ofNat,
        Nat.mod_eq_of_lt (by omega)]

end Sys2Proof
end

section
/-! ## Data elements: the RUN step that takes one is its meaning -/

namespace Sys2Proof.Machine

variable {b : Block}

/-! ### The stages of an operation -/

/-- The sink stage R14 gives each operation number; those without a RUN step have none. -/
def sinkStage (op : OpNum) : Token → Block → Block :=
  match op.toNat with
  | 1 => sinkCombine
  | 2 => sinkNib
  | 3 => sinkCombine
  | 4 => sinkNib
  | 5 => sinkRle
  | 6 => sinkRleCount
  | 7 => sinkNib
  | 8 => sinkRle
  | _ => fun _ b => b

theorem runStep_image {op : OpNum} (hop : op = 1 ∨ op = 2 ∨ op = 8) :
    runStep op = runStages sourceQpad (sinkStage op) := by
  rcases hop with rfl | rfl | rfl <;> rfl

theorem runStep_nibbles {op : OpNum} (hop : op = 3 ∨ op = 5 ∨ op = 6) :
    runStep op = runStages sourceNib (sinkStage op) := by
  rcases hop with rfl | rfl | rfl <;> rfl

theorem runStep_unpack : runStep 4 = runStages sourceSplit sinkNib := rfl

theorem runStep_decode : runStep 7 = runStages sourceRuns sinkNib := rfl

/-- While an operation is in RUN, the number in OP executes as the RUN step of that operation. -/
theorem exec_decodeOp_run {s : State} (hphase : s.blk.phase = .run) :
    exec (decodeOp s.blk.cfg.op) s = .next { s with blk := runStep s.blk.cfg.op s.blk } := by
  rw [exec_decodeOp, State.onBlock, engineStep_run hphase]

/-! ### What an element is consumed as -/

theorem takeSample_eq (v : Byte) (hcol : b.dp.col < b.cfg.width) :
    takeSample v b = .nib (quantize v) { b with dp := b.afterGridNibble } := by
  unfold takeSample Block.afterGridNibble
  rw [advanceColumn_eq, if_pos hcol]

theorem takePackedByte_high (hi lo : Nibble) (hsph : b.dp.sph = false) :
    takePackedByte hi lo b = .nib hi { b with dp := { b.dp with sph := true } } :=
  if_neg (by simp [hsph])

theorem takePackedByte_low (hi lo : Nibble) (hsph : b.dp.sph = true) :
    takePackedByte hi lo b =
      .nib lo { b with dp := { b.dp with sph := false, iptr := b.dp.iptr + 1 } } := if_pos hsph

theorem takeRunRecord_nib (value : Nibble) {length : Nibble} (hlen : length ≠ 0) :
    takeRunRecord value length b =
      .nib value { b with dp := { b.dp with iptr := b.dp.iptr + 1, dval := value, rep := length - 1 } } :=
  if_neg hlen

theorem takeRunRecord_raised (value : Nibble) {length : Nibble} (hlen : length = 0) :
    takeRunRecord value length b = .raised .malformedStream b.dp.iptr := if_pos hlen

theorem Block.consumeSample_eq (v : Byte) (hphase : b.phase = .run)
    (hop : b.cfg.op = 1 ∨ b.cfg.op = 2 ∨ b.cfg.op = 8) (hrow : b.dp.row ≠ b.cfg.height)
    (hcol : b.dp.col < b.cfg.width) :
    b.consumeSample v = feed (sinkStage b.cfg.op) b (takeSample v b) := by
  rw [Block.consumeSample, if_pos ⟨hphase, hrow, hcol⟩]
  rcases hop with hop | hop | hop <;> rw [hop] <;> rfl

theorem Block.consumePackedByte_eq (hi lo : Nibble) (hphase : b.phase = .run) (hop : b.cfg.op = 4)
    (htakes : b.dp.sph = true ∨ b.dp.iptr ≠ b.cfg.inLen) :
    b.consumePackedByte hi lo = feed sinkNib b (takePackedByte hi lo b) := if_pos ⟨hphase, hop, htakes⟩

theorem Block.consumeRunRecord_eq (value length : Nibble) (hphase : b.phase = .run) (hop : b.cfg.op = 7)
    (hrep : b.dp.rep = 0) (hend : b.dp.iptr ≠ b.cfg.inLen) :
    b.consumeRunRecord value length = feed sinkNib b (takeRunRecord value length b) :=
  if_pos ⟨hphase, hop, hrep, hend⟩

theorem Block.consumeNibble_eq (n : Nibble) (hphase : b.phase = .run)
    (hop : b.cfg.op = 3 ∨ b.cfg.op = 5 ∨ b.cfg.op = 6) (hend : b.dp.iptr ≠ b.cfg.inLen) :
    b.consumeNibble n = feed (sinkStage b.cfg.op) b (takeNibble n b) := by
  rw [Block.consumeNibble, if_pos ⟨hphase, hend⟩]
  rcases hop with hop | hop | hop <;> rw [hop] <;> rfl

theorem exec_sample (v : Byte) (s : State) :
    exec (.sample v) s = .next { s with blk := s.blk.consumeSample v } := rfl

theorem exec_packedByte (hi lo : Nibble) (s : State) :
    exec (.packedByte hi lo) s = .next { s with blk := s.blk.consumePackedByte hi lo } := rfl

theorem exec_runRecord (value length : Nibble) (s : State) :
    exec (.runRecord value length) s = .next { s with blk := s.blk.consumeRunRecord value length } := rfl

theorem exec_nibble (n : Nibble) (s : State) :
    exec (.nibble n) s = .next { s with blk := s.blk.consumeNibble n } := rfl

/-- Settles O59: each element is fed to the sink stage of the operation in OP as the nibble its source stage
takes. -/
theorem dataElementIsConsumedBySourceStage : Obligations.DataElementIsConsumedBySourceStage := by
  unfold Obligations.DataElementIsConsumedBySourceStage
  intro s hphase
  refine ⟨fun v hrow hcol opSink hmem hop => ?_, fun hi lo hop => ⟨fun hsph hend => ?_, fun hsph => ?_⟩,
    fun value length hop hrep hend => ⟨fun hlen => ?_, fun hlen => ?_⟩, fun n hend opSink hmem hop => ?_⟩
  · simp only [List.mem_cons, List.not_mem_nil, or_false] at hmem
    rw [exec_sample, Block.consumeSample_eq v hphase (by rcases hmem with rfl | rfl | rfl <;> simp [hop])
      hrow hcol, takeSample_eq v hcol, hop]
    rcases hmem with rfl | rfl | rfl <;> rfl
  · rw [exec_packedByte, Block.consumePackedByte_eq hi lo hphase hop (.inr hend),
      takePackedByte_high hi lo hsph]
    rfl
  · rw [exec_packedByte, Block.consumePackedByte_eq hi lo hphase hop (.inl hsph),
      takePackedByte_low hi lo hsph]
    rfl
  · rw [exec_runRecord, Block.consumeRunRecord_eq value length hphase hop hrep hend,
      takeRunRecord_nib value hlen]
    rfl
  · rw [exec_runRecord, Block.consumeRunRecord_eq value length hphase hop hrep hend,
      takeRunRecord_raised value hlen]
    rfl
  · simp only [List.mem_cons, List.not_mem_nil, or_false] at hmem
    rw [exec_nibble, Block.consumeNibble_eq n hphase (by rcases hmem with rfl | rfl | rfl <;> simp [hop])
      hend, hop]
    rcases hmem with rfl | rfl | rfl <;> rfl

/-! ### The RUN step that takes an element -/

theorem runStep_eq_consumeSample (hphase : b.phase = .run)
    (hop : b.cfg.op = 1 ∨ b.cfg.op = 2 ∨ b.cfg.op = 8) (hrow : b.dp.row ≠ b.cfg.height)
    (hcol : b.dp.col < b.cfg.width) : runStep b.cfg.op b = b.consumeSample b.nextElement := by
  rw [runStep_image hop, Block.consumeSample_eq _ hphase hop hrow hcol, runStages, sourceQpad, if_neg hrow,
    if_pos hcol]

theorem runStep_eq_consumePackedByte (hphase : b.phase = .run) (hop : b.cfg.op = 4)
    (htakes : b.dp.sph = true ∨ b.dp.iptr ≠ b.cfg.inLen) :
    runStep b.cfg.op b = b.consumePackedByte (highNibble b.nextElement) (lowNibble b.nextElement) := by
  have hnotEnd : ¬ (b.dp.sph = false ∧ b.dp.iptr = b.cfg.inLen) := by
    rintro ⟨hsph, hend⟩
    rcases htakes with h | h
    · simp [hsph] at h
    · exact h hend
  rw [hop, runStep_unpack, Block.consumePackedByte_eq _ _ hphase hop htakes, runStages, sourceSplit,
    if_neg hnotEnd]

theorem runStep_eq_consumeRunRecord (hphase : b.phase = .run) (hop : b.cfg.op = 7) (hrep : b.dp.rep = 0)
    (hend : b.dp.iptr ≠ b.cfg.inLen) :
    runStep b.cfg.op b = b.consumeRunRecord (highNibble b.nextElement) (lowNibble b.nextElement) := by
  rw [hop, runStep_decode, Block.consumeRunRecord_eq _ _ hphase hop hrep hend, runStages, sourceRuns,
    if_pos hrep, if_neg hend]

theorem runStep_eq_consumeNibble (hphase : b.phase = .run)
    (hop : b.cfg.op = 3 ∨ b.cfg.op = 5 ∨ b.cfg.op = 6) (hend : b.dp.iptr ≠ b.cfg.inLen)
    (hsmall : highNibble b.nextElement = 0) :
    runStep b.cfg.op b = b.consumeNibble (lowNibble b.nextElement) := by
  rw [runStep_nibbles hop, Block.consumeNibble_eq _ hphase hop hend, runStages,
    sourceNib_nib hend ((highNibble_eq_zero_iff _).1 hsmall), takeNibble]

/-- A run record of length 0 ends DECODE (R114). -/
theorem runStep_malformed (hop : b.cfg.op = 7) (hrep : b.dp.rep = 0) (hend : b.dp.iptr ≠ b.cfg.inLen)
    (hlen : lowNibble b.nextElement = 0) :
    runStep b.cfg.op b = b.raise .malformedStream b.dp.iptr := by
  rw [hop, runStep_decode, runStages_raised (sourceRuns_raised hrep hend hlen)]

/-- An element above 15 ends an operation that reads Nibble elements (R93). -/
theorem runStep_invalidNibble (hop : b.cfg.op = 3 ∨ b.cfg.op = 5 ∨ b.cfg.op = 6)
    (hend : b.dp.iptr ≠ b.cfg.inLen) (hbig : highNibble b.nextElement ≠ 0) :
    runStep b.cfg.op b = b.raise .invalidNibble b.dp.iptr := by
  rw [runStep_nibbles hop, runStages_raised (sourceNib_raised hend
    (Nat.lt_of_not_le fun h => hbig ((highNibble_eq_zero_iff _).2 h)))]

/-- Settles O60: in each format the decoder looks at the fields of the byte that the source stage looks at. -/
theorem runStepExecutesDecodedElement : Obligations.RunStepExecutesDecodedElement := by
  unfold Obligations.RunStepExecutesDecodedElement
  intro s f hphase htakes
  rw [exec_decodeOp_run hphase]
  rcases htakes with ⟨rfl, hop, hrow, hcol⟩ | ⟨rfl, hop, hhalf⟩ | ⟨rfl, hop, hrep, hend⟩ | ⟨rfl, hop, hend⟩
  · rw [decode_sample, runStep_eq_consumeSample hphase hop hrow hcol]
    exact ⟨fun _ hi => Except.ok.inj hi ▸ rfl, fun _ he => nomatch he⟩
  · rw [decode_packedByte, runStep_eq_consumePackedByte hphase hop hhalf]
    exact ⟨fun _ hi => Except.ok.inj hi ▸ rfl, fun _ he => nomatch he⟩
  · rw [decode_runRecord]
    by_cases hlen : lowNibble s.blk.nextElement = 0
    · rw [if_pos hlen, runStep_malformed hop hrep hend hlen]
      exact ⟨fun _ hi => (nomatch hi), fun _ _ => rfl⟩
    · rw [if_neg hlen, runStep_eq_consumeRunRecord hphase hop hrep hend]
      exact ⟨fun _ hi => Except.ok.inj hi ▸ rfl, fun _ he => nomatch he⟩
  · rw [decode_nibble]
    by_cases hsmall : highNibble s.blk.nextElement = 0
    · rw [if_pos hsmall, runStep_eq_consumeNibble hphase hop hend hsmall]
      exact ⟨fun _ hi => Except.ok.inj hi ▸ rfl, fun _ he => nomatch he⟩
    · rw [if_neg hsmall, runStep_invalidNibble hop hend hsmall]
      exact ⟨fun _ hi => (nomatch hi), fun _ _ => rfl⟩

end Sys2Proof.Machine
end

section
/-! ## Every launched operation ends within the step bound -/

namespace Sys2Proof.Machine

variable {b c t : Block} {k : Nat} {op : OpNum}

/-! ### Ending within a number of engine steps -/

/-- What the engine step of a busy block leaves (R150). -/
def Block.engineNext (b : Block) : Block := engineStep b.cfg.op (runStep b.cfg.op) b

theorem engineEvent_engineNext {s : State} (h : s.blk.phase = .check ∨ s.blk.phase = .run) :
    engineEvent s = .next { s with blk := s.blk.engineNext } :=
  (engineEvent_busy h).trans (exec_decodeOp _ s)

/-- The engine stays busy until it is in DONE, which takes it at most that many steps. -/
inductive Block.EndsWithin : Nat → Block → Prop where
  | ended {n : Nat} {b : Block} (phase : b.phase = .done) : EndsWithin n b
  | step {n : Nat} {b : Block} (busy : b.phase = .check ∨ b.phase = .run)
      (next : EndsWithin n b.engineNext) : EndsWithin (n + 1) b

theorem Block.EndsWithin.mono {m n : Nat} (h : b.EndsWithin m) (hmn : m ≤ n) : b.EndsWithin n := by
  induction h generalizing n with
  | ended phase => exact .ended phase
  | step busy _ ih =>
    obtain ⟨n, rfl⟩ := Nat.exists_eq_add_one_of_ne_zero (Nat.ne_zero_of_lt hmn)
    exact .step busy (ih (Nat.le_of_succ_le_succ hmn))

/-- With `k` nibbles left before the step, the step has ended the operation or has left one fewer; `Left`
says how many are left. -/
def Block.UsesOne (Left : Block → Nat → Prop) (k : Nat) (t : Block) : Prop :=
  t.phase = .done ∨ ∃ j, k = j + 1 ∧ t.phase = .run ∧ Left t j

/-- An operation each of whose RUN steps uses one of the `k` nibbles left ends at the latest in the step
after the last one. -/
theorem Block.EndsWithin.of_left {Left : Block → Nat → Prop} (hphase : b.phase = .run)
    (hop : b.cfg.op = op) (hleft : Left b k)
    (hstep : ∀ c j, c.phase = .run → Left c j → Block.UsesOne Left j (runStep op c)) :
    b.EndsWithin (k + 1) := by
  induction k using Nat.strongRecOn generalizing b with
  | ind k ih =>
    refine .step (.inr hphase) ?_
    rw [Block.engineNext, engineStep_run hphase, hop]
    rcases hstep b k hphase hleft with hdone | ⟨j, rfl, hrun, hleft'⟩
    · exact .ended hdone
    · obtain ⟨hcfg, -⟩ := (runStep_frame op b).frame
      exact ih j (Nat.lt_succ_self j) hrun (hcfg ▸ hop) hleft'

/-! ### The sink stages -/

/-- The operation goes on and the registers of the source stages are untouched. -/
structure Block.KeepsSource (c t : Block) : Prop where
  phase : t.phase = c.phase := by rfl
  cfg : t.cfg = c.cfg := by rfl
  iptr : t.dp.iptr = c.dp.iptr := by rfl
  col : t.dp.col = c.dp.col := by rfl
  row : t.dp.row = c.dp.row := by rfl
  sph : t.dp.sph = c.dp.sph := by rfl
  rep : t.dp.rep = c.dp.rep := by rfl

theorem Block.emit_ends_or_keeps (v : Byte) {f : Block → Block} (hf : (c.push v).KeepsSource (f (c.push v))) :
    (c.emit v f).phase = .done ∨ c.KeepsSource (c.emit v f) := by
  rcases c.emit_cases v f with ⟨-, heq⟩ | ⟨-, heq⟩ <;> rw [heq]
  · exact .inl rfl
  · obtain ⟨phase, cfg, iptr, col, row, sph, rep⟩ := hf
    exact .inr ⟨phase, cfg, iptr, col, row, sph, rep⟩

theorem sinkNib_nib_ends_or_keeps (x : Nibble) (c : Block) :
    (sinkNib (.nib x) c).phase = .done ∨ c.KeepsSource (sinkNib (.nib x) c) :=
  Block.emit_ends_or_keeps _ {}

theorem sinkCombine_nib_ends_or_keeps (x : Nibble) (c : Block) :
    (sinkCombine (.nib x) c).phase = .done ∨ c.KeepsSource (sinkCombine (.nib x) c) := by
  simp only [sinkCombine]
  split
  · exact Block.emit_ends_or_keeps _ {}
  · exact .inr {}

theorem sinkRle_nib_ends_or_keeps (x : Nibble) (c : Block) :
    (sinkRle (.nib x) c).phase = .done ∨ c.KeepsSource (sinkRle (.nib x) c) := by
  simp only [sinkRle]
  split
  · exact .inr {}
  · split
    · exact .inr {}
    · exact Block.emit_ends_or_keeps _ {}

theorem sinkRleCount_nib_keeps (x : Nibble) (c : Block) : c.KeepsSource (sinkRleCount (.nib x) c) := by
  simp only [sinkRleCount]
  split
  · exact {}
  · split <;> exact {}

theorem Block.emit_phase_of_done (v : Byte) (f : Block → Block) (hf : ∀ d, (f d).phase = .done) :
    (c.emit v f).phase = .done := by
  rcases c.emit_cases v f with ⟨-, heq⟩ | ⟨-, heq⟩ <;> rw [heq]
  · rfl
  · exact hf _

theorem sinkCombine_fin_phase (c : Block) : (sinkCombine .fin c).phase = .done := by
  simp only [sinkCombine]
  split <;> rfl

theorem sinkRle_fin_phase (c : Block) : (sinkRle .fin c).phase = .done := by
  simp only [sinkRle]
  split
  · rfl
  · exact Block.emit_phase_of_done _ _ fun _ => rfl

theorem sinkRleCount_fin_phase (c : Block) : (sinkRleCount .fin c).phase = .done := by
  simp only [sinkRleCount]
  split <;> rfl

/-- Which operation numbers have a RUN step. -/
def HasStages (op : OpNum) : Prop :=
  op = 1 ∨ op = 2 ∨ op = 3 ∨ op = 4 ∨ op = 5 ∨ op = 6 ∨ op = 7 ∨ op = 8

theorem sinkStage_nib_ends_or_keeps (hop : HasStages op) (x : Nibble) (c : Block) :
    (sinkStage op (.nib x) c).phase = .done ∨ c.KeepsSource (sinkStage op (.nib x) c) := by
  rcases hop with rfl | rfl | rfl | rfl | rfl | rfl | rfl | rfl
  · exact sinkCombine_nib_ends_or_keeps x c
  · exact sinkNib_nib_ends_or_keeps x c
  · exact sinkCombine_nib_ends_or_keeps x c
  · exact sinkNib_nib_ends_or_keeps x c
  · exact sinkRle_nib_ends_or_keeps x c
  · exact .inr (sinkRleCount_nib_keeps x c)
  · exact sinkNib_nib_ends_or_keeps x c
  · exact sinkRle_nib_ends_or_keeps x c

/-- `End` ends every operation (R95, R96, R112, R113). -/
theorem sinkStage_fin_phase (hop : HasStages op) (c : Block) : (sinkStage op .fin c).phase = .done := by
  rcases hop with rfl | rfl | rfl | rfl | rfl | rfl | rfl | rfl
  · exact sinkCombine_fin_phase c
  · rfl
  · exact sinkCombine_fin_phase c
  · rfl
  · exact sinkRle_fin_phase c
  · exact sinkRleCount_fin_phase c
  · rfl
  · exact sinkRle_fin_phase c

/-! ### The nibbles the source stages have left -/

/-- A source stage answers `End` or an error, or takes one of the `k` nibbles left. -/
def Fetched.UsesOne (Left : Block → Nat → Prop) (k : Nat) : Fetched → Prop
  | .nib _ c => ∃ j, k = j + 1 ∧ c.phase = .run ∧ Left c j
  | .fin => True
  | .raised _ _ => True

theorem runStages_usesOne {source : Block → Fetched} {Left : Block → Nat → Prop} (hop : HasStages op)
    (hsource : (source b).UsesOne Left k)
    (hkeeps : ∀ {c t : Block} {j : Nat}, c.KeepsSource t → Left c j → Left t j) :
    Block.UsesOne Left k (runStages source (sinkStage op) b) := by
  unfold runStages
  cases hf : source b with
  | fin => exact .inl (sinkStage_fin_phase hop b)
  | raised e pos => exact .inl rfl
  | nib x c =>
    rw [hf] at hsource
    obtain ⟨j, hk, hphase, hleft⟩ := hsource
    refine (sinkStage_nib_ends_or_keeps hop x c).imp id fun h => ⟨j, hk, h.phase.trans hphase, ?_⟩
    exact hkeeps h hleft

/-- Source NIB has `k` elements left. -/
def Block.InputLeft (b : Block) (k : Nat) : Prop := b.dp.iptr.toNat + k = b.cfg.inLen.toNat

/-- Source SPLIT has `k` halves of elements left. -/
def Block.HalvesLeft (b : Block) (k : Nat) : Prop :=
  2 * b.dp.iptr.toNat + b.dp.sph.toNat + k = 2 * b.cfg.inLen.toNat

/-- Source QPAD has `k` nibbles of the padded grid left. -/
def Block.GridLeft (b : Block) (k : Nat) : Prop :=
  b.dp.col.toNat < paddedWidth b.cfg.width ∧ b.dp.row ≤ b.cfg.height ∧
  b.dp.row.toNat * paddedWidth b.cfg.width + b.dp.col.toNat + k = pixelCount b.cfg.width b.cfg.height

/-- Source RUNS has at most `k` nibbles left, 15 for each record not fetched yet. -/
def Block.RunsLeft (b : Block) (k : Nat) : Prop :=
  b.dp.iptr ≤ b.cfg.inLen ∧ b.dp.rep.toNat + 15 * b.cfg.inLen.toNat ≤ 15 * b.dp.iptr.toNat + k

/-- OBUF has room for `k` elements. -/
def Block.RoomLeft (b : Block) (k : Nat) : Prop := b.dp.optr.toNat + k = b.params.obufDepth.toNat

theorem Block.KeepsSource.inputLeft (h : c.KeepsSource t) (hleft : c.InputLeft k) : t.InputLeft k := by
  simpa only [Block.InputLeft, h.iptr, h.cfg] using hleft

theorem Block.KeepsSource.halvesLeft (h : c.KeepsSource t) (hleft : c.HalvesLeft k) : t.HalvesLeft k := by
  simpa only [Block.HalvesLeft, h.iptr, h.sph, h.cfg] using hleft

theorem Block.KeepsSource.gridLeft (h : c.KeepsSource t) (hleft : c.GridLeft k) : t.GridLeft k := by
  simpa only [Block.GridLeft, h.col, h.row, h.cfg] using hleft

theorem Block.KeepsSource.runsLeft (h : c.KeepsSource t) (hleft : c.RunsLeft k) : t.RunsLeft k := by
  simpa only [Block.RunsLeft, h.iptr, h.rep, h.cfg] using hleft

/-- A nibble that is not 0 counts down without wrapping. -/
theorem Nibble.toNat_pred {n : Nibble} (h : n ≠ 0) : (n - 1).toNat + 1 = n.toNat := by
  bv_omega

theorem sourceNib_usesOne (hphase : b.phase = .run) (h : b.InputLeft k) :
    (sourceNib b).UsesOne Block.InputLeft k := by
  unfold Block.InputLeft at h
  by_cases hend : b.dp.iptr = b.cfg.inLen
  · rw [sourceNib_fin hend]
    trivial
  by_cases hbig : 15 < b.nextElement.toNat
  · rw [sourceNib_raised hend hbig]
    trivial
  · rw [sourceNib_nib hend (Nat.le_of_not_lt hbig)]
    obtain ⟨hlt, hsucc⟩ := toNat_succ_of_le_of_ne (BitVec.le_def.2 (by omega)) hend
    refine ⟨k - 1, by omega, hphase, ?_⟩
    simp only [Block.InputLeft, hsucc]
    omega

theorem sourceSplit_usesOne (hphase : b.phase = .run) (h : b.HalvesLeft k) :
    (sourceSplit b).UsesOne Block.HalvesLeft k := by
  unfold Block.HalvesLeft at h
  cases hsph : b.dp.sph with
  | true =>
    rw [hsph, Bool.toNat_true] at h
    rw [sourceSplit_low hsph]
    obtain ⟨hlt, hsucc⟩ := toNat_succ_of_le_of_ne (x := b.dp.iptr) (n := b.cfg.inLen)
      (BitVec.le_def.2 (by omega)) (BitVec.toNat_ne.2 (by omega))
    refine ⟨k - 1, by omega, hphase, ?_⟩
    simp only [Block.HalvesLeft, hsucc, Bool.toNat_false]
    omega
  | false =>
    rw [hsph, Bool.toNat_false] at h
    by_cases hend : b.dp.iptr = b.cfg.inLen
    · rw [sourceSplit_fin hsph hend]
      trivial
    · rw [sourceSplit_high hsph hend]
      have hne := BitVec.toNat_ne.1 hend
      refine ⟨k - 1, by omega, hphase, ?_⟩
      simp only [Block.HalvesLeft, Bool.toNat_true]
      omega

/-- A row before the last has a whole padded width below it, so there is a nibble to take (R92). -/
theorem sourceQpad_usesOne (hphase : b.phase = .run) (h : b.GridLeft k) :
    (sourceQpad b).UsesOne Block.GridLeft k := by
  obtain ⟨hcol, hrowle, hleft⟩ := h
  by_cases hrow : b.dp.row = b.cfg.height
  · rw [sourceQpad_fin hrow]
    trivial
  rw [sourceQpad_nib hrow]
  obtain ⟨hrowlt, hrowsucc⟩ := toNat_succ_of_le_of_ne hrowle hrow
  have hrows := Nat.mul_le_mul_right (paddedWidth b.cfg.width) hrowlt
  rw [Nat.succ_mul] at hrows
  unfold pixelCount at hleft
  refine ⟨k - 1, by omega, hphase, ?_⟩
  unfold Block.GridLeft pixelCount
  dsimp only
  by_cases hlast : b.dp.col.toNat + 1 = paddedWidth b.cfg.width
  · have hrow' : b.afterGridNibble.row = b.dp.row + 1 := if_pos hlast
    have hcol' : b.afterGridNibble.col = 0 := if_pos hlast
    rw [hrow', hcol', BitVec.le_def, hrowsucc, Nat.succ_mul]
    simp only [BitVec.ofNat_eq_ofNat, BitVec.toNat_ofNat]
    omega
  · have hrow' : b.afterGridNibble.row = b.dp.row := if_neg hlast
    have hcol' : b.afterGridNibble.col = b.dp.col + 1 := if_neg hlast
    have hwidth := b.cfg.width.isLt
    have hcolsucc : (b.dp.col + 1).toNat = b.dp.col.toNat + 1 :=
      BitVec.toNat_add_of_lt (by unfold paddedWidth at hcol hlast; simp; omega)
    rw [hrow', hcol', hcolsucc]
    exact ⟨by omega, hrowle, by omega⟩

/-- A copy uses one repetition of the record fetched, a fetch all but at most 14 of the 15 nibbles allowed
for it (R114). -/
theorem sourceRuns_usesOne (hphase : b.phase = .run) (h : b.RunsLeft k) :
    (sourceRuns b).UsesOne Block.RunsLeft k := by
  obtain ⟨hiptr, hleft⟩ := h
  by_cases hrep : b.dp.rep = 0
  · by_cases hend : b.dp.iptr = b.cfg.inLen
    · rw [sourceRuns_fin hrep hend]
      trivial
    by_cases hlen : lowNibble b.nextElement = 0
    · rw [sourceRuns_raised hrep hend hlen]
      trivial
    · rw [sourceRuns_fetch hrep hend hlen]
      obtain ⟨hlt, hsucc⟩ := toNat_succ_of_le_of_ne hiptr hend
      have hrest := Nibble.toNat_pred hlen
      have hmax := (lowNibble b.nextElement).isLt
      refine ⟨k - 1, by omega, hphase, BitVec.le_def.2 (hsucc ▸ hlt), ?_⟩
      simp only [hsucc]
      omega
  · rw [sourceRuns_copy hrep]
    have hrest := Nibble.toNat_pred hrep
    have hle := BitVec.le_def.1 hiptr
    refine ⟨k - 1, by omega, hphase, hiptr, ?_⟩
    dsimp only
    omega

/-- DECODE stores every nibble it produces (R117), so each step but the last uses one entry of OBUF. -/
theorem runStep_decode_usesRoom (hphase : b.phase = .run) (h : b.RoomLeft k) :
    Block.UsesOne Block.RoomLeft k (runStep 7 b) := by
  unfold Block.RoomLeft at h
  rw [runStep_decode]
  have store {x : Nibble} {dp : Datapath} (hsource : sourceRuns b = .nib x { b with dp := dp })
      (hoptr : dp.optr = b.dp.optr) : Block.UsesOne Block.RoomLeft k (runStages sourceRuns sinkNib b) := by
    rw [runStages_nib hsource]
    by_cases hfull : b.dp.optr = b.params.obufDepth
    · rw [sinkNib_full (hoptr.trans hfull)]
      exact .inl rfl
    · rw [sinkNib_nib (by rwa [hoptr])]
      obtain ⟨hlt, hsucc⟩ := toNat_succ_of_le_of_ne (BitVec.le_def.2 (by omega)) hfull
      refine .inr ⟨k - 1, by omega, hphase, ?_⟩
      simp only [Block.RoomLeft, Block.push_dp, Block.push_params, hoptr, hsucc]
      omega
  by_cases hrep : b.dp.rep = 0
  · by_cases hend : b.dp.iptr = b.cfg.inLen
    · rw [runStages_fin (sourceRuns_fin hrep hend)]
      exact .inl rfl
    by_cases hlen : lowNibble b.nextElement = 0
    · rw [runStages_raised (sourceRuns_raised hrep hend hlen)]
      exact .inl rfl
    · exact store (sourceRuns_fetch hrep hend hlen) rfl
  · exact store (sourceRuns_copy hrep) rfl

/-! ### The step bound of a launched operation -/

theorem Block.endsWithin_image (hphase : b.phase = .run) (hop : b.cfg.op = 1 ∨ b.cfg.op = 2 ∨ b.cfg.op = 8)
    (h : b.GridLeft k) : b.EndsWithin (k + 1) := by
  have hstages : HasStages b.cfg.op := by rcases hop with hop | hop | hop <;> simp [HasStages, hop]
  refine .of_left (Left := Block.GridLeft) hphase rfl h fun c j hrun hleft => ?_
  rw [runStep_image hop]
  exact runStages_usesOne hstages (sourceQpad_usesOne hrun hleft) Block.KeepsSource.gridLeft

theorem Block.endsWithin_nibbles (hphase : b.phase = .run) (hop : b.cfg.op = 3 ∨ b.cfg.op = 5 ∨ b.cfg.op = 6)
    (h : b.InputLeft k) : b.EndsWithin (k + 1) := by
  have hstages : HasStages b.cfg.op := by rcases hop with hop | hop | hop <;> simp [HasStages, hop]
  refine .of_left (Left := Block.InputLeft) hphase rfl h fun c j hrun hleft => ?_
  rw [runStep_nibbles hop]
  exact runStages_usesOne hstages (sourceNib_usesOne hrun hleft) Block.KeepsSource.inputLeft

theorem Block.endsWithin_unpack (hphase : b.phase = .run) (hop : b.cfg.op = 4) (h : b.HalvesLeft k) :
    b.EndsWithin (k + 1) := by
  have hstages : HasStages 4 := by simp [HasStages]
  exact .of_left (Left := Block.HalvesLeft) hphase hop h fun c j hrun hleft =>
    runStages_usesOne hstages (sourceSplit_usesOne hrun hleft) Block.KeepsSource.halvesLeft

/-- DECODE ends by the last of its `m` nibbles or when its room for `n` is used up, whichever comes first. -/
theorem Block.endsWithin_decode (hphase : b.phase = .run) (hop : b.cfg.op = 7) {m n : Nat}
    (hinput : b.RunsLeft m) (hroom : b.RoomLeft n) : b.EndsWithin (min m n + 1) := by
  have hstages : HasStages 7 := by simp [HasStages]
  rcases Nat.le_total m n with h | h
  · rw [Nat.min_eq_left h]
    exact .of_left (Left := Block.RunsLeft) hphase hop hinput fun c j hrun hleft =>
      runStages_usesOne hstages (sourceRuns_usesOne hrun hleft) Block.KeepsSource.runsLeft
  · rw [Nat.min_eq_right h]
    exact .of_left (Left := Block.RoomLeft) hphase hop hroom fun c j => runStep_decode_usesRoom

theorem Block.gridLeft_of_zero (hdp : b.dp = .zero) (hwidth : b.cfg.width ≠ 0) :
    b.GridLeft (pixelCount b.cfg.width b.cfg.height) := by
  have hpos := BitVec.toNat_ne.1 hwidth
  simp [Block.GridLeft, hdp, Datapath.zero, paddedWidth, BitVec.le_def] at *
  omega

theorem Block.stepBound_image (hop : op = 1 ∨ op = 2 ∨ op = 8) (b : Block) :
    b.stepBound op = pixelCount b.cfg.width b.cfg.height + 2 := by
  rcases hop with rfl | rfl | rfl <;> exact Nat.add_comm 2 _

theorem Block.stepBound_nibbles (hop : op = 3 ∨ op = 5 ∨ op = 6) (b : Block) :
    b.stepBound op = b.cfg.inLen.toNat + 2 := by
  rcases hop with rfl | rfl | rfl <;> exact Nat.add_comm 2 _

theorem Block.stepBound_unpack (b : Block) : b.stepBound 4 = 2 * b.cfg.inLen.toNat + 2 := Nat.add_comm 2 _

theorem Block.stepBound_decode (b : Block) :
    b.stepBound 7 = min (15 * b.cfg.inLen.toNat) (b.params.obufDepth.toNat + 1) + 2 := Nat.add_comm 2 _

/-- The RUN steps of an operation that has just passed its checks: one of the step bound was its CHECK. -/
theorem Block.endsWithin_of_entered (hdp : b.dp = .zero) (hphase : b.phase = .run) (hne : b.cfg.op ≠ 0)
    (hcheck : startCheck b.cfg.op b = none) :
    ∃ n, n + 1 ≤ b.stepBound b.cfg.op ∧ b.EndsWithin n := by
  obtain ⟨hdefined, himage, -, -⟩ := (startCheck_eq_none_iff ..).1 hcheck
  have hops : (b.cfg.op = 1 ∨ b.cfg.op = 2 ∨ b.cfg.op = 8) ∨ (b.cfg.op = 3 ∨ b.cfg.op = 5 ∨ b.cfg.op = 6) ∨
      b.cfg.op = 4 ∨ b.cfg.op = 7 := by
    have := op_cases_of_defined hne hdefined
    tauto
  rcases hops with hop | hop | hop | hop
  · obtain ⟨-, hwidth, -, -⟩ := himage (by simpa [usesImage] using hop)
    exact ⟨_, (Block.stepBound_image hop b).ge,
      Block.endsWithin_image hphase hop (Block.gridLeft_of_zero hdp hwidth)⟩
  · exact ⟨_, (Block.stepBound_nibbles hop b).ge,
      Block.endsWithin_nibbles hphase hop (by simp [Block.InputLeft, hdp, Datapath.zero])⟩
  · exact ⟨_, (hop ▸ b.stepBound_unpack).ge,
      Block.endsWithin_unpack hphase hop (by simp [Block.HalvesLeft, hdp, Datapath.zero])⟩
  · have hinput : b.RunsLeft (15 * b.cfg.inLen.toNat) := by
      simp [Block.RunsLeft, hdp, Datapath.zero, BitVec.le_def]
    have hroom : b.RoomLeft b.params.obufDepth.toNat := by simp [Block.RoomLeft, hdp, Datapath.zero]
    refine ⟨_, ?_, Block.endsWithin_decode hphase hop hinput hroom⟩
    rw [hop, Block.stepBound_decode]
    omega

theorem Block.stepBound_pos (op : OpNum) (b : Block) : 1 ≤ b.stepBound op := by
  unfold Block.stepBound
  split <;> omega

/-- R203: a launched operation ends within its step bound. -/
theorem Block.endsWithin_stepBound (hphase : b.phase = .check) (hdp : b.dp = .zero) :
    b.EndsWithin (b.stepBound b.cfg.op) := by
  have hnext : b.engineNext = stepCheck b.cfg.op b := engineStep_check hphase
  have ends (h : (stepCheck b.cfg.op b).phase = .done) : b.EndsWithin (b.stepBound b.cfg.op) :=
    .mono (.step (n := 0) (.inl hphase) (.ended (hnext ▸ h))) (b.stepBound_pos _)
  rcases stepCheck_cases b.cfg.op b with ⟨e, -, heq⟩ | ⟨-, -, heq⟩ | ⟨hnone, hne, heq⟩
  · exact ends (by rw [heq, Block.raise_phase])
  · exact ends (by rw [heq])
  · obtain ⟨n, hn, hends⟩ := Block.endsWithin_of_entered (b := { b with phase := .run }) hdp rfl hne hnone
    exact .mono (.step (.inl hphase) (by rwa [hnext, heq])) hn

end Sys2Proof.Machine
end

section
/-! ## Host scripts: the lines, and the acts that depend on values read -/

namespace Sys2Proof.Machine

/-! ### The transactions of the lines -/

@[simp] theorem decodeHt_wr (reg : RegName) (v : Word) :
    decodeHt (ScriptLine.wr reg v).word = .wrReg reg.toWord v := by
  simp [ScriptLine.word, decodeHt]

@[simp] theorem decodeHt_rd (reg : RegName) : decodeHt (ScriptLine.rd reg).word = .rdReg reg.toWord 0 := by
  simp [ScriptLine.word, decodeHt]

@[simp] theorem decodeHt_wri (i v : Word) : decodeHt (ScriptLine.wri i v).word = .wrIbuf i v := by
  simp [ScriptLine.word, decodeHt]

@[simp] theorem decodeHt_rdi (i : Word) : decodeHt (ScriptLine.rdi i).word = .rdIbuf i 0 := by
  simp [ScriptLine.word, decodeHt]

@[simp] theorem decodeHt_rdo (i : Word) : decodeHt (ScriptLine.rdo i).word = .rdObuf i 0 := by
  simp [ScriptLine.word, decodeHt]

theorem scriptLoad_eq (vs : List Word) : scriptLoad vs =
    (vs.zipIdx.map fun e => .wri (BitVec.ofNat 32 e.2) e.1) ++ [.wr .inLen (BitVec.ofNat 32 vs.length)] := by
  rw [scriptLoad, scriptWriteFrom_eq]

theorem ScriptRun.hostTurn_loadKept (rest : List HostAct) (kept : List Word) (s : State) :
    ScriptRun.hostTurn ⟨.loadKept :: rest, kept, s⟩ =
      .next ⟨(kept.zipIdx.map fun e => .line (.wri (BitVec.ofNat 32 e.2) e.1)) ++
        .line (.wr .inLen (BitVec.ofNat 32 kept.length)) :: rest, kept, s⟩ := by
  simp [ScriptRun.hostTurn, scriptLoad_eq, Function.comp_def]

/-! ### WAIT -/

theorem exec_rd_status (s : State) :
    exec (decodeHt (ScriptLine.rd .status).word) s = .next (s.deliver (s.blk.status.setWidth 32)) := by
  rw [decodeHt_rd]
  rfl

/-- WAIT polls STATUS and goes on exactly when it shows BUSY = 0. -/
theorem ScriptRun.hostTurn_wait_eq (rest : List HostAct) (kept : List Word) (s : State) :
    ScriptRun.hostTurn ⟨.wait :: rest, kept, s⟩ =
      .next ⟨if s.blk.busy then .wait :: rest else rest, kept, s.deliver (s.blk.status.setWidth 32)⟩ := by
  obtain ⟨hbusy, -⟩ := s.blk.status_bits
  rw [hostTurn_wait, State.transact_next _ (exec_rd_status s), State.deliver_hRdata,
    hbusy]

theorem ScriptRun.hostTurn_wait_busy {s : State} (h : s.blk.phase = .check ∨ s.blk.phase = .run)
    (rest : List HostAct) (kept : List Word) :
    ScriptRun.hostTurn ⟨.wait :: rest, kept, s⟩ =
      .next ⟨.wait :: rest, kept, s.deliver (s.blk.status.setWidth 32)⟩ := by
  rw [hostTurn_wait_eq, if_pos ((Block.busy_iff _).2 h)]

theorem ScriptRun.hostTurn_wait_quiet {s : State} (h : s.blk.phase = .idle ∨ s.blk.phase = .done)
    (rest : List HostAct) (kept : List Word) :
    ScriptRun.hostTurn ⟨.wait :: rest, kept, s⟩ =
      .next ⟨rest, kept, s.deliver (s.blk.status.setWidth 32)⟩ := by
  rw [hostTurn_wait_eq, if_neg]
  rw [Block.busy_iff]
  rcases h with h | h <;> simp [h]

theorem ScriptRun.engineTurn_busy {s : State} (h : s.blk.phase = .check ∨ s.blk.phase = .run)
    (todo : List HostAct) (kept : List Word) :
    ScriptRun.engineTurn ⟨todo, kept, s⟩ = .next ⟨todo, kept, { s with blk := s.blk.engineNext }⟩ := by
  simp only [ScriptRun.engineTurn, step_before_engine, engineEvent_engineNext h]

/-- The engine's steps to DONE, and then the WAIT that finds it there. -/
theorem ScriptRun.run_wait {s : State} {n : Nat} (h : s.blk.EndsWithin n) (rest : List HostAct)
    (kept : List Word) : ∃ m ≤ n, ∃ t : State, t.blk.phase = .done ∧
      ScriptRun.run (List.replicate m .engine ++ [.host]) ⟨.wait :: rest, kept, s⟩ = .next ⟨rest, kept, t⟩ := by
  generalize hb : s.blk = b at h
  induction h generalizing s with
  | ended phase =>
    subst hb
    exact ⟨0, Nat.zero_le _, s.deliver (s.blk.status.setWidth 32), phase,
      run_host [] (hostTurn_wait_quiet (.inr phase) rest kept)⟩
  | step busy _ ih =>
    subst hb
    obtain ⟨m, hm, t, hphase, hrun⟩ := ih (s := { s with blk := s.blk.engineNext }) rfl
    exact ⟨m + 1, Nat.succ_le_succ hm, t, hphase, (run_engine _ (engineTurn_busy busy _ kept)).trans hrun⟩

/-! ### DUMP -/

theorem exec_rd_outLen (s : State) :
    exec (decodeHt (ScriptLine.rd .outLen).word) s = .next (s.deliver s.blk.res.outLen) := by
  rw [decodeHt_rd]
  rfl

theorem exec_rdo_valid {s : State} {i : Word} {v : Byte} (h : s.blk.obufRead i = some v) :
    exec (decodeHt (ScriptLine.rdo i).word) s = .next (s.deliver (v.setWidth 32)) := by
  simp only [decodeHt_rdo, exec, execRdObuf, h]

theorem ScriptRun.hostTurn_dump_eq (rest : List HostAct) (kept : List Word) (s : State) :
    ScriptRun.hostTurn ⟨.dump :: rest, kept, s⟩ =
      .next ⟨((List.range s.blk.res.outLen.toNat).map (BitVec.ofNat 32)).map .keep ++ rest, [],
        s.deliver s.blk.res.outLen⟩ := by
  rw [hostTurn_dump, State.transact_next _ (exec_rd_outLen s), List.map_map]
  rfl

theorem ScriptRun.hostTurn_keep_valid {s : State} {i : Word} {v : Byte} (h : s.blk.obufRead i = some v)
    (rest : List HostAct) (kept : List Word) :
    ScriptRun.hostTurn ⟨.keep i :: rest, kept, s⟩ =
      .next ⟨rest, kept ++ [v.setWidth 32], s.deliver (v.setWidth 32)⟩ := by
  rw [hostTurn_keep, State.transact_next _ (exec_rdo_valid h)]
  rfl

/-- Reading valid entries one after the other keeps their values in that order. -/
theorem ScriptRun.run_keeps {s : State} {is : List Word} {vs : List Byte}
    (h : List.Forall₂ (fun i v => s.blk.obufRead i = some v) is vs) (rest : List HostAct) (kept : List Word) :
    ∃ t : State, t.blk = s.blk ∧
      ScriptRun.run (List.replicate vs.length .host) ⟨is.map .keep ++ rest, kept, s⟩ =
        .next ⟨rest, kept ++ vs.map (·.setWidth 32), t⟩ := by
  induction is generalizing s vs kept with
  | nil =>
    cases h
    exact ⟨s, rfl, by simp⟩
  | cons i is ih =>
    cases h with
    | @cons _ v _ vs hread hreads =>
      obtain ⟨t, hblk, hrun⟩ := ih (s := s.deliver (v.setWidth 32)) hreads (kept ++ [v.setWidth 32])
      refine ⟨t, hblk, (run_host _ (hostTurn_keep_valid hread _ kept)).trans ?_⟩
      simpa using hrun

theorem ScriptRun.run_dump {s : State} {vs : List Byte} (hlen : vs.length = s.blk.res.outLen.toNat)
    (hvalid : ∀ i (h : i < vs.length), s.blk.obufRead (BitVec.ofNat 32 i) = some vs[i])
    (rest : List HostAct) (kept : List Word) :
    ∃ t : State, t.blk = s.blk ∧
      ScriptRun.run (List.replicate (vs.length + 1) .host) ⟨.dump :: rest, kept, s⟩ =
        .next ⟨rest, vs.map (·.setWidth 32), t⟩ := by
  have hreads : List.Forall₂ (fun i v => s.blk.obufRead i = some v)
      ((List.range s.blk.res.outLen.toNat).map (BitVec.ofNat 32)) vs :=
    List.forall₂_of_length_eq_of_get (by simp [hlen]) fun i _ hi => by simpa using hvalid i hi
  obtain ⟨t, hblk, hrun⟩ := run_keeps (s := s.deliver s.blk.res.outLen) hreads rest []
  exact ⟨t, hblk, (run_host _ (hostTurn_dump_eq rest kept s)).trans hrun⟩

/-- Settles O54: the lines by the decoder, WAIT by the step bound of a launched operation, DUMP entry by
entry. -/
theorem scriptLinesAreTheirTransactions : Obligations.ScriptLinesAreTheirTransactions := by
  unfold Obligations.ScriptLinesAreTheirTransactions
  refine ⟨fun e he v => ?_, fun n i v => ?_, ?_, scriptLoad_eq, fun l rest kept s t h => ?_,
    fun rest kept s => ?_, fun rest kept s hs => ?_, fun rest kept s vs hlen hvalid => ?_,
    ScriptRun.hostTurn_loadKept⟩
  · have hnumber : e.1.toWord = e.2 := by
      revert e
      decide
    exact ⟨hnumber ▸ decodeHt_wr e.1 v, hnumber ▸ decodeHt_rd e.1⟩
  · exact ⟨decodeHt_wr _ v, decodeHt_rd _, decodeHt_wri i v, decodeHt_rdi i, decodeHt_rdo i⟩
  · exact ⟨decodeHt_wr _ 1, decodeHt_wr _ 2, fun _ => rfl, rfl, rfl, rfl⟩
  · rw [ScriptRun.hostTurn_line, State.transact_next _ h]
  · exact ⟨_, decodeHt_rd .status ▸ exec_rd_status s, fun h => ScriptRun.hostTurn_wait_busy h rest kept,
      fun h => ScriptRun.hostTurn_wait_quiet h rest kept⟩
  · obtain ⟨hphase, hdp, -, -⟩ := hs
    exact ScriptRun.run_wait (Block.endsWithin_stepBound hphase hdp) rest kept
  · exact ScriptRun.run_dump hlen hvalid rest kept

end Sys2Proof.Machine
end

section
/-! ## The pure functions of the packer: Q, PAD, COMB and SPLIT -/

namespace Sys2Proof.Machine

variable {g : List Nibble} {w h r c : Nat} {d : Nibble}

/-! ### Q (R81, R82) -/

/-- The rounded quotient of a byte by 17 is at most 15, so no bit of it is dropped. -/
theorem quantize_toNat (s : Byte) : (quantize s).toNat = (s.toNat + 8) / 17 := by
  have := s.isLt
  rw [quantize, BitVec.toNat_ofNat, Nat.mod_eq_of_lt (by omega)]

theorem expand_toNat (n : Nibble) : (expand n).toNat = 17 * n.toNat := by
  have := n.isLt
  rw [expand, BitVec.toNat_ofNat, Nat.mod_eq_of_lt (by omega)]

theorem quantize_expand (n : Nibble) : quantize (expand n) = n := by
  apply BitVec.eq_of_toNat_eq
  rw [quantize_toNat, expand_toNat]
  omega

/-- Settles O41: all three clauses are about the one quotient of `quantize_toNat`. -/
theorem quantizeRoundsToNearest : Obligations.QuantizeRoundsToNearest := by
  unfold Obligations.QuantizeRoundsToNearest
  refine ⟨fun s n => ?_, fun s t hst => ?_, fun s => ?_⟩
  · rw [← BitVec.toNat_inj, quantize_toNat]
    omega
  · rw [BitVec.le_def] at hst ⊢
    rw [quantize_toNat, quantize_toNat]
    exact Nat.div_le_div_right (Nat.add_le_add_right hst 8)
  · rw [quantize_toNat]
    omega

/-! ### PAD (R84) -/

theorem pad_zero (g : List Nibble) (w : Nat) (d : Nibble) : pad g w 0 d = [] := rfl

theorem pad_succ (g : List Nibble) (w h : Nat) (d : Nibble) :
    pad g w (h + 1) d = pad g w h d ++ padRow g w d h := by
  simp [pad, List.range_succ]

/-- A row that lies within the grid has all its pixels. -/
theorem rowPixels_length (hg : (r + 1) * w ≤ g.length) : ((g.drop (r * w)).take w).length = w := by
  rw [Nat.succ_mul] at hg
  rw [List.length_take, List.length_drop]
  omega

theorem padRow_length (d : Nibble) (hg : (r + 1) * w ≤ g.length) : (padRow g w d r).length = w + w % 2 := by
  rw [padRow, List.length_append, rowPixels_length hg]
  split
  · simp [*]
  · simp only [List.length_nil]
    omega

theorem padRow_getElem?_real (hc : c < w) (hg : (r + 1) * w ≤ g.length) :
    (padRow g w d r)[c]? = g[r * w + c]? := by
  rw [padRow, List.getElem?_append_left (by rwa [rowPixels_length hg]), List.getElem?_take_of_lt hc,
    List.getElem?_drop]

theorem padRow_getElem?_designator (hodd : w % 2 = 1) (hg : (r + 1) * w ≤ g.length) :
    (padRow g w d r)[w]? = some d := by
  have hpixels := rowPixels_length hg
  rw [padRow, if_pos hodd, List.getElem?_append_right hpixels.le, hpixels]
  simp

theorem pad_length (d : Nibble) (hg : h * w ≤ g.length) : (pad g w h d).length = h * (w + w % 2) := by
  induction h with
  | zero => simp [pad_zero]
  | succ h ih =>
    have hfewer : h * w ≤ g.length := (Nat.mul_le_mul_right w h.le_succ).trans hg
    rw [pad_succ, List.length_append, ih hfewer, padRow_length d hg, Nat.succ_mul]

/-- Element `c` of row `r` stands `r` padded widths and `c` elements into the padded stream. -/
theorem pad_getElem? (hg : h * w ≤ g.length) (hr : r < h) (hc : c < w + w % 2) :
    (pad g w h d)[r * (w + w % 2) + c]? = (padRow g w d r)[c]? := by
  induction h with
  | zero => exact absurd hr (Nat.not_lt_zero r)
  | succ h ih =>
    have hfewer : h * w ≤ g.length := (Nat.mul_le_mul_right w h.le_succ).trans hg
    have hlen := pad_length d hfewer
    rw [pad_succ]
    rcases Nat.lt_succ_iff_lt_or_eq.1 hr with hr | rfl
    · have hrows : (r + 1) * (w + w % 2) ≤ h * (w + w % 2) := Nat.mul_le_mul_right _ hr
      rw [Nat.succ_mul] at hrows
      rw [List.getElem?_append_left (by omega), ih hfewer hr]
    · rw [List.getElem?_append_right (by omega), hlen, Nat.add_sub_cancel_left]

theorem pad_getElem?_real (hg : h * w ≤ g.length) (hr : r < h) (hc : c < w) :
    (pad g w h d)[r * (w + w % 2) + c]? = g[r * w + c]? :=
  (pad_getElem? hg hr (Nat.lt_add_right _ hc)).trans
    (padRow_getElem?_real hc ((Nat.mul_le_mul_right w hr).trans hg))

theorem pad_getElem?_designator (hg : h * w ≤ g.length) (hr : r < h) (hodd : w % 2 = 1) :
    (pad g w h d)[r * (w + w % 2) + w]? = some d :=
  (pad_getElem? hg hr (by omega)).trans
    (padRow_getElem?_designator hodd ((Nat.mul_le_mul_right w hr).trans hg))

/-- Rows of an even width get no designator, so the rows of PAD are those of the grid. -/
theorem pad_even (g : List Nibble) (h : Nat) (d : Nibble) (heven : w % 2 = 0) :
    pad g w h d = g.take (h * w) := by
  induction h with
  | zero => simp [pad_zero]
  | succ h ih =>
    have hodd : ¬ w % 2 = 1 := by omega
    rw [pad_succ, ih, padRow, if_neg hodd, List.append_nil, Nat.succ_mul, List.take_add]

/-- Settles O42: each clause is PAD's lemma of that name. -/
theorem padInsertsOneDesignatorPerOddRow : Obligations.PadInsertsOneDesignatorPerOddRow := by
  unfold Obligations.PadInsertsOneDesignatorPerOddRow
  intro g w h d _ _ hlen
  have hg : h * w ≤ g.length := by rw [hlen, Nat.mul_comm]
  refine ⟨pad_length d hg, fun r hr c hc => pad_getElem?_real hg hr hc,
    fun hodd r hr => pad_getElem?_designator hg hr hodd, fun heven => ?_⟩
  rw [pad_even g h d heven, Nat.mul_comm, ← hlen, List.take_length]

/-! ### COMB and SPLIT (R85, R86, R98) -/

@[simp] theorem split_nil : split [] = [] := rfl

@[simp] theorem split_cons (b : Byte) (bs : List Byte) :
    split (b :: bs) = highNibble b :: lowNibble b :: split bs := rfl

theorem comb_pair {x y : Nibble} {p : List Nibble} {out : List Byte} :
    comb (x :: y :: p) = some out ↔ ∃ rest, comb p = some rest ∧ combineNibbles x y :: rest = out :=
  Option.map_eq_some_iff

theorem split_length (bs : List Byte) : (split bs).length = 2 * bs.length := by
  induction bs with
  | nil => rfl
  | cons b bs ih =>
    simp only [split_cons, List.length_cons, ih]
    omega

theorem comb_split (bs : List Byte) : comb (split bs) = some bs := by
  induction bs with
  | nil => rfl
  | cons b bs ih => exact comb_pair.2 ⟨bs, ih, by rw [combineNibbles_nibbles]⟩

/-- Where COMB has a value, SPLIT takes it back to the stream. -/
theorem split_of_comb {p : List Nibble} {out : List Byte} (hcomb : comb p = some out) : split out = p := by
  induction p using comb.induct generalizing out with
  | case1 =>
    cases hcomb
    rfl
  | case2 x => cases hcomb
  | case3 x y p ih =>
    obtain ⟨rest, hrest, rfl⟩ := comb_pair.1 hcomb
    rw [split_cons, highNibble_combineNibbles, lowNibble_combineNibbles, ih hrest]

theorem comb_length {p : List Nibble} {out : List Byte} (hcomb : comb p = some out) :
    out.length * 2 = p.length := by
  rw [← split_of_comb hcomb, split_length, Nat.mul_comm]

theorem comb_of_even {p : List Nibble} (heven : p.length % 2 = 0) : ∃ out, comb p = some out := by
  induction p using comb.induct with
  | case1 => exact ⟨[], rfl⟩
  | case2 x => simp at heven
  | case3 x y p ih =>
    obtain ⟨rest, hrest⟩ := ih (by simp only [List.length_cons] at heven; omega)
    exact ⟨_, comb_pair.2 ⟨rest, hrest, rfl⟩⟩

/-- A value of COMB has half the length of the stream, so an odd stream has none. -/
theorem comb_of_odd {p : List Nibble} (hodd : p.length % 2 = 1) : comb p = none := by
  cases hcomb : comb p with
  | none => rfl
  | some out =>
    have := comb_length hcomb
    omega

/-- The padded width is even, and so is the length of every padded stream. -/
theorem pad_length_even (d : Nibble) (hg : h * w ≤ g.length) : (pad g w h d).length % 2 = 0 := by
  have heven : (w + w % 2) % 2 = 0 := by omega
  rw [pad_length d hg, Nat.mul_mod, heven, Nat.mul_zero, Nat.zero_mod]

/-- Settles O43: an even stream has a COMB, and SPLIT undoes it wherever there is one. -/
theorem combineAndSplitAreInverse : Obligations.CombineAndSplitAreInverse := by
  unfold Obligations.CombineAndSplitAreInverse
  refine ⟨fun p heven => ?_, fun p => comb_of_odd, fun bs => ⟨comb_split bs, split_length bs⟩,
    fun g w h d _ _ hlen => ?_, quantize_expand⟩
  · obtain ⟨out, hcomb⟩ := comb_of_even heven
    exact ⟨out, hcomb, split_of_comb hcomb, comb_length hcomb⟩
  · have hg : h * w ≤ g.length := by rw [hlen, Nat.mul_comm]
    obtain ⟨out, hcomb⟩ := comb_of_even (pad_length_even d hg)
    exact ⟨out, hcomb, split_of_comb hcomb⟩

end Sys2Proof.Machine
end

section
/-! ## The steps of the packer's operations -/

namespace Sys2Proof.Machine

/-! ### PIXCNT (R87) -/

/-- R83: the product of a 16-bit height and a padded width of at most 2^16 fits RESULT. -/
theorem pixelCount_lt (w h : Dim) : pixelCount w h < 2 ^ 32 := by
  have hw : paddedWidth w ≤ 2 ^ 16 := by
    have := w.isLt
    unfold paddedWidth
    omega
  calc pixelCount w h ≤ h.toNat * 2 ^ 16 := Nat.mul_le_mul_left _ hw
    _ < 2 ^ 16 * 2 ^ 16 := Nat.mul_lt_mul_of_pos_right h.isLt (by decide)
    _ = 2 ^ 32 := by decide

/-- No start-time check concerns PIXCNT (R168). -/
theorem startCheck_pixcnt (b : Block) : startCheck 0 b = none :=
  (startCheck_eq_none_iff 0 b).2 (by simp [usesImage])

theorem exec_pixcnt_check {s : State} (hphase : s.blk.phase = .check) :
    exec .pixcnt s = .next { s with blk := { s.blk with
      phase := .done
      res := { s.blk.res with
        outLen := 0, result := BitVec.ofNat 32 (pixelCount s.blk.cfg.width s.blk.cfg.height) } } } := by
  have hstep : engineStep 0 (runStep 0) s.blk = stepCheck 0 s.blk := engineStep_check hphase
  refine (exec_decodeOp 0 s).trans ?_
  rw [State.onBlock, hstep, stepCheck, startCheck_pixcnt]
  rfl

/-- Settles O19: no check concerns PIXCNT, and its product fits RESULT. -/
theorem pixcntGivesPaddedPixelCount : Obligations.PixcntGivesPaddedPixelCount := by
  unfold Obligations.PixcntGivesPaddedPixelCount
  intro s hphase
  refine ⟨_, exec_pixcnt_check hphase, ?_⟩
  rw [BitVec.toNat_ofNat, Nat.mod_eq_of_lt (pixelCount_lt _ _)]
  rfl

/-! ### RUN steps -/

/-- In RUN, the operation with number `op` executes as its two stages, whatever stands in OP. -/
theorem exec_decodeOp_of_run (op : OpNum) {s : State} (hphase : s.blk.phase = .run) {t : Block}
    (ht : runStep op s.blk = t) : exec (decodeOp op) s = .next { s with blk := t } := by
  rw [exec_decodeOp, State.onBlock, engineStep_run hphase, ht]

theorem highNibble_setWidth_eq (e : Byte) : (highNibble e).setWidth 8 = BitVec.ofNat 8 (e.toNat / 16) := by
  rw [← highNibble_toNat, BitVec.ofNat_toNat]

theorem lowNibble_setWidth_eq (e : Byte) : (lowNibble e).setWidth 8 = BitVec.ofNat 8 (e.toNat % 16) := by
  rw [← lowNibble_toNat, BitVec.ofNat_toNat]

/-- Settles O21: source QPAD gives the grid nibble or `End`, and sink COMBINE holds it, pairs it or
completes. -/
theorem packRunSteps : Obligations.PackRunSteps := by
  unfold Obligations.PackRunSteps
  intro s hphase
  refine ⟨fun hrow hheld => ?_, fun hrow hheld hroom => ?_, fun hrow hheld => ?_⟩
  · exact exec_decodeOp_of_run 1 hphase
      ((runStages_nib (sourceQpad_nib hrow)).trans (sinkCombine_hold hheld))
  · exact exec_decodeOp_of_run 1 hphase
      ((runStages_nib (sourceQpad_nib hrow)).trans (sinkCombine_pair hheld hroom))
  · exact exec_decodeOp_of_run 1 hphase
      ((runStages_fin (sourceQpad_fin hrow)).trans (sinkCombine_fin hheld))

/-- Settles O22: source QPAD gives the grid nibble or `End`, and sink NIB stores it or completes. -/
theorem qpadRunSteps : Obligations.QpadRunSteps := by
  unfold Obligations.QpadRunSteps
  intro s hphase
  refine ⟨fun hrow hroom => ?_, fun hrow => ?_⟩
  · rw [BitVec.ofNat_toNat]
    exact exec_decodeOp_of_run 2 hphase
      ((runStages_nib (sourceQpad_nib hrow)).trans (sinkNib_nib hroom))
  · exact exec_decodeOp_of_run 2 hphase ((runStages_fin (sourceQpad_fin hrow)).trans sinkNib_fin)

/-- Settles O24: source NIB gives the element's nibble or `End`, and sink COMBINE holds it, pairs it or
completes. -/
theorem combineRunSteps : Obligations.CombineRunSteps := by
  unfold Obligations.CombineRunSteps
  intro s hphase
  refine ⟨fun hmore hsmall hheld => ?_, fun hmore hsmall hheld hroom => ?_, fun hend hheld => ?_⟩
  · exact exec_decodeOp_of_run 3 hphase
      ((runStages_nib (sourceNib_nib hmore hsmall)).trans (sinkCombine_hold hheld))
  · exact exec_decodeOp_of_run 3 hphase
      ((runStages_nib (sourceNib_nib hmore hsmall)).trans (sinkCombine_pair hheld hroom))
  · exact exec_decodeOp_of_run 3 hphase
      ((runStages_fin (sourceNib_fin hend)).trans (sinkCombine_fin hheld))

/-- Settles O25: source SPLIT gives the high half, the low half or `End`, and sink NIB stores it or
completes. -/
theorem unpackRunSteps : Obligations.UnpackRunSteps := by
  unfold Obligations.UnpackRunSteps
  intro s hphase
  refine ⟨fun hhigh hmore hroom => ?_, fun hlow hroom => ?_, fun hhigh hend => ?_⟩
  · rw [← highNibble_setWidth_eq]
    exact exec_decodeOp_of_run 4 hphase
      ((runStages_nib (sourceSplit_high hhigh hmore)).trans (sinkNib_nib hroom))
  · rw [← lowNibble_setWidth_eq]
    exact exec_decodeOp_of_run 4 hphase
      ((runStages_nib (sourceSplit_low hlow)).trans (sinkNib_nib hroom))
  · exact exec_decodeOp_of_run 4 hphase ((runStages_fin (sourceSplit_fin hhigh hend)).trans sinkNib_fin)

end Sys2Proof.Machine
end

section
/-! ## An operation in RUN is its sink stage fed with the nibbles of its source stage -/

namespace Sys2Proof.Machine

variable {b c : Block} {op : OpNum} {v w : List Nibble} {dp : Datapath}
  {source : Block → Fetched} {sink : Token → Block → Block} {last : Fetched}

/-! ### The engine alone -/

theorem engineEvent_eq_engineNext (s : State) : engineEvent s = .next { s with blk := s.blk.engineNext } := by
  by_cases hbusy : s.blk.phase = .check ∨ s.blk.phase = .run
  · exact engineEvent_engineNext hbusy
  · have hquiet : s.blk.phase = .idle ∨ s.blk.phase = .done := by
      cases hp : s.blk.phase <;> simp [hp] at hbusy ⊢
    rw [engineEvent_quiet hquiet, Block.engineNext, engineStep_quiet hquiet]

/-- With no event waiting, a run of the machine is a run of the engine (R149). -/
theorem core_run_engine {s : State} (hport : s.port = []) (n : Nat) :
    Host.Core.run Sys2Proof.core n s = .next { s with blk := Block.engineNext^[n] s.blk } := by
  induction n generalizing s with
  | zero => rfl
  | succ n ih =>
    have hstep : Sys2Proof.core.step s = .next { s with blk := s.blk.engineNext } :=
      (step_idle hport).trans (engineEvent_eq_engineNext s)
    have hrun : Host.Core.run Sys2Proof.core (n + 1) s =
        Host.Core.run Sys2Proof.core n { s with blk := s.blk.engineNext } := by
      simp only [Host.Core.run, hstep]
    exact hrun.trans (ih hport)

/-! ### The registers of the source stages -/

/-- `b` with the registers of the source stages (R13) that `dp` holds. -/
def Block.withSource (dp : Datapath) (b : Block) : Block :=
  { b with dp := { b.dp with
    iptr := dp.iptr, col := dp.col, row := dp.row, sph := dp.sph, rep := dp.rep, dval := dp.dval } }

theorem Block.withSource_self (b : Block) : b.withSource b.dp = b := rfl

/-- `c` has what the source stages read but do not change: the configuration and IBUF of `b`. -/
structure Block.SameInput (b c : Block) : Prop where
  cfg : c.cfg = b.cfg := by rfl
  ibuf : c.ibuf = b.ibuf := by rfl
  ibufEpoch : c.ibufEpoch = b.ibufEpoch := by rfl

/-- The source stages look at the entry of `b` their own IPTR points to. -/
theorem Block.SameInput.nextElement (h : b.SameInput c) (dp : Datapath) :
    (c.withSource dp).nextElement = b.ibufEntry dp.iptr := by
  simp only [Block.nextElement, Block.ibufEntry, Block.withSource, h.ibuf, h.ibufEpoch]

/-! ### The sink stages leave the source's registers alone and do not look at them -/

theorem sinkStage_cases (hop : HasStages op) : sinkStage op = sinkNib ∨ sinkStage op = sinkCombine ∨
    sinkStage op = sinkRle ∨ sinkStage op = sinkRleCount := by
  rcases hop with rfl | rfl | rfl | rfl | rfl | rfl | rfl | rfl <;> simp [sinkStage]

theorem Block.emit_withSource (x : Byte) (f : Block → Block) (b : Block)
    (hf : ∀ c : Block, f (c.withSource dp) = (f c).withSource dp) :
    (b.withSource dp).emit x f = (b.emit x f).withSource dp := by
  by_cases hfull : b.dp.optr = b.params.obufDepth
  · rw [Block.emit_full hfull, Block.emit_full (b := b.withSource dp) hfull]
    rfl
  · rw [Block.emit_room hfull, Block.emit_room (b := b.withSource dp) hfull, ← hf]
    rfl

theorem sinkNib_withSource (tok : Token) (b : Block) :
    sinkNib tok (b.withSource dp) = (sinkNib tok b).withSource dp := by
  cases tok with
  | nib x => exact Block.emit_withSource _ id b fun _ => rfl
  | fin => rfl

theorem sinkCombine_withSource (tok : Token) (b : Block) :
    sinkCombine tok (b.withSource dp) = (sinkCombine tok b).withSource dp := by
  cases tok with
  | nib x =>
    simp only [sinkCombine, apply_ite (Block.withSource dp)]
    rw [← Block.emit_withSource]
    · rfl
    · exact fun _ => rfl
  | fin =>
    simp only [sinkCombine, apply_ite (Block.withSource dp)]
    rfl

theorem sinkRle_withSource (tok : Token) (b : Block) :
    sinkRle tok (b.withSource dp) = (sinkRle tok b).withSource dp := by
  cases tok with
  | nib x =>
    simp only [sinkRle, apply_ite (Block.withSource dp)]
    rw [← Block.emit_withSource]
    · rfl
    · exact fun _ => rfl
  | fin =>
    simp only [sinkRle, apply_ite (Block.withSource dp)]
    rw [← Block.emit_withSource]
    · rfl
    · exact fun _ => rfl

theorem sinkRleCount_withSource (tok : Token) (b : Block) :
    sinkRleCount tok (b.withSource dp) = (sinkRleCount tok b).withSource dp := by
  cases tok with
  | nib x =>
    simp only [sinkRleCount, apply_ite (Block.withSource dp)]
    rfl
  | fin =>
    simp only [sinkRleCount, apply_ite (Block.withSource dp)]
    rfl

theorem sinkStage_withSource (hop : HasStages op) (tok : Token) (b : Block) :
    sinkStage op tok (b.withSource dp) = (sinkStage op tok b).withSource dp := by
  rcases sinkStage_cases hop with h | h | h | h <;> rw [h]
  · exact sinkNib_withSource tok b
  · exact sinkCombine_withSource tok b
  · exact sinkRle_withSource tok b
  · exact sinkRleCount_withSource tok b

theorem sinkStage_frame (hop : HasStages op) (tok : Token) (b : Block) : b.EmitFrame (sinkStage op tok b) := by
  rcases sinkStage_cases hop with h | h | h | h <;> rw [h]
  · exact sinkNib_frame tok b
  · exact sinkCombine_frame tok b
  · exact sinkRle_frame tok b
  · exact .inl (sinkRleCount_frame tok b)

theorem Block.SameInput.afterSink (h : b.SameInput c) (hop : HasStages op) (tok : Token) :
    b.SameInput (sinkStage op tok c) := by
  obtain ⟨hcfg, hibuf, hepoch, -, -⟩ := (sinkStage_frame hop tok c).frame
  exact ⟨hcfg.trans h.cfg, hibuf.trans h.ibuf, hepoch.trans h.ibufEpoch⟩

/-! ### The stages fed with a stream -/

/-- A nibble stream given to a sink stage, without `End`. -/
def feedNibbles (sink : Token → Block → Block) : List Nibble → Block → Block
  | [], b => b
  | x :: v, b => feedNibbles sink v (sink (.nib x) b)

/-- The stream of R120 is its nibbles and then `End`. -/
theorem feedStream_eq (sink : Token → Block → Block) (v : List Nibble) (b : Block) :
    feedStream sink v b = sink .fin (feedNibbles sink v b) := by
  induction v generalizing b with
  | nil => rfl
  | cons x v ih => exact ih _

/-- A sink stage that has ended the operation does not take it up again. -/
theorem feedNibbles_phase (hop : HasStages op) (h : (feedNibbles (sinkStage op) v c).phase = .run) :
    c.phase = .run := by
  induction v generalizing c with
  | nil => exact h
  | cons x v ih =>
    have hnext := ih h
    rcases sinkStage_nib_ends_or_keeps hop x c with hdone | hkeeps
    · simp [hdone] at hnext
    · exact hkeeps.phase.symm.trans hnext

theorem Block.SameInput.afterNibbles (h : b.SameInput c) (hop : HasStages op) (v : List Nibble) :
    b.SameInput (feedNibbles (sinkStage op) v c) := by
  induction v generalizing c with
  | nil => exact h
  | cons x v ih => exact ih (h.afterSink hop _)

/-- From the registers `dp` on, with the configuration and IBUF of `b`, the source stage answers the nibbles
of the stream and then `last`, whatever the sink stage makes of them in between. -/
def Produces (source : Block → Fetched) (last : Fetched) (b : Block) : List Nibble → Datapath → Prop
  | [], dp => ∀ c, b.SameInput c → source (c.withSource dp) = last
  | x :: v, dp => ∃ dp', (∀ c, b.SameInput c → source (c.withSource dp) = .nib x (c.withSource dp')) ∧
      Produces source last b v dp'

theorem Block.engineNext_run (hphase : b.phase = .run) (hop : b.cfg.op = op)
    (hstages : runStep op = runStages source sink) : b.engineNext = runStages source sink b := by
  rw [Block.engineNext, engineStep_run hphase, hop, hstages]

/-- As long as the sink stage goes on, each engine step gives it one more nibble of the source's stream. -/
theorem engineNext_nibbles (hop : HasStages op) (hstages : runStep op = runStages source (sinkStage op))
    (hcfg : b.cfg.op = op) (hc : b.SameInput c)
    (hphase : (feedNibbles (sinkStage op) v c).phase = .run) (h : Produces source last b (v ++ w) dp) :
    ∃ dp', Block.engineNext^[v.length] (c.withSource dp) =
        (feedNibbles (sinkStage op) v c).withSource dp' ∧ Produces source last b w dp' := by
  induction v generalizing c dp with
  | nil => exact ⟨dp, rfl, h⟩
  | cons x v ih =>
    obtain ⟨dp', hsource, hrest⟩ := h
    have hrun : c.phase = .run := feedNibbles_phase (v := x :: v) hop hphase
    have hstep : (c.withSource dp).engineNext = (sinkStage op (.nib x) c).withSource dp' := by
      rw [Block.engineNext_run (b := c.withSource dp) hrun ((congrArg _ hc.cfg).trans hcfg) hstages,
        runStages_nib (hsource c hc), sinkStage_withSource hop]
    rw [List.length_cons, Function.iterate_succ_apply, hstep]
    exact ih (hc.afterSink hop _) hphase hrest

/-- A RUN that meets no error is the sink stage fed with the whole stream of the source and `End`. -/
theorem engineNext_stream (hop : HasStages op) (hstages : runStep op = runStages source (sinkStage op))
    (hcfg : b.cfg.op = op) (hphase : (feedNibbles (sinkStage op) v b).phase = .run)
    (h : Produces source .fin b v b.dp) :
    ∃ dp, Block.engineNext^[v.length + 1] b = (feedStream (sinkStage op) v b).withSource dp := by
  have hsame : b.SameInput (feedNibbles (sinkStage op) v b) := Block.SameInput.afterNibbles {} hop v
  obtain ⟨dp, hnibbles, hend⟩ :=
    engineNext_nibbles hop hstages hcfg {} hphase ((List.append_nil v).symm ▸ h)
  rw [Block.withSource_self] at hnibbles
  refine ⟨dp, ?_⟩
  rw [Function.iterate_succ_apply', hnibbles,
    Block.engineNext_run (b := Block.withSource dp _) hphase ((congrArg _ hsame.cfg).trans hcfg) hstages,
    runStages_fin (hend _ hsame), sinkStage_withSource hop, feedStream_eq]

end Sys2Proof.Machine
end

section
/-! ## What the packer's sink stages write, and how a launched operation ends -/

namespace Sys2Proof.Machine

variable {b c t : Block} {v : List Nibble} {out more : List Byte}
  {source : Block → Fetched}

/-! ### Output written from OPTR on -/

/-- `t` is `b` after the bytes of `out` have been emitted, with no error and nothing else stored (R47). -/
structure Block.Wrote (b : Block) (out : List Byte) (t : Block) : Prop where
  phase : t.phase = b.phase
  res : t.res = b.res
  params : t.params = b.params
  optr : t.dp.optr.toNat = b.dp.optr.toNat + out.length
  written : ∀ i (h : i < out.length), t.obuf.read? (b.dp.optr.toNat + i) = some out[i]
  outside : ∀ a, a < b.dp.optr.toNat ∨ b.dp.optr.toNat + out.length ≤ a → t.obuf.read? a = b.obuf.read? a

/-- OBUF has room for `n` more elements. -/
def Block.HasRoom (b : Block) (n : Nat) : Prop := b.dp.optr.toNat + n ≤ b.params.obufDepth.toNat

theorem Block.HasRoom.optr_ne {n : Nat} (h : b.HasRoom (n + 1)) : b.dp.optr ≠ b.params.obufDepth := by
  unfold Block.HasRoom at h
  exact BitVec.toNat_ne.2 (by omega)

theorem Block.hasRoom_of_zero {n : Nat} (hoptr : b.dp.optr = 0) (hfits : n ≤ b.params.obufDepth.toNat) :
    b.HasRoom n := by
  simpa [Block.HasRoom, hoptr] using hfits

theorem Block.Wrote.hasRoom (h : b.Wrote out t) {n : Nat} (hroom : b.HasRoom (n + out.length)) :
    t.HasRoom n := by
  unfold Block.HasRoom at *
  rw [h.optr, h.params]
  omega

theorem Block.Wrote.none (hphase : t.phase = b.phase := by rfl) (hres : t.res = b.res := by rfl)
    (hparams : t.params = b.params := by rfl) (hoptr : t.dp.optr = b.dp.optr := by rfl)
    (hobuf : t.obuf = b.obuf := by rfl) : b.Wrote [] t :=
  ⟨hphase, hres, hparams, congrArg _ hoptr, fun _ h => absurd h (Nat.not_lt_zero _), fun _ _ => by rw [hobuf]⟩

theorem Block.Wrote.push (v : Byte) (hroom : b.HasRoom 1) : b.Wrote [v] (b.push v) where
  phase := rfl
  res := rfl
  params := rfl
  optr := (toNat_succ_of_le_of_ne (BitVec.le_def.2 (Nat.le_of_succ_le hroom)) hroom.optr_ne).2
  written i hi := by
    obtain rfl : i = 0 := by simpa using hi
    exact Memory.read?_write_same ..
  outside a ha := Memory.read?_write_ne _ _ (by simp only [List.length_singleton] at ha; omega)

theorem Block.Wrote.trans (h : b.Wrote out c) (h' : c.Wrote more t) : b.Wrote (out ++ more) t where
  phase := h'.phase.trans h.phase
  res := h'.res.trans h.res
  params := h'.params.trans h.params
  optr := by rw [h'.optr, h.optr, List.length_append, Nat.add_assoc]
  written i hi := by
    rw [List.length_append] at hi
    by_cases hfirst : i < out.length
    · rw [h'.outside _ (.inl (by rw [h.optr]; omega)), h.written i hfirst, List.getElem_append_left hfirst]
    · have hplace : b.dp.optr.toNat + i = c.dp.optr.toNat + (i - out.length) := by rw [h.optr]; omega
      rw [hplace, h'.written _ (by omega), List.getElem_append_right (Nat.le_of_not_lt hfirst)]
  outside a ha := by
    rw [List.length_append] at ha
    rw [h'.outside a (by rw [h.optr]; omega), h.outside a (by omega)]

/-! ### The sink stages NIB and COMBINE -/

/-- Sink NIB writes its stream, one nibble per entry (R95). -/
theorem feedNibbles_sinkNib (hroom : b.HasRoom v.length) :
    b.Wrote (v.map (·.setWidth 8)) (feedNibbles sinkNib v b) := by
  induction v generalizing b with
  | nil => exact .none
  | cons x v ih =>
    have hpush : b.Wrote [x.setWidth 8] (b.push (x.setWidth 8)) :=
      .push _ (Nat.le_trans (Nat.add_le_add_left (Nat.le_add_left 1 _) _) hroom)
    rw [feedNibbles, sinkNib_nib hroom.optr_ne]
    exact hpush.trans (ih (hpush.hasRoom hroom))

/-- Of two nibbles sink COMBINE holds the first and writes the byte of both with the second. -/
theorem sinkCombine_two {x y : Nibble} (hheld : b.dp.holdv = false) (hroom : b.HasRoom 1) :
    b.Wrote [combineNibbles x y] (sinkCombine (.nib y) (sinkCombine (.nib x) b)) ∧
    (sinkCombine (.nib y) (sinkCombine (.nib x) b)).dp.holdv = false := by
  obtain ⟨hphase, hres, hparams, hoptr, hwritten, houtside⟩ := Block.Wrote.push (combineNibbles x y) hroom
  rw [sinkCombine_hold hheld,
    sinkCombine_pair (b := { b with dp := { b.dp with hold := x, holdv := true } }) rfl hroom.optr_ne]
  exact ⟨⟨hphase, hres, hparams, hoptr, hwritten, houtside⟩, rfl⟩

/-- Sink COMBINE, with no nibble held, writes COMB of its stream and holds none again (R96). -/
theorem feedNibbles_sinkCombine (hcomb : comb v = some out) (hheld : b.dp.holdv = false)
    (hroom : b.HasRoom out.length) :
    b.Wrote out (feedNibbles sinkCombine v b) ∧ (feedNibbles sinkCombine v b).dp.holdv = false := by
  induction v using comb.induct generalizing b out with
  | case1 =>
    cases hcomb
    exact ⟨.none, hheld⟩
  | case2 x => cases hcomb
  | case3 x y v ih =>
    obtain ⟨rest, hrest, rfl⟩ := comb_pair.1 hcomb
    have hone : b.HasRoom 1 := Nat.le_trans (Nat.add_le_add_left (Nat.le_add_left 1 _) _) hroom
    obtain ⟨hpair, hfree⟩ := sinkCombine_two (x := x) (y := y) hheld hone
    obtain ⟨hwrote, hfree'⟩ := ih hrest hfree (hpair.hasRoom hroom)
    exact ⟨hpair.trans hwrote, hfree'⟩

/-! ### From launch to the end -/

/-- `b` moved to RUN, as a CHECK step leaves it whose checks pass (R152). -/
def Block.entered (b : Block) : Block := { b with phase := .run }

theorem Block.engineNext_check (hphase : b.phase = .check) (hop : b.cfg.op ≠ 0)
    (hcheck : startCheck b.cfg.op b = none) : b.engineNext = b.entered := by
  rw [Block.engineNext, engineStep_check hphase, stepCheck, hcheck]
  exact if_neg hop

/-- The engine changes neither the configuration, the parameters nor IBUF. -/
theorem Block.engineNext_iterate_frame (n : Nat) (b : Block) :
    b.SameInput (Block.engineNext^[n] b) ∧ (Block.engineNext^[n] b).params = b.params := by
  induction n with
  | zero => exact ⟨{}, rfl⟩
  | succ n ih =>
    obtain ⟨hsame, hparams⟩ := ih
    rw [Function.iterate_succ_apply']
    generalize Block.engineNext^[n] b = c at hsame hparams
    obtain ⟨hcfg, hibuf, hepoch, hparams', -⟩ := (engineStep_frame c.cfg.op (runStep_frame c.cfg.op c)).frame
    exact ⟨⟨hcfg.trans hsame.cfg, hibuf.trans hsame.ibuf, hepoch.trans hsame.ibufEpoch⟩,
      hparams'.trans hparams⟩

/-- A launched operation that has written `out` and completes shows it to the host (R153, R29). -/
theorem Block.Wrote.shows (h : b.Wrote out t) (hoptr : b.dp.optr = 0) (hres : b.res = .cleared)
    (hroom : b.HasRoom out.length) (result : Word) (dp : Datapath) :
    ((t.complete result).withSource dp).Shows (.success out result) := by
  have hzero : b.dp.optr.toNat = 0 := by rw [hoptr]; rfl
  have hlen : t.dp.optr.toNat = out.length := by rw [h.optr, hzero, Nat.zero_add]
  have hfits : out.length ≤ t.params.obufDepth.toNat := by
    unfold Block.HasRoom at hroom
    rw [h.params]
    omega
  have houtLen : t.dp.optr = BitVec.ofNat 32 out.length := by
    rw [← hlen, BitVec.ofNat_toNat, BitVec.setWidth_eq]
  refine ⟨rfl, ?_, hfits, fun i hi => ?_⟩
  · show ({ t.res with outLen := t.dp.optr, result := result } : ResultRegs) = _
    rw [h.res, hres, houtLen]
    rfl
  · have hi' : (BitVec.ofNat 32 i).toNat = i := by
      rw [BitVec.toNat_ofNat, Nat.mod_eq_of_lt (by omega)]
    have hvalid : BitVec.ofNat 32 i < t.dp.optr := by rwa [BitVec.lt_def, hi', hlen]
    have herr : t.res.err = false := by rw [h.res, hres]; rfl
    have hread : t.obuf.read? (BitVec.ofNat 32 i).toNat = some out[i] := by
      rw [hi', ← h.written i hi, hzero, Nat.zero_add]
    exact (if_pos ⟨rfl, herr, hvalid⟩).trans hread

theorem State.Launched.dp_eq {s : State} (hs : s.Launched) : s.blk.dp = .zero := by
  obtain ⟨-, hdp, -, -⟩ := hs
  exact hdp

section Launched

variable {s : State} (hs : s.Launched) (hop : HasStages s.blk.cfg.op)
  (hcheck : startCheck s.blk.cfg.op s.blk = none)
  (hsource : Produces source .fin s.blk.entered v s.blk.dp)
include hs hop hcheck hsource

/-- A launched operation whose source stage produces `v` and whose sink stage writes `out` for it and
completes ends after its CHECK step and one RUN step for each nibble and for `End` (R154). -/
theorem endsWith_of_wrote {result : Word}
    (hstages : runStep s.blk.cfg.op = runStages source (sinkStage s.blk.cfg.op))
    (hfits : out.length ≤ s.blk.params.obufDepth.toNat)
    (hwrote : s.blk.entered.Wrote out (feedNibbles (sinkStage s.blk.cfg.op) v s.blk.entered))
    (hend : sinkStage s.blk.cfg.op .fin (feedNibbles (sinkStage s.blk.cfg.op) v s.blk.entered) =
      (feedNibbles (sinkStage s.blk.cfg.op) v s.blk.entered).complete result) :
    EndsWith (2 + v.length) s (.success out result) := by
  obtain ⟨hphase, hdp, hres, hport⟩ := hs
  have hne : s.blk.cfg.op ≠ 0 := by
    intro h
    simp [HasStages, h] at hop
  have hoptr : s.blk.entered.dp.optr = 0 := congrArg _ hdp
  obtain ⟨dp, hrun⟩ := engineNext_stream (b := s.blk.entered) hop hstages rfl hwrote.phase hsource
  have hsteps : 2 + v.length = v.length + 1 + 1 := by omega
  obtain ⟨hsame, hparams⟩ := Block.engineNext_iterate_frame (2 + v.length) s.blk
  refine ⟨_, core_run_engine hport _, hsame.cfg, hparams, hsame.ibuf, hsame.ibufEpoch, ?_⟩
  rw [hsteps, Function.iterate_succ_apply, Block.engineNext_check hphase hne hcheck, hrun, feedStream_eq, hend]
  exact hwrote.shows hoptr hres (Block.hasRoom_of_zero hoptr hfits) result dp

/-- The operations with sink NIB write the source's stream, one nibble per entry (R95). -/
theorem endsWith_sinkNib (hsink : sinkStage s.blk.cfg.op = sinkNib)
    (hstages : runStep s.blk.cfg.op = runStages source sinkNib)
    (hfits : v.length ≤ s.blk.params.obufDepth.toNat) :
    EndsWith (2 + v.length) s (.success (v.map (·.setWidth 8)) 0) := by
  have hoptr : s.blk.entered.dp.optr = 0 := congrArg _ hs.dp_eq
  have hwrote := feedNibbles_sinkNib (Block.hasRoom_of_zero hoptr hfits)
  rw [← hsink] at hstages hwrote
  refine endsWith_of_wrote hs hop hcheck hsource hstages (by rwa [List.length_map]) hwrote ?_
  rw [hsink, sinkNib_fin]

/-- The operations with sink COMBINE write COMB of the source's stream (R96). -/
theorem endsWith_sinkCombine (hsink : sinkStage s.blk.cfg.op = sinkCombine)
    (hstages : runStep s.blk.cfg.op = runStages source sinkCombine) (hcomb : comb v = some out)
    (hfits : out.length ≤ s.blk.params.obufDepth.toNat) :
    EndsWith (2 + v.length) s (.success out 0) := by
  have hoptr : s.blk.entered.dp.optr = 0 := congrArg _ hs.dp_eq
  have hheld : s.blk.entered.dp.holdv = false := congrArg _ hs.dp_eq
  obtain ⟨hwrote, hfree⟩ := feedNibbles_sinkCombine hcomb hheld (Block.hasRoom_of_zero hoptr hfits)
  rw [← hsink] at hstages hwrote hfree
  refine endsWith_of_wrote hs hop hcheck hsource hstages hfits hwrote ?_
  rw [hsink] at hfree ⊢
  exact sinkCombine_fin hfree

end Launched

end Sys2Proof.Machine
end

section
/-! ## The streams of the packer's source stages, and its operations as wholes -/

namespace Sys2Proof.Machine

variable {b c : Block} {dp : Datapath} {k : Nat}

/-! ### The elements of the input (R93, R94) -/

theorem Block.inputElements_length (b : Block) : b.inputElements.length = b.cfg.inLen.toNat := by
  simp [Block.inputElements]

theorem Block.inputElements_getElem? {i : Word} (hi : i.toNat < b.cfg.inLen.toNat) :
    b.inputElements[i.toNat]? = some (b.ibufEntry i) := by
  rw [Block.inputElements, List.getElem?_map, List.getElem?_range hi, Option.map_some, BitVec.ofNat_toNat,
    BitVec.setWidth_eq]

/-- The elements from an index within the input on are its entry and those after it. -/
theorem Block.inputElements_drop {i : Word} (hi : i.toNat < b.cfg.inLen.toNat) :
    b.inputElements.drop i.toNat = b.ibufEntry i :: b.inputElements.drop (i.toNat + 1) := by
  obtain ⟨hlt, hget⟩ := List.getElem?_eq_some_iff.1 (Block.inputElements_getElem? hi)
  rw [List.drop_eq_getElem_cons hlt, hget]

theorem Block.inputElements_drop_end {i : Word} (hi : i = b.cfg.inLen) : b.inputElements.drop i.toNat = [] :=
  List.drop_eq_nil_of_le (by rw [b.inputElements_length, hi])

theorem Block.ibufEntry_mem {i : Word} (hi : i.toNat < b.cfg.inLen.toNat) :
    b.ibufEntry i ∈ b.inputElements := List.mem_of_getElem? (Block.inputElements_getElem? hi)

/-- A pointer with more than `k` elements left is before the end and advances without wrapping. -/
theorem pointer_advance {i n : Word} (hleft : i.toNat + (k + 1) = n.toNat) :
    i.toNat < n.toNat ∧ i ≠ n ∧ (i + 1).toNat = i.toNat + 1 ∧ (i + 1).toNat + k = n.toNat := by
  have hne : i ≠ n := BitVec.toNat_ne.2 (by omega)
  obtain ⟨hlt, hsucc⟩ := toNat_succ_of_le_of_ne (BitVec.le_def.2 (by omega)) hne
  exact ⟨hlt, hne, hsucc, by omega⟩

/-- Source NIB produces the nibbles of the `k` elements left, none of which is above 15 (R93). -/
theorem sourceNib_produces (hsmall : ∀ e ∈ b.inputElements, e.toNat ≤ 15)
    (hleft : dp.iptr.toNat + k = b.cfg.inLen.toNat) :
    Produces sourceNib .fin b ((b.inputElements.drop dp.iptr.toNat).map lowNibble) dp := by
  induction k generalizing dp with
  | zero =>
    have hend : dp.iptr = b.cfg.inLen := BitVec.eq_of_toNat_eq hleft
    rw [Block.inputElements_drop_end hend]
    exact fun c hc => sourceNib_fin (hend.trans (congrArg _ hc.cfg).symm)
  | succ k ih =>
    obtain ⟨hlt, hne, hsucc, hrest⟩ := pointer_advance hleft
    rw [Block.inputElements_drop hlt, ← hsucc]
    refine ⟨{ dp with iptr := dp.iptr + 1 }, fun c hc => ?_,
      ih (dp := { dp with iptr := dp.iptr + 1 }) hrest⟩
    have hentry := hc.nextElement dp
    rw [← hentry]
    exact sourceNib_nib (hc.cfg ▸ hne) (hentry ▸ hsmall _ (Block.ibufEntry_mem hlt))

/-- Source SPLIT, before a high nibble, produces both nibbles of each of the `k` elements left (R94). -/
theorem sourceSplit_produces (hsph : dp.sph = false) (hleft : dp.iptr.toNat + k = b.cfg.inLen.toNat) :
    Produces sourceSplit .fin b (split (b.inputElements.drop dp.iptr.toNat)) dp := by
  induction k generalizing dp with
  | zero =>
    have hend : dp.iptr = b.cfg.inLen := BitVec.eq_of_toNat_eq hleft
    rw [Block.inputElements_drop_end hend]
    exact fun c hc => sourceSplit_fin hsph (hend.trans (congrArg _ hc.cfg).symm)
  | succ k ih =>
    obtain ⟨hlt, hne, hsucc, hrest⟩ := pointer_advance hleft
    rw [Block.inputElements_drop hlt, ← hsucc, split_cons]
    refine ⟨{ dp with sph := true }, fun c hc => ?_, { dp with sph := false, iptr := dp.iptr + 1 },
      fun c hc => ?_, ih (dp := { dp with sph := false, iptr := dp.iptr + 1 }) rfl hrest⟩
    · rw [← hc.nextElement dp]
      exact sourceSplit_high hsph (hc.cfg ▸ hne)
    · rw [← hc.nextElement dp]
      exact sourceSplit_low (b := c.withSource { dp with sph := true }) rfl

/-! ### The padded grid (R92) -/

/-- The next sample of a place on the padded grid: all of the rows above and those before it in its row. -/
def Block.SamplesTaken (b : Block) (dp : Datapath) : Prop :=
  dp.iptr.toNat = dp.row.toNat * b.cfg.width.toNat + min dp.col.toNat b.cfg.width.toNat

/-- The place of (ROW, COL) in the padded stream. -/
def Block.gridPlace (b : Block) (dp : Datapath) : Nat := dp.row.toNat * paddedWidth b.cfg.width + dp.col.toNat

theorem Block.GridLeft.row_lt (h : b.GridLeft (k + 1)) : b.dp.row.toNat < b.cfg.height.toNat := by
  obtain ⟨-, -, hplace⟩ := h
  by_contra hnot
  have := Nat.mul_le_mul_right (paddedWidth b.cfg.width) (Nat.le_of_not_lt hnot)
  unfold pixelCount at hplace
  omega

theorem Block.GridLeft.row_eq (h : b.GridLeft 0) : b.dp.row = b.cfg.height := by
  obtain ⟨hcol, hrow, hplace⟩ := h
  by_contra hne
  have := Nat.mul_le_mul_right (paddedWidth b.cfg.width) (toNat_succ_of_le_of_ne hrow hne).1
  rw [Nat.succ_mul] at this
  unfold pixelCount at hplace
  omega

/-- The grid nibble and the registers after it depend on the input and the source's registers only. -/
theorem Block.SameInput.gridNibble (h : b.SameInput c) (dp : Datapath) :
    (c.withSource dp).gridNibble = (b.withSource dp).gridNibble := by
  have hentry : (c.withSource dp).nextElement = (b.withSource dp).nextElement :=
    (h.nextElement dp).trans (Block.SameInput.nextElement {} dp).symm
  have hcfg : (c.withSource dp).cfg = (b.withSource dp).cfg := h.cfg
  rw [Block.gridNibble, hentry, hcfg]
  rfl

theorem Block.SameInput.afterGridNibble (h : b.SameInput c) (dp : Datapath) :
    ({ c.withSource dp with dp := (c.withSource dp).afterGridNibble } : Block) =
      c.withSource (b.withSource dp).afterGridNibble := by
  obtain ⟨hcfg, -, -⟩ := h
  cases c
  cases hcfg
  rfl

/-- One step along the padded grid leaves one nibble fewer (from `sourceQpad_usesOne`). -/
theorem Block.GridLeft.advance (h : b.GridLeft (k + 1)) (hphase : b.phase = .run) :
    ({ b with dp := b.afterGridNibble } : Block).GridLeft k := by
  have hrow : b.dp.row ≠ b.cfg.height := BitVec.toNat_ne.2 h.row_lt.ne
  have huses := sourceQpad_usesOne hphase h
  rw [sourceQpad_nib hrow] at huses
  obtain ⟨j, hj, -, hleft⟩ := huses
  obtain rfl : k = j := Nat.succ_inj.1 hj
  exact hleft

/-- One step along the padded grid: to the next row's first column, or to the next column. -/
theorem Block.GridLeft.afterGridNibble_cases (h : b.GridLeft (k + 1)) :
    b.dp.col.toNat + 1 = paddedWidth b.cfg.width ∧ b.afterGridNibble.row.toNat = b.dp.row.toNat + 1 ∧
      b.afterGridNibble.col.toNat = 0 ∨
    b.dp.col.toNat + 1 < paddedWidth b.cfg.width ∧ b.afterGridNibble.row.toNat = b.dp.row.toNat ∧
      b.afterGridNibble.col.toNat = b.dp.col.toNat + 1 := by
  have hrow : b.dp.row ≠ b.cfg.height := BitVec.toNat_ne.2 h.row_lt.ne
  obtain ⟨hcol, hrowle, -⟩ := h
  by_cases hlast : b.dp.col.toNat + 1 = paddedWidth b.cfg.width
  · have hrow' : b.afterGridNibble.row = b.dp.row + 1 := if_pos hlast
    have hcol' : b.afterGridNibble.col = 0 := if_pos hlast
    exact .inl ⟨hlast, by rw [hrow', (toNat_succ_of_le_of_ne hrowle hrow).2], by rw [hcol']; rfl⟩
  · have hrow' : b.afterGridNibble.row = b.dp.row := if_neg hlast
    have hcol' : b.afterGridNibble.col = b.dp.col + 1 := if_neg hlast
    have hwidth := b.cfg.width.isLt
    have hcolsucc : (b.dp.col + 1).toNat = b.dp.col.toNat + 1 :=
      BitVec.toNat_add_of_lt (by unfold paddedWidth at hcol hlast; simp; omega)
    exact .inr ⟨by omega, by rw [hrow'], by rw [hcol', hcolsucc]⟩

/-! ### The padded stream (R84, R92) -/

section Image

variable (hinLen : b.cfg.inLen.toNat = b.cfg.width.toNat * b.cfg.height.toNat)
include hinLen

theorem Block.samples_length :
    b.cfg.height.toNat * b.cfg.width.toNat ≤ (b.inputElements.map quantize).length := by
  rw [List.length_map, b.inputElements_length, hinLen, Nat.mul_comm]

theorem Block.paddedStream_length : b.paddedStream.length = pixelCount b.cfg.width b.cfg.height :=
  pad_length _ (Block.samples_length hinLen)

/-- A row that is not yet at its end has all its samples in the input. -/
theorem Block.GridLeft.row_in_input (h : b.GridLeft (k + 1)) :
    b.dp.row.toNat * b.cfg.width.toNat + b.cfg.width.toNat ≤ b.cfg.inLen.toNat := by
  rw [← Nat.succ_mul, hinLen, Nat.mul_comm b.cfg.width.toNat]
  exact Nat.mul_le_mul_right _ h.row_lt

/-- A real pixel takes a sample, the pad pixel after them takes none (R92). -/
theorem Block.SamplesTaken.afterGridNibble_iptr (htaken : b.SamplesTaken b.dp) (hleft : b.GridLeft (k + 1)) :
    b.afterGridNibble.iptr.toNat =
      b.dp.row.toNat * b.cfg.width.toNat + min (b.dp.col.toNat + 1) b.cfg.width.toNat := by
  have hsamples := hleft.row_in_input hinLen
  have hmax := b.cfg.inLen.isLt
  unfold Block.SamplesTaken at htaken
  by_cases hreal : b.dp.col < b.cfg.width
  · have hlt := BitVec.lt_def.1 hreal
    have hiptr : b.afterGridNibble.iptr = b.dp.iptr + 1 := if_pos hreal
    have hsucc : (b.dp.iptr + 1).toNat = b.dp.iptr.toNat + 1 := BitVec.toNat_add_of_lt (by simp; omega)
    rw [hiptr, hsucc]
    omega
  · have hge := BitVec.le_def.1 (BitVec.not_lt.1 hreal)
    have hiptr : b.afterGridNibble.iptr = b.dp.iptr := if_neg hreal
    rw [hiptr]
    omega

theorem Block.SamplesTaken.advance (htaken : b.SamplesTaken b.dp) (hleft : b.GridLeft (k + 1)) :
    b.SamplesTaken b.afterGridNibble := by
  rw [Block.SamplesTaken, htaken.afterGridNibble_iptr hinLen hleft]
  rcases hleft.afterGridNibble_cases with ⟨hlast, hrow, hcol⟩ | ⟨-, hrow, hcol⟩ <;> rw [hrow, hcol]
  · unfold paddedWidth at hlast
    rw [Nat.succ_mul]
    omega

/-- The padded stream has the grid nibble of (ROW, COL) at its place. -/
theorem Block.paddedStream_getElem? (hleft : b.GridLeft (k + 1)) (htaken : b.SamplesTaken b.dp) :
    b.paddedStream[b.gridPlace b.dp]? = some b.gridNibble := by
  have hrow := hleft.row_lt
  have hsamples := hleft.row_in_input hinLen
  have hlen := Block.samples_length hinLen
  obtain ⟨hcol, -, -⟩ := hleft
  unfold Block.gridPlace Block.paddedStream Block.gridNibble
  unfold Block.SamplesTaken at htaken
  by_cases hreal : b.dp.col < b.cfg.width
  · have hlt := BitVec.lt_def.1 hreal
    have hplace : b.dp.row.toNat * b.cfg.width.toNat + b.dp.col.toNat = b.dp.iptr.toNat := by omega
    rw [if_pos hreal]
    refine (pad_getElem?_real hlen hrow hlt).trans ?_
    rw [hplace, List.getElem?_map, Block.inputElements_getElem? (by omega)]
    rfl
  · have hge := BitVec.le_def.1 (BitVec.not_lt.1 hreal)
    unfold paddedWidth at hcol
    have hpad : b.dp.col.toNat = b.cfg.width.toNat := by omega
    rw [if_neg hreal, hpad]
    exact pad_getElem?_designator hlen hrow (by omega)

/-- Source QPAD produces the padded stream from its place on (R92). -/
theorem sourceQpad_produces (hphase : b.phase = .run) (hleft : (b.withSource dp).GridLeft k)
    (htaken : b.SamplesTaken dp) :
    Produces sourceQpad .fin b (b.paddedStream.drop (b.gridPlace dp)) dp := by
  induction k generalizing dp with
  | zero =>
    have hrow := hleft.row_eq
    obtain ⟨-, -, hplace⟩ := hleft
    rw [List.drop_eq_nil_of_le (by rw [Block.paddedStream_length hinLen]; exact hplace.ge)]
    intro c hc
    exact sourceQpad_fin (b := c.withSource dp) (hrow.trans (congrArg _ hc.cfg).symm)
  | succ k ih =>
    have hnext := hleft.advance hphase
    have hget : b.paddedStream[b.gridPlace dp]? = some (b.withSource dp).gridNibble :=
      Block.paddedStream_getElem? (b := b.withSource dp) hinLen hleft htaken
    obtain ⟨hlt, hget⟩ := List.getElem?_eq_some_iff.1 hget
    have hplace : b.gridPlace (b.withSource dp).afterGridNibble = b.gridPlace dp + 1 := by
      obtain ⟨-, -, hnow⟩ := hleft
      obtain ⟨-, -, hthen⟩ := hnext
      refine Nat.add_right_cancel (m := k) ?_
      rw [Nat.add_assoc, Nat.add_comm 1 k]
      exact hthen.trans hnow.symm
    have hrest := ih hnext (Block.SamplesTaken.advance (b := b.withSource dp) hinLen htaken hleft)
    rw [hplace] at hrest
    rw [List.drop_eq_getElem_cons hlt]
    refine ⟨(b.withSource dp).afterGridNibble, fun c hc => ?_, hrest⟩
    have hrow : (c.withSource dp).dp.row ≠ (c.withSource dp).cfg.height :=
      hc.cfg ▸ BitVec.toNat_ne.2 hleft.row_lt.ne
    rw [sourceQpad_nib hrow, hc.gridNibble, hc.afterGridNibble]
    exact congrArg (Fetched.nib · _) hget.symm

end Image

/-! ### The operations -/

/-- The start-time checks an image operation passes (R168). -/
theorem startCheck_image {op : OpNum} (himage : usesImage op = true) (htdesig : b.cfg.tdesig.toNat ≤ 15)
    (hwidth : b.cfg.width ≠ 0) (hheight : b.cfg.height ≠ 0)
    (hinLen : b.cfg.inLen.toNat = b.cfg.width.toNat * b.cfg.height.toNat)
    (hdepth : b.cfg.inLen ≤ b.params.ibufDepth) : startCheck op b = none := by
  have hop : op = 1 ∨ op = 2 ∨ op = 8 := by simpa [usesImage] using himage
  refine (startCheck_eq_none_iff op b).2
    ⟨?_, fun _ => ⟨htdesig, hwidth, hheight, hinLen⟩, fun h3 => ?_, fun _ => hdepth⟩
  · rcases hop with rfl | rfl | rfl <;> decide
  · simp [h3] at hop

/-- A launched image operation has the whole padded stream before it. -/
theorem State.Launched.produces_paddedStream {s : State} (hs : s.Launched) (hwidth : s.blk.cfg.width ≠ 0)
    (hinLen : s.blk.cfg.inLen.toNat = s.blk.cfg.width.toNat * s.blk.cfg.height.toNat) :
    Produces sourceQpad .fin s.blk.entered s.blk.paddedStream s.blk.dp := by
  have hdp := hs.dp_eq
  have htaken : s.blk.SamplesTaken s.blk.dp := by simp [Block.SamplesTaken, hdp, Datapath.zero]
  have hplace : s.blk.gridPlace s.blk.dp = 0 := by simp [Block.gridPlace, hdp, Datapath.zero]
  have hstream : Produces sourceQpad .fin s.blk.entered
      (s.blk.paddedStream.drop (s.blk.gridPlace s.blk.dp)) s.blk.dp :=
    sourceQpad_produces (b := s.blk.entered) hinLen rfl (Block.gridLeft_of_zero hdp hwidth) htaken
  rwa [hplace] at hstream

/-- A launched operation that reads Nibble elements has all of them before it. -/
theorem State.Launched.produces_nibbles {s : State} (hs : s.Launched)
    (hsmall : ∀ e ∈ s.blk.inputElements, e.toNat ≤ 15) :
    Produces sourceNib .fin s.blk.entered (s.blk.inputElements.map lowNibble) s.blk.dp := by
  have hzero : s.blk.dp.iptr.toNat = 0 := by rw [hs.dp_eq]; rfl
  have hstream : Produces sourceNib .fin s.blk.entered
      ((s.blk.inputElements.drop s.blk.dp.iptr.toNat).map lowNibble) s.blk.dp :=
    sourceNib_produces (b := s.blk.entered) hsmall (by rw [hzero]; exact Nat.zero_add _)
  rwa [hzero, List.drop_zero] at hstream

/-- A launched UNPACK has both halves of every element before it. -/
theorem State.Launched.produces_halves {s : State} (hs : s.Launched) :
    Produces sourceSplit .fin s.blk.entered (split s.blk.inputElements) s.blk.dp := by
  have hzero : s.blk.dp.iptr.toNat = 0 := by rw [hs.dp_eq]; rfl
  have hsph : s.blk.dp.sph = false := by rw [hs.dp_eq]; rfl
  have hstream : Produces sourceSplit .fin s.blk.entered
      (split (s.blk.inputElements.drop s.blk.dp.iptr.toNat)) s.blk.dp :=
    sourceSplit_produces (b := s.blk.entered) hsph (by rw [hzero]; exact Nat.zero_add _)
  rwa [hzero, List.drop_zero] at hstream

/-- Settles O32: source QPAD produces the padded stream, whose length is even, and sink COMBINE writes its
COMB. -/
theorem packWritesPackedImage : Obligations.PackWritesPackedImage := by
  unfold Obligations.PackWritesPackedImage
  intro s hs hop htdesig hwidth hheight hinLen hdepth
  have hcheck : startCheck s.blk.cfg.op s.blk = none :=
    startCheck_image (by simp [usesImage, hop]) htdesig hwidth hheight hinLen hdepth
  have hlen := Block.paddedStream_length hinLen
  obtain ⟨out, hcomb⟩ : ∃ out, comb s.blk.paddedStream = some out :=
    comb_of_even (pad_length_even _ (Block.samples_length hinLen))
  refine ⟨out, hcomb, (comb_length hcomb).trans hlen, fun hfits => ?_⟩
  rw [← hlen]
  exact endsWith_sinkCombine hs (by simp [HasStages, hop]) hcheck (hs.produces_paddedStream hwidth hinLen)
    (by rw [hop]; rfl) (by rw [hop]; rfl) hcomb hfits

/-- Settles O33: source QPAD produces the padded stream and sink NIB writes it. -/
theorem qpadWritesPaddedStream : Obligations.QpadWritesPaddedStream := by
  unfold Obligations.QpadWritesPaddedStream
  intro s hs hop htdesig hwidth hheight hinLen hdepth hfits
  have hcheck : startCheck s.blk.cfg.op s.blk = none :=
    startCheck_image (by simp [usesImage, hop]) htdesig hwidth hheight hinLen hdepth
  rw [← Block.paddedStream_length hinLen] at hfits ⊢
  exact endsWith_sinkNib hs (by simp [HasStages, hop]) hcheck (hs.produces_paddedStream hwidth hinLen)
    (by rw [hop]; rfl) (by rw [hop]; rfl) hfits

/-- Settles O34: source NIB produces the elements' nibbles and sink COMBINE writes their COMB; that there is
one makes IN_LEN even. -/
theorem combineWritesPairs : Obligations.CombineWritesPairs := by
  unfold Obligations.CombineWritesPairs
  intro s out hs hop hdepth hsmall hcomb hfits
  have hlen : (s.blk.inputElements.map lowNibble).length = s.blk.cfg.inLen.toNat := by
    rw [List.length_map, Block.inputElements_length]
  have heven := comb_length hcomb
  have hcheck : startCheck s.blk.cfg.op s.blk = none :=
    (startCheck_eq_none_iff ..).2
      ⟨by simp [hop], by simp [hop, usesImage], fun _ => by omega, fun _ => hdepth⟩
  rw [← hlen]
  exact endsWith_sinkCombine hs (by simp [HasStages, hop]) hcheck (hs.produces_nibbles hsmall)
    (by rw [hop]; rfl) (by rw [hop]; rfl) hcomb hfits

/-- Settles O35: source SPLIT produces both nibbles of every element and sink NIB writes them. -/
theorem unpackWritesBothNibbles : Obligations.UnpackWritesBothNibbles := by
  unfold Obligations.UnpackWritesBothNibbles
  intro s hs hop hdepth hfits
  have hlen : (split s.blk.inputElements).length = 2 * s.blk.cfg.inLen.toNat := by
    rw [split_length, Block.inputElements_length]
  have hcheck : startCheck s.blk.cfg.op s.blk = none :=
    (startCheck_eq_none_iff ..).2
      ⟨by simp [hop], by simp [hop, usesImage], by simp [hop], fun _ => hdepth⟩
  rw [← hlen] at hfits ⊢
  exact endsWith_sinkNib hs (by simp [HasStages, hop]) hcheck hs.produces_halves (by rw [hop]; rfl)
    (by rw [hop]; rfl) hfits

end Sys2Proof.Machine
end

section
/-! ## The pure functions of the run-length unit: ENC and DEC -/

namespace Sys2Proof.Machine

variable {x : Nibble} {n : Nat} {v w : List Nibble}

/-! ### Run records (R63) -/

@[simp] theorem highNibble_mkRecord (x : Nibble) (n : Nat) : highNibble (mkRecord x n) = x :=
  highNibble_combineNibbles x _

@[simp] theorem lowNibble_mkRecord (x : Nibble) (n : Nat) : lowNibble (mkRecord x n) = BitVec.ofNat 4 n :=
  lowNibble_combineNibbles x _

@[simp] theorem mkRecord_toNat (x m : Nibble) : mkRecord x m.toNat = combineNibbles x m := by
  rw [mkRecord, BitVec.ofNat_toNat, BitVec.setWidth_eq]

theorem mkRecord_nibbles (r : Byte) : mkRecord (highNibble r) (lowNibble r).toNat = r := by
  rw [mkRecord_toNat, combineNibbles_nibbles]

/-! ### The first run of a stream -/

/-- The stream of `n` times `x` and then `w` has a run of length `n` at its start, as ENC cuts it (R110): it
is at most 15 long, and it ends there by the cap or because no `x` follows. -/
structure FirstRun (x : Nibble) (n : Nat) (w : List Nibble) : Prop where
  pos : 0 < n
  le : n ≤ 15
  ends : n = 15 ∨ w.head? ≠ some x

theorem FirstRun.toNat_ofNat (h : FirstRun x n w) : (BitVec.ofNat 4 n).toNat = n := by
  rw [BitVec.toNat_ofNat]
  exact Nat.mod_eq_of_lt (Nat.lt_succ_of_le h.le)

/-- A run begun with `n` equal values can be taken as far as it goes. -/
theorem exists_firstRun (x : Nibble) (hpos : 0 < n) (hle : n ≤ 15) (v : List Nibble) :
    ∃ m w, FirstRun x m w ∧ List.replicate n x ++ v = List.replicate m x ++ w := by
  induction v generalizing n with
  | nil => exact ⟨n, [], ⟨hpos, hle, .inr (by simp)⟩, rfl⟩
  | cons y v ih =>
    by_cases hgrows : y = x ∧ n < 15
    · obtain ⟨rfl, hlt⟩ := hgrows
      obtain ⟨m, w, hrun, hsplit⟩ := ih (Nat.succ_pos n) hlt
      exact ⟨m, w, hrun, by rw [← hsplit, List.replicate_succ', List.append_assoc]; rfl⟩
    · refine ⟨n, y :: v, ⟨hpos, hle, ?_⟩, rfl⟩
      simp only [List.head?_cons, ne_eq, Option.some.injEq]
      by_cases hy : y = x
      · exact .inl (Nat.le_antisymm hle (Nat.le_of_not_lt fun hlt => hgrows ⟨hy, hlt⟩))
      · exact .inr hy

/-- Induction along the runs of a stream. -/
theorem run_induction {P : List Nibble → Prop} (nil : P [])
    (run : ∀ x n w, FirstRun x n w → P w → P (List.replicate n x ++ w)) (v : List Nibble) : P v := by
  induction hlen : v.length using Nat.strong_induction_on generalizing v with
  | _ len ih =>
    cases v with
    | nil => exact nil
    | cons x v =>
      obtain ⟨n, w, hrun, hsplit⟩ := exists_firstRun x Nat.one_pos (by decide) v
      have hv : x :: v = List.replicate n x ++ w := hsplit
      have hpos := hrun.pos
      rw [hv] at hlen ⊢
      exact run x n w hrun (ih _ (by simp at hlen; omega) w rfl)

/-! ### The recursive reading of ENC (R110) -/

theorem FirstRun.runLength_eq (h : FirstRun x (n + 1) w) : runLength x (List.replicate n x ++ w) = n + 1 := by
  have hsame : ∀ a ∈ List.replicate n x, (a == x) = true := by simp
  have hle := h.le
  rw [runLength, List.takeWhile_append_of_pos hsame, List.length_append, List.length_replicate, Config.maxRun]
  rcases h.ends with hcap | hother
  · omega
  · have hstop : w.takeWhile (· == x) = [] := by
      cases w with
      | nil => rfl
      | cons y w => exact List.takeWhile_cons_of_neg (by simpa using hother)
    rw [hstop, List.length_nil]
    omega

/-- One round of the recursive reading takes the first run. -/
theorem encRecGo_run (h : FirstRun x n w) (fuel : Nat) :
    encRecGo (fuel + 1) (List.replicate n x ++ w) = mkRecord x n :: encRecGo fuel w := by
  obtain ⟨m, rfl⟩ := Nat.exists_eq_succ_of_ne_zero h.pos.ne'
  have hround : encRecGo (fuel + 1) (x :: (List.replicate m x ++ w)) =
      mkRecord x (runLength x (List.replicate m x ++ w)) :: encRecGo fuel
        ((x :: (List.replicate m x ++ w)).drop (runLength x (List.replicate m x ++ w))) := rfl
  rw [h.runLength_eq] at hround
  have hrest : (x :: (List.replicate m x ++ w)).drop (m + 1) = w := by simp
  rw [hrest] at hround
  exact hround

/-- As many rounds as the stream has nibbles are enough. -/
theorem encRecGo_eq_encRec {fuel : Nat} (hfuel : v.length ≤ fuel) : encRecGo fuel v = encRec v := by
  unfold encRec
  induction v using run_induction generalizing fuel with
  | nil => cases fuel <;> rfl
  | run x n w hrun ih =>
    have hpos := hrun.pos
    rw [List.length_append, List.length_replicate] at hfuel ⊢
    obtain ⟨f, rfl⟩ : ∃ f, fuel = f + 1 := ⟨fuel - 1, by omega⟩
    obtain ⟨g, hg⟩ : ∃ g, n + w.length = g + 1 := ⟨n + w.length - 1, by omega⟩
    rw [hg, encRecGo_run hrun, encRecGo_run hrun, ih (fuel := f) (by omega), ih (fuel := g) (by omega)]

theorem encRec_run (h : FirstRun x n w) : encRec (List.replicate n x ++ w) = mkRecord x n :: encRec w := by
  rw [← encRecGo_eq_encRec (v := List.replicate n x ++ w) (fuel := n + w.length + 1) (by simp),
    encRecGo_run h, encRecGo_eq_encRec (by omega)]

/-! ### The source's loop (R110) -/

/-- The nibbles of a run that is next in the stream. -/
theorem getElem?_of_drop_eq_run {pos j : Nat} (hrest : v.drop pos = List.replicate n x ++ w) (hj : j < n) :
    v[pos + j]? = some x := by
  rw [← List.getElem?_drop, hrest, List.getElem?_append_left (by simpa using hj), List.getElem?_replicate,
    if_pos hj]

theorem growRun_grow {fuel pos run : Nat} (hnow : v[pos]? = some x) (hnext : v[pos + 1]? = some x)
    (hlt : run < 15) : growRun v (fuel + 1) pos run = growRun v fuel (pos + 1) (run + 1) := by
  obtain ⟨hin, -⟩ := List.getElem?_eq_some_iff.1 hnext
  exact if_pos ⟨hin, hnext.trans hnow.symm, hlt⟩

theorem growRun_stop {fuel pos run : Nat} (hnow : v[pos]? = some x)
    (hends : run = 15 ∨ v[pos + 1]? ≠ some x) : growRun v fuel pos run = (pos, run) := by
  cases fuel with
  | zero => rfl
  | succ fuel =>
    refine if_neg fun ⟨_, hnext, hlt⟩ => ?_
    rcases hends with hcap | hother
    · exact hlt.ne hcap
    · exact hother (hnext.trans hnow)

/-- Step 2 of the loop goes to the end of the run. -/
theorem growRun_run {fuel pos run k : Nat} (hrun : FirstRun x (run + k) w)
    (hrest : v.drop pos = List.replicate (k + 1) x ++ w) (hfuel : k ≤ fuel) :
    growRun v fuel pos run = (pos + k, run + k) := by
  induction k generalizing fuel pos run with
  | zero =>
    have hnow : v[pos]? = some x := getElem?_of_drop_eq_run hrest Nat.one_pos
    have hnext : v[pos + 1]? = w.head? := by
      rw [← List.getElem?_drop, hrest, List.head?_eq_getElem?]
      rfl
    exact growRun_stop hnow (hnext ▸ hrun.ends)
  | succ k ih =>
    obtain ⟨f, rfl⟩ : ∃ f, fuel = f + 1 := ⟨fuel - 1, by omega⟩
    have hnow : v[pos]? = some x := getElem?_of_drop_eq_run hrest (Nat.succ_pos _)
    have hnext : v[pos + 1]? = some x := getElem?_of_drop_eq_run hrest (by omega)
    have hle := hrun.le
    have hrest' : v.drop (pos + 1) = List.replicate (k + 1) x ++ w := by
      rw [← List.drop_drop, hrest]
      rfl
    rw [growRun_grow hnow hnext (by omega), ih (by rwa [Nat.add_right_comm]) hrest' (by omega)]
    simp only [Prod.mk.injEq]
    omega

/-- From a position on, the loop appends the records of the recursive reading. -/
theorem encLoop_eq {fuel pos : Nat} {out : List Byte} (hrest : v.drop pos = w) (hfuel : w.length ≤ fuel) :
    encLoop v fuel pos out = out ++ encRec w := by
  induction w using run_induction generalizing fuel pos out with
  | nil =>
    have hend : ¬ pos < v.length := by simpa using List.drop_eq_nil_iff.1 hrest
    rw [show encRec [] = [] from rfl, List.append_nil]
    cases fuel with
    | zero => rfl
    | succ fuel => exact if_neg hend
  | run x n w hrun ih =>
    obtain ⟨m, rfl⟩ := Nat.exists_eq_succ_of_ne_zero hrun.pos.ne'
    have hlen := congrArg List.length hrest
    simp only [List.length_drop, List.length_append, List.length_replicate] at hlen hfuel
    obtain ⟨f, rfl⟩ : ∃ f, fuel = f + 1 := ⟨fuel - 1, by omega⟩
    have hgrown : growRun v v.length pos 1 = (pos + m, m + 1) := by
      rw [growRun_run (Nat.add_comm m 1 ▸ hrun) hrest (by omega), Nat.add_comm 1 m]
    have hlast : v[pos + m]? = some x := getElem?_of_drop_eq_run hrest (Nat.lt_succ_self m)
    have hnext : v.drop (pos + m + 1) = w := by
      rw [Nat.add_assoc, ← List.drop_drop, hrest]
      simp
    have hround : encLoop v (f + 1) pos out = encLoop v f (pos + m + 1) (out ++ [mkRecord x (m + 1)]) := by
      refine (if_pos (by omega)).trans ?_
      simp only [hgrown, hlast, Option.getD_some]
    rw [hround, ih hnext (by omega), encRec_run hrun, List.append_assoc]
    rfl

theorem enc_eq_encRec (v : List Nibble) : enc v = encRec v := by
  rw [enc, encLoop_eq (List.drop_zero) (Nat.le_refl _), List.nil_append]

@[simp] theorem enc_nil : enc [] = [] := rfl

/-- ENC gives one record for the first run and goes on behind it. -/
theorem enc_run (h : FirstRun x n w) : enc (List.replicate n x ++ w) = mkRecord x n :: enc w := by
  rw [enc_eq_encRec, enc_eq_encRec, encRec_run h]

/-- Settles O44: along the runs of the stream, both readings give the record of the run first. -/
theorem encodeLoopIsGreedyRunReading : Obligations.EncodeLoopIsGreedyRunReading := by
  unfold Obligations.EncodeLoopIsGreedyRunReading
  refine ⟨enc_eq_encRec, enc_nil, fun x => ?_⟩
  exact enc_run (x := x) (n := 1) (w := []) ⟨Nat.one_pos, by decide, .inr (by simp)⟩

/-! ### DEC (R111) -/

/-- The nibbles of run records: each value as often as its length says. -/
def runsOf (rs : List Byte) : List Nibble :=
  rs.flatMap fun r => List.replicate (lowNibble r).toNat (highNibble r)

@[simp] theorem runsOf_nil : runsOf [] = [] := rfl

@[simp] theorem runsOf_cons (r : Byte) (rs : List Byte) :
    runsOf (r :: rs) = List.replicate (lowNibble r).toNat (highNibble r) ++ runsOf rs := rfl

theorem decFrom_cons_malformed (i : Nat) {r : Byte} (rs : List Byte) (h : lowNibble r = 0) :
    decFrom i (r :: rs) = .error i := by
  simp only [decFrom, decodeRunRecord, if_pos h]

theorem decFrom_cons (i : Nat) {r : Byte} (rs : List Byte) (h : lowNibble r ≠ 0) :
    decFrom i (r :: rs) =
      (decFrom (i + 1) rs).map (List.replicate (lowNibble r).toNat (highNibble r) ++ ·) := by
  simp only [decFrom, decodeRunRecord, if_neg h]

theorem decFrom_eq_ok_iff (i : Nat) {rs : List Byte} :
    decFrom i rs = .ok v ↔ (∀ r ∈ rs, lowNibble r ≠ 0) ∧ runsOf rs = v := by
  induction rs generalizing i v with
  | nil => simp [decFrom]
  | cons r rs ih =>
    by_cases hzero : lowNibble r = 0
    · rw [decFrom_cons_malformed i rs hzero]
      simp [hzero]
    · have hmap (f : List Nibble → List Nibble) :
          (decFrom (i + 1) rs).map f = .ok v ↔ ∃ u, decFrom (i + 1) rs = .ok u ∧ f u = v := by
        cases decFrom (i + 1) rs <;> simp [Except.map]
      simp only [decFrom_cons i rs hzero, hmap, ih, List.forall_mem_cons, runsOf_cons]
      constructor
      · rintro ⟨_, ⟨hrs, rfl⟩, hv⟩
        exact ⟨⟨hzero, hrs⟩, hv⟩
      · rintro ⟨⟨-, hrs⟩, hv⟩
        exact ⟨_, ⟨hrs, rfl⟩, hv⟩

/-- DEC succeeds exactly when no length is 0, and then gives the nibbles of the records. -/
theorem dec_eq_ok_iff {rs : List Byte} : dec rs = .ok v ↔ (∀ r ∈ rs, lowNibble r ≠ 0) ∧ runsOf rs = v :=
  decFrom_eq_ok_iff 0

/-! ### ENC and DEC together (R119, R121) -/

theorem lowNibble_ne_zero_of_mem_enc {r : Byte} (h : r ∈ enc v) : lowNibble r ≠ 0 := by
  induction v using run_induction with
  | nil => simp at h
  | run x n w hrun ih =>
    rw [enc_run hrun, List.mem_cons] at h
    rcases h with rfl | h
    · rw [lowNibble_mkRecord]
      intro hzero
      have hn := hrun.toNat_ofNat
      rw [hzero] at hn
      exact hrun.pos.ne hn
    · exact ih h

theorem runsOf_enc (v : List Nibble) : runsOf (enc v) = v := by
  induction v using run_induction with
  | nil => rfl
  | run x n w hrun ih =>
    rw [enc_run hrun, runsOf_cons, ih, lowNibble_mkRecord, highNibble_mkRecord, hrun.toNat_ofNat]

theorem dec_enc (v : List Nibble) : dec (enc v) = .ok v :=
  dec_eq_ok_iff.2 ⟨fun _ => lowNibble_ne_zero_of_mem_enc, runsOf_enc v⟩

/-- Records whose lengths are not 0 begin with the value their nibbles begin with. -/
theorem head?_runsOf {rs : List Byte} (h : ∀ r ∈ rs, lowNibble r ≠ 0) :
    (runsOf rs).head? = rs.head?.map highNibble := by
  cases rs with
  | nil => rfl
  | cons r rs =>
    have hne : (lowNibble r).toNat ≠ 0 := fun hz => h r List.mem_cons_self (BitVec.eq_of_toNat_eq hz)
    simp [List.head?_append, List.head?_replicate, hne]

theorem head?_enc (v : List Nibble) : (enc v).head?.map highNibble = v.head? := by
  rw [← head?_runsOf fun _ => lowNibble_ne_zero_of_mem_enc, runsOf_enc]

/-- R121: of two neighbouring records with one value the first is full. -/
def CanonicalRuns (rs : List Byte) : Prop :=
  rs.IsChain fun r r' => highNibble r = highNibble r' → lowNibble r = 15

theorem canonicalRuns_iff {rs : List Byte} : CanonicalRuns rs ↔
    ∀ (i : Nat) (r r' : Byte), rs[i]? = some r → rs[i + 1]? = some r' →
      highNibble r = highNibble r' → lowNibble r = 15 := by
  rw [CanonicalRuns, List.isChain_iff_getElem]
  constructor
  · intro h i r r' hr hr'
    obtain ⟨hi, rfl⟩ := List.getElem?_eq_some_iff.1 hr
    obtain ⟨hi', rfl⟩ := List.getElem?_eq_some_iff.1 hr'
    exact h i hi'
  · exact fun h i hi => h i _ _ (List.getElem?_eq_getElem _) (List.getElem?_eq_getElem hi)

theorem canonicalRuns_cons {r : Byte} {rs : List Byte} : CanonicalRuns (r :: rs) ↔
    (rs.head?.map highNibble = some (highNibble r) → lowNibble r = 15) ∧ CanonicalRuns rs := by
  rw [CanonicalRuns, List.isChain_cons, CanonicalRuns]
  refine and_congr_left fun _ => ?_
  cases rs <;> simp [eq_comm]

theorem canonicalRuns_enc (v : List Nibble) : CanonicalRuns (enc v) := by
  induction v using run_induction with
  | nil => exact .nil
  | run x n w hrun ih =>
    rw [enc_run hrun, canonicalRuns_cons, head?_enc, highNibble_mkRecord, lowNibble_mkRecord]
    refine ⟨fun hsame => ?_, ih⟩
    rw [hrun.ends.resolve_right (not_not_intro hsame)]
    rfl

/-- The first record of a canonical stream stands for the first run of its nibbles. -/
theorem CanonicalRuns.firstRun {r : Byte} {rs : List Byte} (h : CanonicalRuns (r :: rs))
    (hlen : ∀ q ∈ r :: rs, lowNibble q ≠ 0) : FirstRun (highNibble r) (lowNibble r).toNat (runsOf rs) where
  pos := Nat.pos_of_ne_zero fun hz => hlen r List.mem_cons_self (BitVec.eq_of_toNat_eq hz)
  le := Nat.le_of_lt_succ (lowNibble r).isLt
  ends := by
    obtain ⟨hfull, -⟩ := canonicalRuns_cons.1 h
    rw [head?_runsOf fun q hq => hlen q (List.mem_cons_of_mem r hq)]
    refine or_iff_not_imp_right.2 fun hsame => ?_
    rw [hfull (not_not.1 hsame)]
    rfl

theorem CanonicalRuns.enc_runsOf {rs : List Byte} (h : CanonicalRuns rs) (hlen : ∀ r ∈ rs, lowNibble r ≠ 0) :
    enc (runsOf rs) = rs := by
  induction rs with
  | nil => rfl
  | cons r rs ih =>
    obtain ⟨-, hrest⟩ := canonicalRuns_cons.1 h
    rw [runsOf_cons, enc_run (h.firstRun hlen), ih hrest fun q hq => hlen q (List.mem_cons_of_mem r hq),
      mkRecord_nibbles]

/-- Settles O45: along its runs, an encoding has lengths that are not 0, gives the stream back and is
canonical. -/
theorem decodeUndoesEncode : Obligations.DecodeUndoesEncode := by
  unfold Obligations.DecodeUndoesEncode
  refine ⟨dec_enc, fun _ _ => lowNibble_ne_zero_of_mem_enc, fun v => canonicalRuns_iff.1 (canonicalRuns_enc v),
    fun rs => ⟨fun ⟨v, h⟩ => (dec_eq_ok_iff.1 h).1, fun h => ⟨runsOf rs, dec_eq_ok_iff.2 ⟨h, rfl⟩⟩⟩⟩

/-- Settles O46: an encoding is canonical, and the records of a canonical stream are the runs of its
nibbles. -/
theorem encodeUndoesDecodeOnCanonicalStreams : Obligations.EncodeUndoesDecodeOnCanonicalStreams := by
  unfold Obligations.EncodeUndoesDecodeOnCanonicalStreams
  intro rs v hdec
  obtain ⟨hlen, rfl⟩ := dec_eq_ok_iff.1 hdec
  rw [← canonicalRuns_iff]
  exact ⟨fun henc => henc ▸ canonicalRuns_enc _, fun hcanonical => hcanonical.enc_runsOf hlen⟩

/-! ### How many records there are (R119) -/

theorem enc_replicate (x : Nibble) (q : Nat) {m : Nat} (hm : m < 15) :
    enc (List.replicate (15 * q + m) x) =
      List.replicate q (combineNibbles x 15) ++ if m = 0 then [] else [combineNibbles x (BitVec.ofNat 4 m)] := by
  induction q with
  | zero =>
    by_cases hzero : m = 0
    · simp [hzero]
    · have hrun : FirstRun x m [] := ⟨Nat.pos_of_ne_zero hzero, by omega, .inr (by simp)⟩
      rw [if_neg hzero, Nat.mul_zero, Nat.zero_add, ← List.append_nil (List.replicate m x), enc_run hrun]
      rfl
  | succ q ih =>
    have hfull : FirstRun x 15 (List.replicate (15 * q + m) x) := ⟨by decide, Nat.le_refl 15, .inl rfl⟩
    have hsplit : 15 * (q + 1) + m = 15 + (15 * q + m) := by omega
    rw [hsplit, ← List.replicate_append_replicate, enc_run hfull, ih]
    rfl

theorem enc_length_bounds (v : List Nibble) :
    v.length ≤ 15 * (enc v).length ∧ (enc v).length ≤ v.length := by
  induction v using run_induction with
  | nil => simp
  | run x n w hrun ih =>
    have hpos := hrun.pos
    have hle := hrun.le
    rw [enc_run hrun, List.length_append, List.length_replicate, List.length_cons]
    omega

/-- Settles O47: a full run is taken off n div 15 times, and each record stands for 1 to 15 nibbles. -/
theorem encodedLengthBounds : Obligations.EncodedLengthBounds := by
  unfold Obligations.EncodedLengthBounds
  refine ⟨fun x n => ?_, fun v _ => ?_⟩
  · have henc := enc_replicate x (n / 15) (Nat.mod_lt n (by decide))
    rwa [Nat.div_add_mod] at henc
  · obtain ⟨hleast, hmost⟩ := enc_length_bounds v
    exact ⟨by omega, hmost⟩

end Sys2Proof.Machine
end

section
/-! ## The steps of the run-length unit's operations -/

namespace Sys2Proof.Machine

/-- Settles O23: source QPAD gives the grid nibble or `End`, and sink RLE opens, extends or closes the run. -/
theorem packrleRunSteps : Obligations.PackrleRunSteps := by
  unfold Obligations.PackrleRunSteps
  intro s hphase
  refine ⟨fun hrow hnone => ?_, fun hrow hopen hsame => ?_, fun hrow hopen hother hroom => ?_,
    fun hrow hnone => ?_, fun hrow hopen hroom => ?_⟩
  · exact exec_decodeOp_of_run 8 hphase
      ((runStages_nib (sourceQpad_nib hrow)).trans (sinkRle_open hnone))
  · exact exec_decodeOp_of_run 8 hphase
      ((runStages_nib (sourceQpad_nib hrow)).trans (sinkRle_extend hopen hsame))
  · exact exec_decodeOp_of_run 8 hphase
      ((runStages_nib (sourceQpad_nib hrow)).trans (sinkRle_close hopen hother hroom))
  · exact exec_decodeOp_of_run 8 hphase
      ((runStages_fin (sourceQpad_fin hrow)).trans (sinkRle_fin_none hnone))
  · exact exec_decodeOp_of_run 8 hphase
      ((runStages_fin (sourceQpad_fin hrow)).trans (sinkRle_fin_close hopen hroom))

/-- Settles O26: source NIB gives the element's nibble or `End`, and sink RLE opens, extends or closes the
run. -/
theorem encodeRunSteps : Obligations.EncodeRunSteps := by
  unfold Obligations.EncodeRunSteps
  intro s hphase
  refine ⟨fun hmore hsmall hnone => ?_, fun hmore hsmall hopen hsame => ?_,
    fun hmore hsmall hopen hother hroom => ?_, fun hend hnone => ?_, fun hend hopen hroom => ?_⟩
  · exact exec_decodeOp_of_run 5 hphase
      ((runStages_nib (sourceNib_nib hmore hsmall)).trans (sinkRle_open hnone))
  · exact exec_decodeOp_of_run 5 hphase
      ((runStages_nib (sourceNib_nib hmore hsmall)).trans (sinkRle_extend hopen hsame))
  · exact exec_decodeOp_of_run 5 hphase
      ((runStages_nib (sourceNib_nib hmore hsmall)).trans (sinkRle_close hopen hother hroom))
  · exact exec_decodeOp_of_run 5 hphase
      ((runStages_fin (sourceNib_fin hend)).trans (sinkRle_fin_none hnone))
  · exact exec_decodeOp_of_run 5 hphase
      ((runStages_fin (sourceNib_fin hend)).trans (sinkRle_fin_close hopen hroom))

/-- Settles O27: source NIB gives the element's nibble or `End`, and sink RLECOUNT opens, extends or counts
the run. -/
theorem enclenRunSteps : Obligations.EnclenRunSteps := by
  unfold Obligations.EnclenRunSteps
  intro s hphase
  refine ⟨fun hmore hsmall hnone => ?_, fun hmore hsmall hopen hsame => ?_,
    fun hmore hsmall hopen hother => ?_, fun hend hnone => ?_, fun hend hopen => ?_⟩
  · exact exec_decodeOp_of_run 6 hphase
      ((runStages_nib (sourceNib_nib hmore hsmall)).trans (sinkRleCount_open hnone))
  · exact exec_decodeOp_of_run 6 hphase
      ((runStages_nib (sourceNib_nib hmore hsmall)).trans (sinkRleCount_extend hopen hsame))
  · exact exec_decodeOp_of_run 6 hphase
      ((runStages_nib (sourceNib_nib hmore hsmall)).trans (sinkRleCount_close hopen hother))
  · exact exec_decodeOp_of_run 6 hphase
      ((runStages_fin (sourceNib_fin hend)).trans (sinkRleCount_fin_none hnone))
  · exact exec_decodeOp_of_run 6 hphase
      ((runStages_fin (sourceNib_fin hend)).trans (sinkRleCount_fin_close hopen))

/-- Settles O28: source RUNS fetches a record, copies its value or gives `End`, and sink NIB stores the
nibble or completes. -/
theorem decodeRunSteps : Obligations.DecodeRunSteps := by
  unfold Obligations.DecodeRunSteps
  intro s hphase
  refine ⟨fun hrep hmore hlen hroom => ?_, fun hrep hroom => ?_, fun hrep hend => ?_⟩
  · rw [← highNibble_setWidth_eq]
    exact exec_decodeOp_of_run 7 hphase
      ((runStages_nib (sourceRuns_fetch hrep hmore hlen)).trans (sinkNib_nib hroom))
  · rw [BitVec.ofNat_toNat]
    exact exec_decodeOp_of_run 7 hphase
      ((runStages_nib (sourceRuns_copy hrep)).trans (sinkNib_nib hroom))
  · exact exec_decodeOp_of_run 7 hphase ((runStages_fin (sourceRuns_fin hrep hend)).trans sinkNib_fin)

end Sys2Proof.Machine
end

section
/-! ## The run-length sinks compute ENC (R120) -/

namespace Sys2Proof.Machine

variable {b c t : Block} {x : Nibble} {v w : List Nibble} {out : List Byte} {m n : Nat}

/-! ### The open run (CUR, RUN) -/

/-- The nibbles a run-length sink has taken and not yet closed as a record (R112). -/
def Datapath.openRun (dp : Datapath) : List Nibble := List.replicate dp.run.toNat dp.cur

theorem Datapath.openRun_none {dp : Datapath} (hnone : dp.run = 0) : dp.openRun = [] := by
  rw [Datapath.openRun, hnone]
  rfl

theorem Datapath.openRun_extend {dp : Datapath} (hlt : dp.run.toNat < 15) :
    ({ dp with run := dp.run + 1 } : Datapath).openRun = dp.openRun ++ [dp.cur] := by
  have hsucc : (dp.run + 1).toNat = dp.run.toNat + 1 := BitVec.toNat_add_of_lt (by simp; omega)
  rw [Datapath.openRun, hsucc, List.replicate_succ']
  rfl

/-- An open run that ends before `w` gives one record. -/
theorem Datapath.enc_openRun {dp : Datapath} (hopen : dp.run ≠ 0)
    (hends : dp.run.toNat = 15 ∨ w.head? ≠ some dp.cur) :
    enc (dp.openRun ++ w) = combineNibbles dp.cur dp.run :: enc w := by
  have hrun : FirstRun dp.cur dp.run.toNat w :=
    ⟨Nat.pos_of_ne_zero fun hz => hopen (BitVec.eq_of_toNat_eq hz), Nat.le_of_lt_succ dp.run.isLt, hends⟩
  rw [Datapath.openRun, enc_run hrun, mkRecord_toNat]

/-- A nibble that does not extend the open run closes it as one record. -/
theorem Datapath.enc_openRun_close {dp : Datapath} (hopen : dp.run ≠ 0)
    (hother : ¬ (x = dp.cur ∧ dp.run.toNat < 15)) (v : List Nibble) :
    enc (dp.openRun ++ x :: v) = combineNibbles dp.cur dp.run :: enc (x :: v) := by
  refine Datapath.enc_openRun hopen ?_
  simp only [List.head?_cons, ne_eq, Option.some.injEq]
  have hle := dp.run.isLt
  by_cases hx : x = dp.cur
  · have hcap : ¬ dp.run.toNat < 15 := fun hlt => hother ⟨hx, hlt⟩
    exact .inl (by omega)
  · exact .inr hx

/-- `End` closes the open run as the last record. -/
theorem Datapath.enc_openRun_fin {dp : Datapath} (hopen : dp.run ≠ 0) :
    enc dp.openRun = [combineNibbles dp.cur dp.run] := by
  have hlast := Datapath.enc_openRun (w := []) hopen (.inr (by simp))
  rwa [List.append_nil] at hlast

/-! ### Sink RLE (R112) -/

theorem Block.HasRoom.mono (h : b.HasRoom n) (hle : m ≤ n) : b.HasRoom m :=
  Nat.le_trans (Nat.add_le_add_left hle _) h

/-- Changes of datapath registers other than OPTR do not matter to what has been written. -/
theorem Block.Wrote.withDp (h : b.Wrote out t) {dp : Datapath} (hoptr : dp.optr = t.dp.optr) :
    b.Wrote out { t with dp := dp } :=
  ⟨h.phase, h.res, h.params, hoptr ▸ h.optr, h.written, h.outside⟩

/-- With a nibble sink RLE writes the records it closes; the others are those of the run then open and of
the rest of the stream. -/
theorem sinkRle_nib_wrote (hroom : b.HasRoom (enc (b.dp.openRun ++ x :: v)).length) :
    ∃ out, b.Wrote out (sinkRle (.nib x) b) ∧
      enc (b.dp.openRun ++ x :: v) = out ++ enc ((sinkRle (.nib x) b).dp.openRun ++ v) := by
  by_cases hnone : b.dp.run = 0
  · rw [sinkRle_open hnone, Datapath.openRun_none hnone]
    exact ⟨[], .none, rfl⟩
  by_cases hsame : x = b.dp.cur ∧ b.dp.run.toNat < 15
  · obtain ⟨hx, hlt⟩ := hsame
    rw [sinkRle_extend hnone ⟨hx, hlt⟩]
    refine ⟨[], .none, ?_⟩
    rw [Datapath.openRun_extend hlt, ← hx, List.append_assoc]
    rfl
  · have hclose := Datapath.enc_openRun_close hnone hsame v
    rw [hclose] at hroom ⊢
    have hone : b.HasRoom 1 := hroom.mono (by simp)
    rw [sinkRle_close hnone hsame hone.optr_ne]
    exact ⟨[combineNibbles b.dp.cur b.dp.run], (Block.Wrote.push _ hone).withDp rfl, rfl⟩

theorem feedNibbles_sinkRle (hroom : b.HasRoom (enc (b.dp.openRun ++ v)).length) :
    ∃ out, b.Wrote out (feedNibbles sinkRle v b) ∧
      enc (b.dp.openRun ++ v) = out ++ enc (feedNibbles sinkRle v b).dp.openRun := by
  induction v generalizing b with
  | nil => exact ⟨[], .none, by rw [List.append_nil]; rfl⟩
  | cons x v ih =>
    obtain ⟨out, hwrote, henc⟩ := sinkRle_nib_wrote hroom
    rw [henc, List.length_append, Nat.add_comm] at hroom
    obtain ⟨more, hmore, hrest⟩ := ih (hwrote.hasRoom hroom)
    exact ⟨out ++ more, hwrote.trans hmore, by rw [henc, hrest, List.append_assoc]; rfl⟩

/-- `End` makes sink RLE write the record of the open run, if there is one, and complete. -/
theorem sinkRle_fin_wrote (hroom : b.HasRoom (enc b.dp.openRun).length) :
    ∃ t, b.Wrote (enc b.dp.openRun) t ∧ sinkRle .fin b = t.complete 0 := by
  by_cases hnone : b.dp.run = 0
  · rw [Datapath.openRun_none hnone]
    exact ⟨b, .none, sinkRle_fin_none hnone⟩
  · rw [Datapath.enc_openRun_fin hnone] at hroom ⊢
    refine ⟨_, ?_, sinkRle_fin_close hnone hroom.optr_ne⟩
    exact (Block.Wrote.push _ hroom).withDp rfl

/-- Sink RLE, with no run open, writes ENC of its stream and completes; only `End` ends the operation. -/
theorem feedStream_sinkRle (hnone : b.dp.run = 0) (hroom : b.HasRoom (enc v).length) :
    (feedNibbles sinkRle v b).phase = b.phase ∧
      ∃ t, b.Wrote (enc v) t ∧ feedStream sinkRle v b = t.complete 0 := by
  have hstream : enc (b.dp.openRun ++ v) = enc v := by rw [Datapath.openRun_none hnone]; rfl
  rw [← hstream] at hroom ⊢
  obtain ⟨out, hwrote, henc⟩ := feedNibbles_sinkRle hroom
  rw [henc, List.length_append, Nat.add_comm] at hroom
  obtain ⟨t, hlast, hend⟩ := sinkRle_fin_wrote (hwrote.hasRoom hroom)
  exact ⟨hwrote.phase, t, henc ▸ hwrote.trans hlast, (feedStream_eq ..).trans hend⟩

/-! ### Sink RLECOUNT (R113) -/

/-- `t` is `b` after `n` more records have been counted, with nothing emitted. -/
structure Block.Counted (b : Block) (n : Nat) (t : Block) : Prop where
  phase : t.phase = b.phase := by rfl
  res : t.res = b.res := by rfl
  params : t.params = b.params := by rfl
  optr : t.dp.optr = b.dp.optr := by rfl
  obuf : t.obuf = b.obuf := by rfl
  cnt : t.dp.cnt = b.dp.cnt + BitVec.ofNat 32 n

theorem Block.Counted.wrote (h : b.Counted n t) : b.Wrote [] t :=
  .none h.phase h.res h.params h.optr h.obuf

theorem Block.Counted.trans (h : b.Counted m c) (h' : c.Counted n t) : b.Counted (m + n) t where
  phase := h'.phase.trans h.phase
  res := h'.res.trans h.res
  params := h'.params.trans h.params
  optr := h'.optr.trans h.optr
  obuf := h'.obuf.trans h.obuf
  cnt := by rw [h'.cnt, h.cnt, BitVec.ofNat_add, BitVec.add_assoc]

/-- With a nibble sink RLECOUNT counts the records sink RLE would write. -/
theorem sinkRleCount_nib_counted (x : Nibble) (v : List Nibble) (b : Block) :
    ∃ n, b.Counted n (sinkRleCount (.nib x) b) ∧ (enc (b.dp.openRun ++ x :: v)).length =
      n + (enc ((sinkRleCount (.nib x) b).dp.openRun ++ v)).length := by
  by_cases hnone : b.dp.run = 0
  · rw [sinkRleCount_open hnone, Datapath.openRun_none hnone]
    exact ⟨0, { cnt := (BitVec.add_zero _).symm }, (Nat.zero_add _).symm⟩
  by_cases hsame : x = b.dp.cur ∧ b.dp.run.toNat < 15
  · obtain ⟨hx, hlt⟩ := hsame
    rw [sinkRleCount_extend hnone ⟨hx, hlt⟩]
    refine ⟨0, { cnt := (BitVec.add_zero _).symm }, ?_⟩
    rw [Datapath.openRun_extend hlt, ← hx, List.append_assoc, Nat.zero_add]
    rfl
  · rw [sinkRleCount_close hnone hsame, Datapath.enc_openRun_close hnone hsame]
    exact ⟨1, { cnt := rfl }, Nat.add_comm _ 1⟩

theorem feedNibbles_sinkRleCount (v : List Nibble) (b : Block) :
    ∃ n, b.Counted n (feedNibbles sinkRleCount v b) ∧ (enc (b.dp.openRun ++ v)).length =
      n + (enc (feedNibbles sinkRleCount v b).dp.openRun).length := by
  induction v generalizing b with
  | nil => exact ⟨0, { cnt := (BitVec.add_zero _).symm }, by rw [List.append_nil, Nat.zero_add]; rfl⟩
  | cons x v ih =>
    obtain ⟨m, hcounted, henc⟩ := sinkRleCount_nib_counted x v b
    obtain ⟨n, hmore, hrest⟩ := ih (sinkRleCount (.nib x) b)
    exact ⟨m + n, hcounted.trans hmore, by rw [henc, hrest, Nat.add_assoc]; rfl⟩

/-- `End` makes sink RLECOUNT count the open run, if there is one, and complete with CNT. -/
theorem sinkRleCount_fin_counted (b : Block) :
    ∃ t, b.Counted (enc b.dp.openRun).length t ∧ sinkRleCount .fin b = t.complete t.dp.cnt := by
  by_cases hnone : b.dp.run = 0
  · rw [Datapath.openRun_none hnone]
    exact ⟨b, { cnt := (BitVec.add_zero _).symm }, sinkRleCount_fin_none hnone⟩
  · rw [Datapath.enc_openRun_fin hnone]
    exact ⟨_, { cnt := rfl }, sinkRleCount_fin_close hnone⟩

/-- Sink RLECOUNT, with no run open, adds the number of records of ENC of its stream to CNT and completes
with it. -/
theorem feedStream_sinkRleCount (v : List Nibble) (hnone : b.dp.run = 0) :
    (feedNibbles sinkRleCount v b).phase = b.phase ∧
      ∃ t, b.Counted (enc v).length t ∧ feedStream sinkRleCount v b = t.complete t.dp.cnt := by
  have hstream : enc (b.dp.openRun ++ v) = enc v := by rw [Datapath.openRun_none hnone]; rfl
  obtain ⟨n, hcounted, henc⟩ := feedNibbles_sinkRleCount v b
  obtain ⟨t, hlast, hend⟩ := sinkRleCount_fin_counted (feedNibbles sinkRleCount v b)
  rw [hstream] at henc
  exact ⟨hcounted.phase, t, henc ▸ hcounted.trans hlast, (feedStream_eq ..).trans hend⟩

theorem enc_length_toNat (hlen : v.length < 2 ^ 32) : (BitVec.ofNat 32 (enc v).length).toNat = (enc v).length := by
  obtain ⟨-, hmost⟩ := enc_length_bounds v
  rw [BitVec.toNat_ofNat, Nat.mod_eq_of_lt (Nat.lt_of_le_of_lt hmost hlen)]

/-- Settles O48: each sink closes exactly the records of ENC, with the open run kept in front of the rest of
the stream. -/
theorem runLengthSinksComputeEnc : Obligations.RunLengthSinksComputeEnc := by
  unfold Obligations.RunLengthSinksComputeEnc
  intro v b hnone
  refine ⟨fun hroom => ?_, fun hcnt hlen => ?_⟩
  · obtain ⟨-, t, hwrote, hend⟩ := feedStream_sinkRle hnone hroom
    rw [hend]
    exact ⟨rfl, hwrote.optr, hwrote.written, hwrote.outside⟩
  · obtain ⟨-, t, hcounted, hend⟩ := feedStream_sinkRleCount v hnone
    have hresult : t.dp.cnt.toNat = (enc v).length := by
      rw [hcounted.cnt, hcnt, zero_add, enc_length_toNat hlen]
    rw [hend]
    exact ⟨rfl, hresult, hresult, hcounted.obuf⟩

end Sys2Proof.Machine
end

section
/-! ## The run-length unit's operations as wholes -/

namespace Sys2Proof.Machine

variable {b : Block} {dp : Datapath} {v w : List Nibble} {k : Nat}

/-! ### The stream of source RUNS (R114) -/

/-- Source RUNS produces what is left of the record in DVAL and REP before the stream of the records after
it. -/
theorem sourceRuns_produces_rest (hrep : dp.rep.toNat = k)
    (h : Produces sourceRuns .fin b w { dp with rep := 0 }) :
    Produces sourceRuns .fin b (List.replicate k dp.dval ++ w) dp := by
  induction k generalizing dp with
  | zero =>
    have hzero : dp.rep = 0 := BitVec.eq_of_toNat_eq hrep
    rwa [← hzero] at h
  | succ k ih =>
    have hne : dp.rep ≠ 0 := BitVec.toNat_ne.2 (by simp [hrep])
    have hpred := Nibble.toNat_pred hne
    exact ⟨{ dp with rep := dp.rep - 1 }, fun c _ => sourceRuns_copy (b := c.withSource dp) hne,
      ih (dp := { dp with rep := dp.rep - 1 }) (by simp only; omega) h⟩

/-- The registers of source RUNS when the record `r` and with it its first nibble have been taken (R114). -/
def Datapath.fetched (r : Byte) (dp : Datapath) : Datapath :=
  { dp with iptr := dp.iptr + 1, dval := highNibble r, rep := lowNibble r - 1 }

/-- Source RUNS, between records, produces the nibbles of the `k` records left. -/
theorem sourceRuns_produces (hlen : ∀ r ∈ b.inputElements, lowNibble r ≠ 0) (hrep : dp.rep = 0)
    (hleft : dp.iptr.toNat + k = b.cfg.inLen.toNat) :
    Produces sourceRuns .fin b (runsOf (b.inputElements.drop dp.iptr.toNat)) dp := by
  induction k generalizing dp with
  | zero =>
    have hend : dp.iptr = b.cfg.inLen := BitVec.eq_of_toNat_eq hleft
    rw [Block.inputElements_drop_end hend]
    exact fun c hc => sourceRuns_fin hrep (hend.trans (congrArg _ hc.cfg).symm)
  | succ k ih =>
    obtain ⟨hlt, hne, hsucc, hrest⟩ := pointer_advance hleft
    have hlow := hlen _ (Block.ibufEntry_mem hlt)
    rw [Block.inputElements_drop hlt, ← hsucc, runsOf_cons, ← Nibble.toNat_pred hlow, List.replicate_succ]
    refine ⟨dp.fetched (b.ibufEntry dp.iptr), fun c hc => ?_,
      sourceRuns_produces_rest (dp := dp.fetched (b.ibufEntry dp.iptr)) rfl
        (ih (dp := { dp.fetched (b.ibufEntry dp.iptr) with rep := 0 }) rfl hrest)⟩
    have hentry := hc.nextElement dp
    rw [sourceRuns_fetch (b := c.withSource dp) hrep (hc.cfg ▸ hne) (hentry ▸ hlow), hentry]
    rfl

/-- A launched DECODE has the nibbles of all its records before it. -/
theorem State.Launched.produces_runs {s : State} (hs : s.Launched)
    (hlen : ∀ r ∈ s.blk.inputElements, lowNibble r ≠ 0) :
    Produces sourceRuns .fin s.blk.entered (runsOf s.blk.inputElements) s.blk.dp := by
  have hzero : s.blk.dp.iptr.toNat = 0 := by rw [hs.dp_eq]; rfl
  have hrep : s.blk.dp.rep = 0 := by rw [hs.dp_eq]; rfl
  have hstream : Produces sourceRuns .fin s.blk.entered
      (runsOf (s.blk.inputElements.drop s.blk.dp.iptr.toNat)) s.blk.dp :=
    sourceRuns_produces (b := s.blk.entered) hlen hrep (by rw [hzero]; exact Nat.zero_add _)
  rwa [hzero, List.drop_zero] at hstream

/-! ### From launch to the end -/

/-- The start-time checks ENCODE, ENCLEN and DECODE pass (R168). -/
theorem startCheck_codec {op : OpNum} (hop : op = 5 ∨ op = 6 ∨ op = 7)
    (hdepth : b.cfg.inLen ≤ b.params.ibufDepth) : startCheck op b = none := by
  refine (startCheck_eq_none_iff op b).2 ?_
  rcases hop with rfl | rfl | rfl <;> exact ⟨by decide, by simp [usesImage], by simp, fun _ => hdepth⟩

section Launched

variable {s : State} {source : Block → Fetched} (hs : s.Launched) (hop : HasStages s.blk.cfg.op)
  (hcheck : startCheck s.blk.cfg.op s.blk = none)
  (hsource : Produces source .fin s.blk.entered v s.blk.dp)
include hs hop hcheck hsource

/-- A launched operation whose source stage produces `v` and whose sink stage, fed with `v` and `End`, only
then writes its last element and completes (R154); the other operations meet `endsWith_of_wrote`. -/
theorem endsWith_of_feedStream {out : List Byte} {result : Word} {t : Block}
    (hstages : runStep s.blk.cfg.op = runStages source (sinkStage s.blk.cfg.op))
    (hfits : out.length ≤ s.blk.params.obufDepth.toNat)
    (hphase : (feedNibbles (sinkStage s.blk.cfg.op) v s.blk.entered).phase = .run)
    (hwrote : s.blk.entered.Wrote out t)
    (hend : feedStream (sinkStage s.blk.cfg.op) v s.blk.entered = t.complete result) :
    EndsWith (2 + v.length) s (.success out result) := by
  obtain ⟨hcheckPhase, hdp, hres, hport⟩ := hs
  have hne : s.blk.cfg.op ≠ 0 := by
    intro h
    simp [HasStages, h] at hop
  have hoptr : s.blk.entered.dp.optr = 0 := congrArg _ hdp
  obtain ⟨dp, hrun⟩ := engineNext_stream (b := s.blk.entered) hop hstages rfl hphase hsource
  have hblk : Block.engineNext^[2 + v.length] s.blk = (t.complete result).withSource dp := by
    rw [Nat.add_comm, Function.iterate_succ_apply, Block.engineNext_check hcheckPhase hne hcheck, hrun, hend]
  obtain ⟨hsame, hparams⟩ := Block.engineNext_iterate_frame (2 + v.length) s.blk
  exact ⟨_, core_run_engine hport _, hsame.cfg, hparams, hsame.ibuf, hsame.ibufEpoch,
    hblk ▸ hwrote.shows hoptr hres (Block.hasRoom_of_zero hoptr hfits) result dp⟩

/-- The operations with sink RLE write ENC of the source's stream (R112). -/
theorem endsWith_sinkRle (hsink : sinkStage s.blk.cfg.op = sinkRle)
    (hstages : runStep s.blk.cfg.op = runStages source sinkRle)
    (hfits : (enc v).length ≤ s.blk.params.obufDepth.toNat) :
    EndsWith (2 + v.length) s (.success (enc v) 0) := by
  have hoptr : s.blk.entered.dp.optr = 0 := congrArg _ hs.dp_eq
  have hnone : s.blk.entered.dp.run = 0 := congrArg _ hs.dp_eq
  obtain ⟨hphase, t, hwrote, hend⟩ := feedStream_sinkRle hnone (Block.hasRoom_of_zero hoptr hfits)
  rw [← hsink] at hstages hphase hend
  exact endsWith_of_feedStream hs hop hcheck hsource hstages hfits hphase hwrote hend

/-- The operation with sink RLECOUNT gives the number of records and writes nothing (R113). -/
theorem endsWith_sinkRleCount (hsink : sinkStage s.blk.cfg.op = sinkRleCount)
    (hstages : runStep s.blk.cfg.op = runStages source sinkRleCount) :
    EndsWith (2 + v.length) s (.success [] (BitVec.ofNat 32 (enc v).length)) := by
  have hnone : s.blk.entered.dp.run = 0 := congrArg _ hs.dp_eq
  have hzero : s.blk.entered.dp.cnt = 0 := congrArg _ hs.dp_eq
  obtain ⟨hphase, t, hcounted, hend⟩ := feedStream_sinkRleCount v hnone
  have hresult : t.dp.cnt = BitVec.ofNat 32 (enc v).length := by rw [hcounted.cnt, hzero, zero_add]
  rw [← hsink] at hstages hphase hend
  exact endsWith_of_feedStream hs hop hcheck hsource hstages (Nat.zero_le _) hphase hcounted.wrote
    (hresult ▸ hend)

end Launched

/-! ### The operations -/

theorem Block.inputNibbles_length (b : Block) : (b.inputElements.map lowNibble).length = b.cfg.inLen.toNat := by
  rw [List.length_map, Block.inputElements_length]

/-- Settles O36: source NIB produces the elements' nibbles and sink RLE writes their ENC. -/
theorem encodeWritesRunRecords : Obligations.EncodeWritesRunRecords := by
  unfold Obligations.EncodeWritesRunRecords
  intro s hs hop hdepth hsmall hfits
  have hcheck : startCheck s.blk.cfg.op s.blk = none := startCheck_codec (by simp [hop]) hdepth
  rw [← s.blk.inputNibbles_length]
  exact endsWith_sinkRle hs (by simp [HasStages, hop]) hcheck (hs.produces_nibbles hsmall) (by rw [hop]; rfl)
    (by rw [hop]; rfl) hfits

/-- Settles O37: source NIB produces the elements' nibbles and sink RLECOUNT counts their records, which are
at most IN_LEN. -/
theorem enclenCountsRunRecords : Obligations.EnclenCountsRunRecords := by
  unfold Obligations.EnclenCountsRunRecords
  intro s hs hop hdepth hsmall
  have hcheck : startCheck s.blk.cfg.op s.blk = none := startCheck_codec (by simp [hop]) hdepth
  have hlen := s.blk.inputNibbles_length
  refine ⟨_, enc_length_toNat (hlen ▸ s.blk.cfg.inLen.isLt), ?_⟩
  rw [← hlen]
  exact endsWith_sinkRleCount hs (by simp [HasStages, hop]) hcheck (hs.produces_nibbles hsmall)
    (by rw [hop]; rfl) (by rw [hop]; rfl)

/-- Settles O38: source RUNS produces the nibbles of the records, which DEC gives, and sink NIB writes
them. -/
theorem decodeExpandsRunRecords : Obligations.DecodeExpandsRunRecords := by
  unfold Obligations.DecodeExpandsRunRecords
  intro s v hs hop hdepth hdec hfits
  have hcheck : startCheck s.blk.cfg.op s.blk = none := startCheck_codec (by simp [hop]) hdepth
  obtain ⟨hlen, rfl⟩ := dec_eq_ok_iff.1 hdec
  exact endsWith_sinkNib hs (by simp [HasStages, hop]) hcheck (hs.produces_runs hlen) (by rw [hop]; rfl)
    (by rw [hop]; rfl) hfits

/-- Settles O39: source QPAD produces the padded stream and sink RLE writes its ENC. -/
theorem packrleWritesRunRecordsOfImage : Obligations.PackrleWritesRunRecordsOfImage := by
  unfold Obligations.PackrleWritesRunRecordsOfImage
  intro s hs hop htdesig hwidth hheight hinLen hdepth hfits
  have hcheck : startCheck s.blk.cfg.op s.blk = none :=
    startCheck_image (by simp [usesImage, hop]) htdesig hwidth hheight hinLen hdepth
  rw [← Block.paddedStream_length hinLen]
  exact endsWith_sinkRle hs (by simp [HasStages, hop]) hcheck (hs.produces_paddedStream hwidth hinLen)
    (by rw [hop]; rfl) (by rw [hop]; rfl) hfits

end Sys2Proof.Machine
end

section
/-! ## Reads and writes: what each host transaction answers -/

namespace Sys2Proof.Machine

variable {s : State} {b : Block} {a i d : Word}

/-- Settles O5: that is the transaction case of `step`. -/
theorem stepExecutesDecodedTransaction : Obligations.StepExecutesDecodedTransaction := by
  unfold Obligations.StepExecutesDecodedTransaction
  exact fun _ _ _ => step_txn

/-! ### PHASE -/

theorem Block.busy_eq_false_iff (b : Block) : b.busy = false ↔ b.phase = .idle ∨ b.phase = .done := by
  unfold Block.busy
  cases b.phase <;> simp

/-! ### Register reads (R142) -/

theorem exec_rdReg_of_some {v : Word} (h : s.blk.regRead a = some v) :
    exec (.rdReg a d) s = .next { s with hRdata := v } := by
  simp only [exec, execRdReg, h, State.deliver]

theorem exec_rdReg_of_none (h : s.blk.regRead a = none) : exec (.rdReg a d) s = .next s.deliverFree := by
  simp only [exec, execRdReg, h]

/-- Above the registers of the map a read is 0 up to number 15 and unspecified from 16 on (R142). -/
theorem Block.regRead_of_unmapped (b : Block) (h : 11 ≤ a.toNat) :
    b.regRead a = if a.toNat < 16 then some 0 else none := by
  unfold Block.regRead
  split
  case h_12 => rfl
  all_goals omega

/-- STATUS as a number: BUSY, DONE and ERR weigh 1, 2 and 4 (R22). -/
theorem Block.status_toNat (b : Block) : (b.status.setWidth 32).toNat =
    (if b.phase = .check ∨ b.phase = .run then 1 else 0) + (if b.phase = .done then 2 else 0) +
      (if b.res.err then 4 else 0) := by
  unfold Block.status Block.busy Block.isDone
  cases b.phase <;> cases b.res.err <;> rfl

/-- Settles O9: a mapped number delivers the value of the map, whose STATUS and ERRCODE are given as
numbers. -/
theorem registerReadReturnsMappedValue : Obligations.RegisterReadReturnsMappedValue := by
  unfold Obligations.RegisterReadReturnsMappedValue
  intro s a d
  refine ⟨?_, ?_, ?_, ?_, ?_, ?_, ?status, ?errCode, ?_, ?_, ?_, ?reserved, ?unmapped⟩
  case status =>
    rintro v hv rfl
    obtain rfl : s.blk.status.setWidth 32 = v :=
      BitVec.eq_of_toNat_eq (s.blk.status_toNat.trans hv.symm)
    exact exec_rdReg_of_some rfl
  case errCode =>
    rintro e he hcode rfl
    have hread : s.blk.regRead 7 = some (s.blk.res.errCode.code.setWidth 32) := rfl
    have hvalue : s.blk.res.errCode.code.setWidth 32 = e.2 := by
      rw [hcode]
      clear hcode hread
      revert e
      decide
    exact exec_rdReg_of_some (hread.trans (congrArg some hvalue))
  case reserved =>
    intro hlow hhigh
    exact exec_rdReg_of_some ((s.blk.regRead_of_unmapped hlow).trans (if_pos (by omega)))
  case unmapped =>
    intro hhigh
    exact ⟨_, _, exec_rdReg_of_none ((s.blk.regRead_of_unmapped (by omega)).trans (if_neg (by omega)))⟩
  all_goals
    rintro rfl
    exact exec_rdReg_of_some rfl

/-! ### Buffer reads (R144) -/

theorem exec_rdIbuf_of_lt (h : i < s.blk.params.ibufDepth) :
    exec (.rdIbuf i d) s = .next { s with hRdata := (s.blk.ibufEntry i).setWidth 32 } := if_pos h

theorem exec_rdIbuf_of_le (h : s.blk.params.ibufDepth ≤ i) :
    exec (.rdIbuf i d) s = .next s.deliverFreeByte := if_neg (BitVec.not_lt.2 h)

theorem exec_rdObuf_of_some {v : Byte} (h : s.blk.obufRead i = some v) :
    exec (.rdObuf i d) s = .next { s with hRdata := v.setWidth 32 } := by
  simp only [exec, execRdObuf, h, State.deliver]

theorem exec_rdObuf_of_none (h : s.blk.obufRead i = none) :
    exec (.rdObuf i d) s = .next s.deliverFreeByte := by
  simp only [exec, execRdObuf, h]

/-- An OBUF entry is not valid outside DONE, after an error, and from OUT_LEN on (R29). -/
theorem Block.obufRead_of_invalid (h : b.phase ≠ .done ∨ b.res.err = true ∨ b.res.outLen ≤ i) :
    b.obufRead i = none := by
  refine if_neg fun ⟨hdone, herr, hlt⟩ => ?_
  rcases h with h | h | h
  · exact h hdone
  · simp [herr] at h
  · exact BitVec.not_lt.2 h hlt

/-- Settles O10: an entry within IBUF or valid in OBUF is delivered, for any other read a free value. -/
theorem bufferReadReturnsEntryOrFreeValue : Obligations.BufferReadReturnsEntryOrFreeValue := by
  unfold Obligations.BufferReadReturnsEntryOrFreeValue
  intro s i d
  refine ⟨exec_rdIbuf_of_lt, exec_rdIbuf_of_le, fun v hdone herr hlt hread => ?_,
    fun h => exec_rdObuf_of_none (Block.obufRead_of_invalid h), rfl⟩
  exact exec_rdObuf_of_some ((if_pos ⟨hdone, herr, hlt⟩).trans hread)

/-! ### Commands (R145 to R148) -/

theorem Block.start_of_quiet (h : b.phase = .idle ∨ b.phase = .done) : b.start = b.launch :=
  if_neg (by simp [b.busy_eq_false_iff.2 h])

theorem Block.start_of_busy (h : b.phase = .check ∨ b.phase = .run) : b.start = b :=
  if_pos (b.busy_iff.2 h)

/-- Settles O15: an accepted START is `Block.launch`, an ignored one changes nothing. -/
theorem startLaunchesUnlessBusy : Obligations.StartLaunchesUnlessBusy := by
  unfold Obligations.StartLaunchesUnlessBusy
  intro s
  have hexec : exec .start s = .next { s with blk := s.blk.start } := rfl
  refine ⟨fun hquiet => ?_, fun hbusy => ?_⟩
  · rw [hexec, Block.start_of_quiet hquiet]
    rfl
  · rw [hexec, Block.start_of_busy hbusy]

/-- Settles O16: both commands are `Block.clear`, which does not look at PHASE. -/
theorem clearReturnsToIdleFromAnyPhase : Obligations.ClearReturnsToIdleFromAnyPhase := by
  unfold Obligations.ClearReturnsToIdleFromAnyPhase
  intro s i hi
  simp only [List.mem_cons, List.not_mem_nil, or_false] at hi
  rcases hi with rfl | rfl <;> rfl

theorem exec_wrReg_ctrl (s : State) (d : Word) :
    exec (.wrReg 0 d) s = .next { s with blk := s.blk.ctrlWrite d } := rfl

theorem Block.ctrlWrite_clear (h : d.getLsbD 1 = true) (b : Block) : b.ctrlWrite d = b.clear := if_pos h

theorem Block.ctrlWrite_start (h1 : d.getLsbD 1 = false) (h0 : d.getLsbD 0 = true) (b : Block) :
    b.ctrlWrite d = b.start := (if_neg (Bool.eq_false_iff.1 h1)).trans (if_pos h0)

theorem Block.ctrlWrite_none (h1 : d.getLsbD 1 = false) (h0 : d.getLsbD 0 = false) (b : Block) :
    b.ctrlWrite d = b := (if_neg (Bool.eq_false_iff.1 h1)).trans (if_neg (Bool.eq_false_iff.1 h0))

/-- Settles O13: bit 1 is looked at first, then bit 0, and no other bit of the data. -/
theorem ctrlWritePerformsCommand : Obligations.CtrlWritePerformsCommand := by
  unfold Obligations.CtrlWritePerformsCommand
  intro s d
  rw [exec_wrReg_ctrl]
  refine ⟨fun h1 => ?_, fun h1 h0 => ?_, fun h1 h0 => ?_, rfl⟩
  · rw [Block.ctrlWrite_clear h1]
    exact ⟨rfl, rfl⟩
  · rw [Block.ctrlWrite_start h1 h0]
    rfl
  · rw [Block.ctrlWrite_none h1 h0]

/-! ### Register writes (R143) -/

/-- The command of the two bits of R66 is the CTRL write of any data that has them as its low bits. -/
theorem exec_decodeCtrl (s : State) (d : Word) :
    exec (decodeCtrl (d.extractLsb' 0 2)) s = .next { s with blk := s.blk.ctrlWrite d } := by
  have h0 : (d.extractLsb' 0 2).getLsbD 0 = d.getLsbD 0 := by simp
  have h1 : (d.extractLsb' 0 2).getLsbD 1 = d.getLsbD 1 := by simp
  rw [Block.ctrlWrite, ← h0, ← h1]
  generalize d.extractLsb' 0 2 = c
  have hc : c = 0 ∨ c = 1 ∨ c = 2 ∨ c = 3 := by
    revert c
    decide
  rcases hc with rfl | rfl | rfl | rfl <;> rfl

theorem Block.regWrite_of_quiet (h : b.phase = .idle ∨ b.phase = .done) (ha : a ≠ 0) :
    b.regWrite a d = { b with cfg := b.cfg.write a d } :=
  (if_neg ha).trans (if_neg (by simp [b.busy_eq_false_iff.2 h]))

/-- While the engine is busy only CLEAR reaches the block by a register write (R146, R190). -/
theorem Block.regWrite_of_busy (h : b.phase = .check ∨ b.phase = .run)
    (hclear : a = 0 → d.getLsbD 1 = false) : b.regWrite a d = b := by
  unfold Block.regWrite
  by_cases ha : a = 0
  · rw [if_pos ha]
    cases h0 : d.getLsbD 0
    · exact Block.ctrlWrite_none (hclear ha) h0 b
    · exact (Block.ctrlWrite_start (hclear ha) h0 b).trans (Block.start_of_busy h)
  · rw [if_neg ha, if_pos (b.busy_iff.2 h)]

theorem Block.regWrite_of_no_register (h : 6 ≤ a.toNat) (b : Block) : b.regWrite a d = b := by
  rcases b.regWrite_cases a d with ⟨rfl, -⟩ | ⟨-, -, heq⟩ | ⟨-, -, heq⟩
  · simp at h
  · exact heq
  · rw [heq, b.cfg.write_of_no_register d (.inr h)]

theorem exec_wrReg (s : State) (a d : Word) :
    exec (.wrReg a d) s = .next { s with blk := s.blk.regWrite a d } := rfl

/-- Settles O12: number 0 is the command, and any other a configuration write that is dropped while the
engine is busy. -/
theorem registerWriteStoresLowBitsOrNothing : Obligations.RegisterWriteStoresLowBitsOrNothing := by
  unfold Obligations.RegisterWriteStoresLowBitsOrNothing
  intro s a d
  refine ⟨?ctrl, fun hquiet => ?quiet, fun hbusy hlow _ => ?busy, fun hhigh => ?none⟩
  case ctrl =>
    rintro rfl
    exact (exec_wrReg_ctrl s d).trans (exec_decodeCtrl s d).symm
  case quiet =>
    refine ⟨?_, ?_, ?_, ?_, ?_⟩ <;>
    · rintro rfl
      rw [exec_wrReg, Block.regWrite_of_quiet hquiet (by decide)]
      rfl
  case busy =>
    rw [exec_wrReg, Block.regWrite_of_busy hbusy]
    rintro rfl
    simp at hlow
  case none => rw [exec_wrReg, Block.regWrite_of_no_register hhigh]

/-! ### Buffer writes (R144) -/

theorem exec_wrIbuf (s : State) (i d : Word) :
    exec (.wrIbuf i d) s = .next { s with blk := s.blk.ibufWrite i d } := rfl

theorem Block.ibufWrite_of_quiet (hi : i < b.params.ibufDepth) (h : b.phase = .idle ∨ b.phase = .done) :
    b.ibufWrite i d = { b with ibuf := b.ibuf.write i.toNat (d.setWidth 8) } :=
  if_pos ⟨hi, by simp [b.busy_eq_false_iff.2 h]⟩

theorem Block.ibufWrite_of_ignored
    (h : b.params.ibufDepth ≤ i ∨ b.phase = .check ∨ b.phase = .run) : b.ibufWrite i d = b := by
  refine if_neg fun ⟨hi, hquiet⟩ => ?_
  rcases h with h | h
  · exact BitVec.not_lt.2 h hi
  · exact hquiet (b.busy_iff.2 h)

/-- An IBUF entry whose index has been written holds the byte written. -/
theorem Block.ibufEntry_of_read? {v : Byte} (h : b.ibuf.read? i.toNat = some v) : b.ibufEntry i = v := by
  rw [Block.ibufEntry, h, Option.getD_some]

/-- Settles O14: the accepted write is one `Memory.write`, and every read of IBUF goes through
`Memory.read?`. -/
theorem bufferWriteStoresByteOrNothing : Obligations.BufferWriteStoresByteOrNothing := by
  unfold Obligations.BufferWriteStoresByteOrNothing
  intro s i d
  refine ⟨fun hi hquiet => ?_, fun h => ?_, rfl, rfl⟩
  · have hexec : exec (.wrIbuf i d) s =
        .next { s with blk := { s.blk with ibuf := s.blk.ibuf.write i.toNat (d.extractLsb' 0 8) } } := by
      rw [exec_wrIbuf, Block.ibufWrite_of_quiet hi hquiet]
      rfl
    have hsame := Memory.read?_write_same s.blk.ibuf i.toNat (d.extractLsb' 0 8)
    have hothers (a : Nat) (ha : a ≠ i.toNat) := Memory.read?_write_ne s.blk.ibuf (d.extractLsb' 0 8) ha
    generalize s.blk.ibuf.write i.toNat (d.extractLsb' 0 8) = m at hexec hsame hothers
    have hentry : ({ s.blk with ibuf := m } : Block).ibufEntry i = d.extractLsb' 0 8 :=
      Block.ibufEntry_of_read? hsame
    refine ⟨m, hexec, hsame, hothers, hentry, fun j hj => ?_, fun d' => ?_⟩
    · simp only [Block.ibufEntry, hothers _ (BitVec.toNat_ne.1 hj)]
    · rw [← hentry]
      exact exec_rdIbuf_of_lt (s := { s with blk := { s.blk with ibuf := m } }) hi
  · rw [exec_wrIbuf, Block.ibufWrite_of_ignored h]

end Sys2Proof.Machine
end

section
/-! ## The pins, the checks that pass, and the host beside a running operation -/

namespace Sys2Proof.Machine

variable {s t : State} {w : HtWord}

/-! ### The pins (R141) -/

/-- A transaction word as a number: its three fields from the top down (R67). -/
theorem htWord_toNat (k : BitVec 3) (a d : Word) :
    (htWord k a d).toNat = k.toNat * 2 ^ 64 + a.toNat * 2 ^ 32 + d.toNat := by
  rw [htWord, BitVec.toNat_append, BitVec.toNat_append, ← Nat.shiftLeft_add_eq_or_of_lt d.isLt,
    ← Nat.shiftLeft_add_eq_or_of_lt a.isLt, Nat.shiftLeft_eq, Nat.shiftLeft_eq]
  omega

/-- The kind bits of a transaction as a number: `h_write` above `h_space` (R67). -/
theorem htKind_bits_toNat (write : Bool) (space : BitVec 2) :
    (BitVec.ofBool write ++ space : BitVec 3).toNat = (if write then 4 else 0) + space.toNat := by
  revert write space
  decide

/-- Settles O53: the transaction's fields are the pins, and the events of the edge are performed in their
order. -/
theorem pinsPresentResetOrTransactionThenEngine : Obligations.PinsPresentResetOrTransactionThenEngine := by
  unfold Obligations.PinsPresentResetOrTransactionThenEngine
  intro s p k hport
  have hpresent : (s.present p k).port = p.events k := by simp [State.present, hport]
  refine ⟨?word, ?_, ?_, ?_, ?_, ?_, ?_, ?_, ?_, fun hrst => ?reset, fun hrst hvalid => ?txn,
    fun hrst hvalid => ?engine⟩
  case word =>
    rw [Pins.transaction, htWord_toNat, htKind_bits_toNat]
    split <;> omega
  case reset =>
    have hevent : (s.present p k).port = [.reset] := by simp [hpresent, Pins.events, hrst]
    rw [step_reset hevent, ← hport]
    rfl
  case txn =>
    exact step_txn (by simp [hpresent, Pins.events, hrst, hvalid])
  case engine => simp [hpresent, Pins.events, hrst, hvalid]
  all_goals
    intro hwrite hspace
    simp [Pins.transaction, decodeHt, hwrite, hspace]

/-! ### Checks that pass (R152) -/

/-- The CHECK step of an operation but PIXCNT whose checks pass only moves to RUN. -/
theorem exec_decodeOp_of_checked {op : OpNum} (hphase : s.blk.phase = .check) (hop : op ≠ 0)
    (hcheck : startCheck op s.blk = none) :
    exec (decodeOp op) s = .next { s with blk := { s.blk with phase := .run } } := by
  rw [exec_decodeOp, State.onBlock, engineStep_check hphase, stepCheck, hcheck]
  simp only [if_neg hop]

/-- Settles O20: each operation's conditions are those of its start-time checks. -/
theorem passedChecksEnterRun : Obligations.PassedChecksEnterRun := by
  unfold Obligations.PassedChecksEnterRun
  intro s hphase hdepth
  have stream {op : OpNum} (hop : op = 4 ∨ op = 5 ∨ op = 6 ∨ op = 7) : startCheck op s.blk = none := by
    refine (startCheck_eq_none_iff op s.blk).2 ?_
    rcases hop with rfl | rfl | rfl | rfl <;> exact ⟨by decide, by simp [usesImage], by simp, fun _ => hdepth⟩
  refine ⟨fun i hi htdesig hwidth hheight hinLen => ?image, fun heven => ?combine, fun i hi => ?stream⟩
  case image =>
    have image {op : OpNum} (himage : usesImage op = true) : startCheck op s.blk = none :=
      startCheck_image himage htdesig hwidth hheight hinLen hdepth
    simp only [List.mem_cons, List.not_mem_nil, or_false] at hi
    rcases hi with rfl | rfl | rfl
    · exact exec_decodeOp_of_checked (op := 1) hphase (by decide) (image rfl)
    · exact exec_decodeOp_of_checked (op := 2) hphase (by decide) (image rfl)
    · exact exec_decodeOp_of_checked (op := 8) hphase (by decide) (image rfl)
  case combine =>
    refine exec_decodeOp_of_checked (op := 3) hphase (by decide) ((startCheck_eq_none_iff 3 s.blk).2 ?_)
    exact ⟨by decide, by simp [usesImage], fun _ => heven, fun _ => hdepth⟩
  case stream =>
    simp only [List.mem_cons, List.not_mem_nil, or_false] at hi
    rcases hi with rfl | rfl | rfl | rfl
    · exact exec_decodeOp_of_checked (op := 4) hphase (by decide) (stream (by simp))
    · exact exec_decodeOp_of_checked (op := 5) hphase (by decide) (stream (by simp))
    · exact exec_decodeOp_of_checked (op := 6) hphase (by decide) (stream (by simp))
    · exact exec_decodeOp_of_checked (op := 7) hphase (by decide) (stream (by simp))

/-! ### The host beside a running operation (R149, R190) -/

/-- While the engine is busy a transaction other than CLEAR at most delivers read data (R190, R191). -/
theorem exec_decodeHt_of_busy (hbusy : s.blk.phase = .check ∨ s.blk.phase = .run)
    (hclear : isClearWrite w = false) : s.AnswersRead (exec (decodeHt w) s) := by
  have unchanged : s.AnswersRead (.next s) := ⟨s.hRdata, s.draws, rfl⟩
  unfold decodeHt
  split
  case h_1 => exact execRdReg_answersRead _ (htData w) s
  case h_2 => exact execRdIbuf_answersRead _ (htData w) s
  case h_3 => exact execRdObuf_answersRead _ (htData w) s
  case h_4 => exact execRdSpace3_answersRead (htAddr w) (htData w) s
  case h_5 hkind =>
    have hkind : htKind w = 4 := BitVec.eq_of_toNat_eq hkind
    rw [exec_wrReg, Block.regWrite_of_busy hbusy]
    · exact unchanged
    · simpa [isClearWrite, hkind] using hclear
  case h_6 =>
    rw [exec_wrIbuf, Block.ibufWrite_of_ignored (.inr hbusy)]
    exact unchanged
  case h_7 => exact unchanged
  case h_8 => exact unchanged

theorem core_run_succ (h : step s = .next t) (n : Nat) :
    Host.Core.run Sys2Proof.core (n + 1) s = Host.Core.run Sys2Proof.core n t := by
  have hcore : Sys2Proof.core.step s = .next t := h
  simp only [Host.Core.run, hcore]

/-- Harmless events before those of `rest`, the engine busy at each of them, are the engine steps among
them. -/
theorem core_run_harmless (rest : List Event) (n : Nat) {evs : List Event} (hport : s.port = evs ++ rest)
    (hharmless : ∀ e ∈ evs, e.harmless = true)
    (hbusy : ∀ j ≤ evs.count .engine, (Block.engineNext^[j] s.blk).phase = .check ∨
      (Block.engineNext^[j] s.blk).phase = .run) :
    ∃ t : State, t.blk = Block.engineNext^[evs.count .engine] s.blk ∧ t.port = rest ∧
      Host.Core.run Sys2Proof.core (evs.length + n) s = Host.Core.run Sys2Proof.core n t := by
  induction evs generalizing s with
  | nil => exact ⟨s, rfl, hport, by rw [List.length_nil, Nat.zero_add]⟩
  | cons e evs ih =>
    rw [List.forall_mem_cons] at hharmless
    obtain ⟨he, hharmless⟩ := hharmless
    rw [List.length_cons, Nat.add_right_comm]
    cases e with
    | reset => simp [Event.harmless] at he
    | engine =>
      rw [List.count_cons_self] at hbusy ⊢
      rw [core_run_succ ((step_engine hport).trans (engineEvent_eq_engineNext _))]
      exact ih (s := { s with port := evs ++ rest, blk := s.blk.engineNext }) rfl hharmless
        fun j hj => hbusy (j + 1) (Nat.succ_le_succ hj)
    | txn w =>
      rw [List.count_cons_of_ne (by simp)] at hbusy ⊢
      obtain ⟨v, m, hexec⟩ := exec_decodeHt_of_busy (s := { s with port := evs ++ rest })
        (hbusy 0 (Nat.zero_le _)) (by simpa [Event.harmless] using he)
      rw [core_run_succ ((step_txn hport).trans hexec)]
      exact ih (s := { s with port := evs ++ rest, hRdata := v, draws := m }) rfl hharmless hbusy

/-- Settles O56: transactions leave the block alone while the engine is busy, so the sequence comes to its
engine steps, and one more engine step starts from the same block. -/
theorem interleavingDoesNotChangeTheOperation : Obligations.InterleavingDoesNotChangeTheOperation := by
  unfold Obligations.InterleavingDoesNotChangeTheOperation
  intro s evs hharmless halone
  have alone (n : Nat) := core_run_engine (s := { s with port := [] }) rfl n
  have hbusy (j : Nat) (hj : j ≤ evs.count .engine) : (Block.engineNext^[j] s.blk).phase = .check ∨
      (Block.engineNext^[j] s.blk).phase = .run := by
    obtain ⟨u, hrun, hphase⟩ := halone j hj
    rw [alone] at hrun
    cases hrun
    exact hphase
  refine ⟨?_, ?_⟩
  · obtain ⟨t, hblk, hport, hrun⟩ :=
      core_run_harmless (s := { s with port := evs }) [] 0 (List.append_nil evs).symm hharmless hbusy
    exact ⟨t, _, hrun, alone _, hblk, hport⟩
  · obtain ⟨t, hblk, hport, hrun⟩ :=
      core_run_harmless (s := { s with port := evs ++ [.engine] }) [.engine] 1 rfl hharmless hbusy
    have hlast : Host.Core.run Sys2Proof.core 1 t = .next { t with port := [], blk := t.blk.engineNext } :=
      core_run_succ ((step_engine hport).trans (engineEvent_eq_engineNext _)) 0
    refine ⟨_, _, hrun.trans hlast, alone _, ?_, rfl⟩
    rw [Function.iterate_succ_apply', hblk]

end Sys2Proof.Machine
end

section
/-! ## How an operation ends that meets an error, and that none ends later than it should -/

namespace Sys2Proof.Machine

variable {b : Block} {op : OpNum} {x : Nibble} {v w : List Nibble} {m n : Nat} {e : ErrCode} {pos : Word}
  {source : Block → Fetched} {sink : Token → Block → Block} {last : Fetched} {E : Block → List Nibble → Nat}

/-! ### The first step in DONE -/

theorem Block.engineNext_done (h : b.phase = .done) (n : Nat) : Block.engineNext^[n] b = b := by
  have hfixed : b.engineNext = b := engineStep_quiet (.inr h)
  exact Function.iterate_fixed hfixed n

/-- Once in DONE the engine alone changes nothing any more (R149). -/
theorem Block.engineNext_iterate_of_done (h : (Block.engineNext^[m] b).phase = .done) (hmn : m ≤ n) :
    Block.engineNext^[n] b = Block.engineNext^[m] b := by
  rw [← Nat.sub_add_cancel hmn, Function.iterate_add_apply, Block.engineNext_done h]

/-- An operation that ends within `n` steps is busy up to a step that ends it. -/
theorem Block.EndsWithin.exists_first (h : b.EndsWithin n) (hphase : b.phase ≠ .done) :
    ∃ m, 1 ≤ m ∧ m ≤ n ∧ (Block.engineNext^[m] b).phase = .done ∧
      ∀ k < m, (Block.engineNext^[k] b).phase = .check ∨ (Block.engineNext^[k] b).phase = .run := by
  induction h with
  | ended hdone => exact absurd hdone hphase
  | @step n b hbusy _ ih =>
    by_cases hdone : b.engineNext.phase = .done
    · refine ⟨1, Nat.le_refl 1, Nat.le_add_left 1 n, hdone, fun k hk => ?_⟩
      obtain rfl : k = 0 := by omega
      exact hbusy
    · obtain ⟨m, -, hm, hend, hbefore⟩ := ih hdone
      refine ⟨m + 1, Nat.le_add_left 1 m, Nat.succ_le_succ hm, hend, fun k hk => ?_⟩
      cases k with
      | zero => exact hbusy
      | succ k => exact hbefore k (Nat.lt_of_succ_lt_succ hk)

theorem Block.Shows.phase {r : Verdict} (h : b.Shows r) : b.phase = .done := by
  cases r with
  | success out result =>
    obtain ⟨hphase, -⟩ := h
    exact hphase
  | failure e pos =>
    obtain ⟨hphase, -⟩ := h
    exact hphase

/-- The engine alone changes nothing outside PHASE, the results, the datapath and OBUF, so a run ends with
the verdict its last block shows. -/
theorem endsWith_iff {s : State} {r : Verdict} (hport : s.port = []) :
    EndsWith n s r ↔ (Block.engineNext^[n] s.blk).Shows r := by
  constructor
  · rintro ⟨t, hrun, -, -, -, -, hshows⟩
    rw [core_run_engine hport] at hrun
    cases hrun
    exact hshows
  · intro hshows
    obtain ⟨hsame, hparams⟩ := Block.engineNext_iterate_frame n s.blk
    exact ⟨_, core_run_engine hport n, hsame.cfg, hparams, hsame.ibuf, hsame.ibufEpoch, hshows⟩

/-! ### Whether the elements for a stream fit OBUF -/

/-- At some nibble of the stream the sink stage finds OBUF full and raises CapacityExceeded (R47). -/
def Overflows (sink : Token → Block → Block) (v : List Nibble) (b : Block) : Prop :=
  ∃ u x w, v = u ++ x :: w ∧ (feedNibbles sink u b).phase = .run ∧
    sink (.nib x) (feedNibbles sink u b) = (feedNibbles sink u b).raise .capacityExceeded 0

/-- `E b v` counts the elements the sink stage writes for the nibbles of `v`, before `End`: with a nibble it
finds OBUF full, having one more to write, or goes on, with those it has written off the count. -/
def Emits (sink : Token → Block → Block) (E : Block → List Nibble → Nat) : Prop :=
  ∀ (x : Nibble) (v : List Nibble) (b : Block), b.dp.optr ≤ b.params.obufDepth →
    (sink (.nib x) b = b.raise .capacityExceeded 0 ∧
      b.params.obufDepth.toNat < b.dp.optr.toNat + E b (x :: v)) ∨
    ((sink (.nib x) b).phase = b.phase ∧ (sink (.nib x) b).params = b.params ∧
      (sink (.nib x) b).dp.optr ≤ b.params.obufDepth ∧
      (sink (.nib x) b).dp.optr.toNat + E (sink (.nib x) b) v = b.dp.optr.toNat + E b (x :: v))

/-- Either all the elements fit and the sink stage goes on to the end of the stream, or they do not and it
overflows. -/
theorem Emits.fits_or_overflows (hemits : Emits sink E) (hnil : ∀ b, E b [] = 0) (hphase : b.phase = .run)
    (hoptr : b.dp.optr ≤ b.params.obufDepth) :
    (b.dp.optr.toNat + E b v ≤ b.params.obufDepth.toNat ∧ (feedNibbles sink v b).phase = .run ∧
      (feedNibbles sink v b).dp.optr.toNat = b.dp.optr.toNat + E b v) ∨
    (b.params.obufDepth.toNat < b.dp.optr.toNat + E b v ∧ Overflows sink v b) := by
  induction v generalizing b with
  | nil =>
    rw [hnil]
    exact .inl ⟨BitVec.le_def.1 hoptr, hphase, rfl⟩
  | cons x v ih =>
    rcases hemits x v b hoptr with ⟨hfull, hmore⟩ | ⟨hphase', hparams, hoptr', hcount⟩
    · exact .inr ⟨hmore, [], x, v, rfl, hphase, hfull⟩
    · rw [← hcount, ← hparams]
      refine (ih (hphase'.trans hphase) (hparams ▸ hoptr')).imp id fun ⟨hmore, u, y, w, hv, hrest⟩ => ?_
      exact ⟨hmore, x :: u, y, w, congrArg (x :: ·) hv, hrest⟩

theorem Emits.fits (hemits : Emits sink E) (hnil : ∀ b, E b [] = 0) (hphase : b.phase = .run)
    (hoptr : b.dp.optr = 0) (hroom : E b v ≤ b.params.obufDepth.toNat) :
    (feedNibbles sink v b).phase = .run ∧ (feedNibbles sink v b).dp.optr.toNat = E b v := by
  have hzero : b.dp.optr.toNat = 0 := by rw [hoptr]; rfl
  have h := hemits.fits_or_overflows hnil (v := v) hphase (BitVec.le_def.2 (by omega))
  rw [hzero, Nat.zero_add] at h
  rcases h with ⟨-, hrun⟩ | ⟨hmore, -⟩
  · exact hrun
  · exact absurd hroom (Nat.not_le.2 hmore)

theorem Emits.overflows (hemits : Emits sink E) (hnil : ∀ b, E b [] = 0) (hphase : b.phase = .run)
    (hoptr : b.dp.optr = 0) (hmore : b.params.obufDepth.toNat < E b v) : Overflows sink v b := by
  have hzero : b.dp.optr.toNat = 0 := by rw [hoptr]; rfl
  have h := hemits.fits_or_overflows hnil (v := v) hphase (BitVec.le_def.2 (by omega))
  rw [hzero, Nat.zero_add] at h
  rcases h with ⟨hroom, -⟩ | ⟨-, hover⟩
  · exact absurd hroom (Nat.not_le.2 hmore)
  · exact hover

/-- Sink NIB writes one element for each nibble (R95). -/
def nibEmits (_ : Block) (v : List Nibble) : Nat := v.length

/-- Sink COMBINE writes one element for each pair, a held nibble counted (R96). -/
def combineEmits (b : Block) (v : List Nibble) : Nat := (b.dp.holdv.toNat + v.length) / 2

/-- Sink RLE writes one element for each record but the last, which it leaves to `End` (R112). -/
def rleEmits (b : Block) (v : List Nibble) : Nat := (enc (b.dp.openRun ++ v)).length - 1

/-- Sink RLECOUNT writes nothing (R113). -/
def rleCountEmits (_ : Block) (_ : List Nibble) : Nat := 0

theorem nibEmits_nil (b : Block) : nibEmits b [] = 0 := rfl

theorem combineEmits_nil (b : Block) : combineEmits b [] = 0 := by
  unfold combineEmits
  cases b.dp.holdv <;> rfl

theorem rleEmits_nil (b : Block) : rleEmits b [] = 0 := by
  rw [rleEmits, List.append_nil]
  by_cases hnone : b.dp.run = 0
  · rw [Datapath.openRun_none hnone]
    rfl
  · rw [Datapath.enc_openRun_fin hnone]
    rfl

theorem rleCountEmits_nil (b : Block) : rleCountEmits b [] = 0 := rfl

theorem sinkNib_emits : Emits sinkNib nibEmits := by
  intro x v b hle
  unfold nibEmits
  rw [List.length_cons]
  by_cases hfull : b.dp.optr = b.params.obufDepth
  · exact .inl ⟨sinkNib_full hfull, by rw [hfull]; omega⟩
  · obtain ⟨hlt, hsucc⟩ := toNat_succ_of_le_of_ne hle hfull
    rw [sinkNib_nib hfull]
    refine .inr ⟨rfl, rfl, BitVec.le_def.2 (hsucc ▸ hlt), ?_⟩
    rw [Block.push_dp, hsucc]
    omega

theorem sinkCombine_emits : Emits sinkCombine combineEmits := by
  intro x v b hle
  unfold combineEmits
  rw [List.length_cons]
  cases hheld : b.dp.holdv with
  | false =>
    rw [sinkCombine_hold hheld]
    refine .inr ⟨rfl, rfl, hle, ?_⟩
    simp only [Bool.toNat_true, Bool.toNat_false]
    omega
  | true =>
    by_cases hfull : b.dp.optr = b.params.obufDepth
    · refine .inl ⟨sinkCombine_full hheld hfull, ?_⟩
      rw [hfull, Bool.toNat_true]
      omega
    · obtain ⟨hlt, hsucc⟩ := toNat_succ_of_le_of_ne hle hfull
      rw [sinkCombine_pair hheld hfull]
      refine .inr ⟨rfl, rfl, BitVec.le_def.2 (hsucc ▸ hlt), ?_⟩
      simp only [Block.push_dp, hsucc, Bool.toNat_true, Bool.toNat_false]
      omega

theorem enc_cons_length_pos (x : Nibble) (v : List Nibble) : 0 < (enc (x :: v)).length := by
  obtain ⟨hleast, -⟩ := enc_length_bounds (x :: v)
  rw [List.length_cons] at hleast
  omega

theorem sinkRle_emits : Emits sinkRle rleEmits := by
  intro x v b hle
  unfold rleEmits
  by_cases hnone : b.dp.run = 0
  · rw [sinkRle_open hnone, Datapath.openRun_none hnone]
    exact .inr ⟨rfl, rfl, hle, rfl⟩
  by_cases hsame : x = b.dp.cur ∧ b.dp.run.toNat < 15
  · obtain ⟨hx, hlt⟩ := hsame
    rw [sinkRle_extend hnone ⟨hx, hlt⟩, Datapath.openRun_extend hlt, ← hx, List.append_assoc]
    exact .inr ⟨rfl, rfl, hle, rfl⟩
  have hpos := enc_cons_length_pos x v
  rw [Datapath.enc_openRun_close hnone hsame, List.length_cons, Nat.add_sub_cancel]
  by_cases hfull : b.dp.optr = b.params.obufDepth
  · exact .inl ⟨sinkRle_full hnone hsame hfull, by rw [hfull]; omega⟩
  · obtain ⟨hlt, hsucc⟩ := toNat_succ_of_le_of_ne hle hfull
    rw [sinkRle_close hnone hsame hfull]
    refine .inr ⟨rfl, rfl, BitVec.le_def.2 (hsucc ▸ hlt), ?_⟩
    show (b.dp.optr + 1).toNat + ((enc (x :: v)).length - 1) = _
    omega

theorem sinkRleCount_emits : Emits sinkRleCount rleCountEmits := by
  intro x v b hle
  obtain ⟨_, hcounted, -⟩ := sinkRleCount_nib_counted x v b
  exact .inr ⟨hcounted.phase, hcounted.params, hcounted.optr ▸ hle, by rw [hcounted.optr]; rfl⟩

/-! ### The last record -/

theorem feedNibbles_append (sink : Token → Block → Block) (v w : List Nibble) (b : Block) :
    feedNibbles sink (v ++ w) b = feedNibbles sink w (feedNibbles sink v b) := by
  induction v generalizing b with
  | nil => rfl
  | cons x v ih => exact ih _

/-- After a nibble that it has taken, sink RLE has a run open (R112). -/
theorem sinkRle_nib_run_ne_zero (hphase : (sinkRle (.nib x) b).phase = .run) :
    (sinkRle (.nib x) b).dp.run ≠ 0 := by
  by_cases hnone : b.dp.run = 0
  · simp [sinkRle_open hnone]
  by_cases hsame : x = b.dp.cur ∧ b.dp.run.toNat < 15
  · obtain ⟨-, hlt⟩ := id hsame
    rw [sinkRle_extend hnone hsame]
    exact BitVec.toNat_ne.2 (by simp; omega)
  by_cases hfull : b.dp.optr = b.params.obufDepth
  · simp [sinkRle_full hnone hsame hfull] at hphase
  · simp [sinkRle_close hnone hsame hfull]

theorem feedNibbles_sinkRle_run_ne_zero (hv : v ≠ []) (hphase : (feedNibbles sinkRle v b).phase = .run) :
    (feedNibbles sinkRle v b).dp.run ≠ 0 := by
  obtain ⟨u, x, rfl⟩ := (List.eq_nil_or_concat' v).resolve_left hv
  rw [feedNibbles_append] at hphase ⊢
  exact sinkRle_nib_run_ne_zero hphase

theorem feedNibbles_sinkRle_params (v : List Nibble) (b : Block) :
    (feedNibbles sinkRle v b).params = b.params := by
  induction v generalizing b with
  | nil => rfl
  | cons x v ih =>
    obtain ⟨-, -, -, hparams, -⟩ := (sinkRle_frame (.nib x) b).frame
    exact (ih _).trans hparams

/-- With room for every record but the last, sink RLE takes the whole stream and raises at `End`. -/
theorem sinkRle_last_overflows (hphase : b.phase = .run) (hoptr : b.dp.optr = 0) (hnone : b.dp.run = 0)
    (hlast : (enc v).length = b.params.obufDepth.toNat + 1) :
    (feedNibbles sinkRle v b).phase = .run ∧
      feedStream sinkRle v b = (feedNibbles sinkRle v b).raise .capacityExceeded 0 := by
  have hcount : rleEmits b v = b.params.obufDepth.toNat := by
    rw [rleEmits, Datapath.openRun_none hnone, List.nil_append, hlast, Nat.add_sub_cancel]
  obtain ⟨hrun, hend⟩ := sinkRle_emits.fits rleEmits_nil hphase hoptr hcount.le
  have hv : v ≠ [] := by
    rintro rfl
    simp at hlast
  refine ⟨hrun, ?_⟩
  rw [feedStream_eq]
  refine sinkRle_fin_full (feedNibbles_sinkRle_run_ne_zero hv hrun) (BitVec.eq_of_toNat_eq ?_)
  rw [hend, hcount, feedNibbles_sinkRle_params]

/-! ### The engine steps to an error -/

/-- A RUN whose stream overflows OBUF ends with CapacityExceeded at one of its nibbles. -/
theorem engineNext_overflow (hop : HasStages op) (hstages : runStep op = runStages source (sinkStage op))
    (hcfg : b.cfg.op = op) (hover : Overflows (sinkStage op) v b)
    (h : Produces source last b (v ++ w) b.dp) :
    ∃ n ≤ v.length, (Block.engineNext^[n] b).Shows (.failure .capacityExceeded 0) := by
  obtain ⟨u, x, rest, rfl, hphase, hfull⟩ := hover
  rw [List.append_assoc] at h
  have hsame : b.SameInput (feedNibbles (sinkStage op) u b) := Block.SameInput.afterNibbles {} hop u
  obtain ⟨dp, hnibbles, dp', hsource, -⟩ := engineNext_nibbles hop hstages hcfg {} hphase h
  rw [Block.withSource_self] at hnibbles
  refine ⟨u.length + 1, by simp, ?_⟩
  rw [Function.iterate_succ_apply', hnibbles,
    Block.engineNext_run (b := Block.withSource dp _) hphase ((congrArg _ hsame.cfg).trans hcfg) hstages,
    runStages_nib (hsource _ hsame), sinkStage_withSource hop, hfull]
  exact ⟨rfl, rfl⟩

/-- A RUN whose source stage raises after the stream ends with that error. -/
theorem engineNext_raised (hop : HasStages op) (hstages : runStep op = runStages source (sinkStage op))
    (hcfg : b.cfg.op = op) (hphase : (feedNibbles (sinkStage op) v b).phase = .run)
    (h : Produces source (.raised e pos) b v b.dp) :
    (Block.engineNext^[v.length + 1] b).Shows (.failure e pos) := by
  have hsame : b.SameInput (feedNibbles (sinkStage op) v b) := Block.SameInput.afterNibbles {} hop v
  obtain ⟨dp, hnibbles, hend⟩ :=
    engineNext_nibbles hop hstages hcfg {} hphase ((List.append_nil v).symm ▸ h)
  rw [Block.withSource_self] at hnibbles
  rw [Function.iterate_succ_apply', hnibbles,
    Block.engineNext_run (b := Block.withSource dp _) hphase ((congrArg _ hsame.cfg).trans hcfg) hstages,
    runStages_raised (hend _ hsame)]
  exact ⟨rfl, rfl⟩

end Sys2Proof.Machine
end

section
/-! ## The streams of sources NIB and RUNS that end with an error -/

namespace Sys2Proof.Machine

variable {b : Block} {v w : List Nibble} {g rest : List Byte} {r : Byte} {i pos : Word} {k : Nat}
  {dp : Datapath} {last : Fetched}

/-- A list either meets a condition throughout or has a first element that does not. -/
theorem takeWhile_cases {α : Type} (p : α → Bool) (l : List α) :
    ((∀ x ∈ l, p x = true) ∧ l.takeWhile p = l) ∨
    ∃ x rest, l = l.takeWhile p ++ x :: rest ∧ p x = false := by
  by_cases hall : ∀ x ∈ l, p x = true
  · exact .inl ⟨hall, List.takeWhile_eq_self_iff.2 hall⟩
  · have hne : l.dropWhile p ≠ [] := fun h => hall (List.dropWhile_eq_nil_iff.1 h)
    refine .inr ⟨(l.dropWhile p).head hne, (l.dropWhile p).tail, ?_, List.head_dropWhile_not p hne⟩
    rw [List.cons_head_tail, List.takeWhile_append_dropWhile]

/-- The elements from an index on: the first is the entry there, the others start at the next index. -/
theorem Block.inputElements_drop_eq_cons (h : b.inputElements.drop i.toNat = r :: rest) :
    i ≠ b.cfg.inLen ∧ r = b.ibufEntry i ∧ (i + 1).toNat = i.toNat + 1 ∧
      b.inputElements.drop (i + 1).toNat = rest := by
  have hlt : i.toNat < b.cfg.inLen.toNat := by
    rw [← b.inputElements_length]
    by_contra hge
    simp [List.drop_eq_nil_of_le (Nat.le_of_not_lt hge)] at h
  have hne : i ≠ b.cfg.inLen := BitVec.toNat_ne.2 hlt.ne
  obtain ⟨-, hsucc⟩ := toNat_succ_of_le_of_ne (BitVec.le_def.2 hlt.le) hne
  rw [Block.inputElements_drop hlt] at h
  obtain ⟨hr, hrest⟩ := List.cons.inj h
  exact ⟨hne, hr.symm, hsucc, hsucc ▸ hrest⟩

/-! ### Source NIB (R93) -/

/-- Source NIB produces the nibbles before the first element above 15 and raises at that one. -/
theorem sourceNib_produces_raised (hdrop : b.inputElements.drop dp.iptr.toNat = g ++ r :: rest)
    (hsmall : ∀ e ∈ g, e.toNat ≤ 15) (hbig : 15 < r.toNat) (hpos : pos.toNat = dp.iptr.toNat + g.length) :
    Produces sourceNib (.raised .invalidNibble pos) b (g.map lowNibble) dp := by
  induction g generalizing dp with
  | nil =>
    obtain ⟨hne, rfl, -, -⟩ := Block.inputElements_drop_eq_cons hdrop
    obtain rfl : pos = dp.iptr := BitVec.eq_of_toNat_eq hpos
    exact fun c hc => sourceNib_raised (b := c.withSource dp) (hc.cfg ▸ hne) (hc.nextElement dp ▸ hbig)
  | cons e g ih =>
    obtain ⟨hne, rfl, hsucc, hrest⟩ := Block.inputElements_drop_eq_cons hdrop
    rw [List.forall_mem_cons] at hsmall
    obtain ⟨he, hsmall⟩ := hsmall
    rw [List.length_cons] at hpos
    refine ⟨{ dp with iptr := dp.iptr + 1 }, fun c hc => ?_,
      ih (dp := { dp with iptr := dp.iptr + 1 }) hrest hsmall (by simp only [hsucc]; omega)⟩
    rw [← hc.nextElement dp]
    exact sourceNib_nib (hc.cfg ▸ hne) (hc.nextElement dp ▸ he)

/-- A launched operation that reads Nibble elements has before it the nibbles up to the first element above
15, and then that one or `End`. -/
theorem State.Launched.produces_nibblePrefix {s : State} (hs : s.Launched) :
    (s.blk.nibblePrefix.length = s.blk.cfg.inLen.toNat ∧
      Produces sourceNib .fin s.blk.entered s.blk.nibblePrefix s.blk.dp) ∨
    (s.blk.nibblePrefix.length < s.blk.cfg.inLen.toNat ∧
      Produces sourceNib (.raised .invalidNibble (BitVec.ofNat 32 s.blk.nibblePrefix.length))
        s.blk.entered s.blk.nibblePrefix s.blk.dp) := by
  have hzero : s.blk.dp.iptr.toNat = 0 := by rw [hs.dp_eq]; rfl
  have hlen := s.blk.inputElements_length
  have hmax := s.blk.cfg.inLen.isLt
  rw [Block.nibblePrefix, List.length_map]
  rcases takeWhile_cases (fun e => highNibble e == 0) s.blk.inputElements with
    ⟨hall, hprefix⟩ | ⟨r, rest, hsplit, hbig⟩
  · rw [hprefix]
    exact .inl ⟨hlen, hs.produces_nibbles fun e he => (highNibble_eq_zero_iff e).1 (by simpa using hall e he)⟩
  · have hsmall : ∀ e ∈ s.blk.inputElements.takeWhile fun e => highNibble e == 0, e.toNat ≤ 15 :=
      fun e he => (highNibble_eq_zero_iff e).1 (by simpa using List.mem_takeWhile_imp he)
    have hr : 15 < r.toNat := by
      rw [← Nat.not_le, ← highNibble_eq_zero_iff]
      simpa using hbig
    have hlt := congrArg List.length hsplit
    rw [List.length_append, List.length_cons] at hlt
    refine .inr ⟨by omega, sourceNib_produces_raised (b := s.blk.entered) (r := r) (rest := rest) ?_ hsmall hr ?_⟩
    · rw [hzero, List.drop_zero]
      exact hsplit
    · rw [hzero, Nat.zero_add, BitVec.toNat_ofNat, Nat.mod_eq_of_lt (by omega)]

/-! ### Source RUNS (R114) -/

/-- Source RUNS produces what is left of the record in DVAL and REP before whatever comes after it. -/
theorem sourceRuns_produces_copies (hrep : dp.rep.toNat = k)
    (h : Produces sourceRuns last b w { dp with rep := 0 }) :
    Produces sourceRuns last b (List.replicate k dp.dval ++ w) dp := by
  induction k generalizing dp with
  | zero =>
    have hzero : dp.rep = 0 := BitVec.eq_of_toNat_eq hrep
    rwa [← hzero] at h
  | succ k ih =>
    have hne : dp.rep ≠ 0 := BitVec.toNat_ne.2 (by simp [hrep])
    have hpred := Nibble.toNat_pred hne
    exact ⟨{ dp with rep := dp.rep - 1 }, fun c _ => sourceRuns_copy (b := c.withSource dp) hne,
      ih (dp := { dp with rep := dp.rep - 1 }) (by simp only; omega) h⟩

/-- Source RUNS produces the nibbles of the records before the first with length 0 and raises at that one. -/
theorem sourceRuns_produces_raised (hdrop : b.inputElements.drop dp.iptr.toNat = g ++ r :: rest)
    (hrep : dp.rep = 0) (hgood : ∀ q ∈ g, lowNibble q ≠ 0) (hbad : lowNibble r = 0)
    (hpos : pos.toNat = dp.iptr.toNat + g.length) :
    Produces sourceRuns (.raised .malformedStream pos) b (runsOf g) dp := by
  induction g generalizing dp with
  | nil =>
    obtain ⟨hne, rfl, -, -⟩ := Block.inputElements_drop_eq_cons hdrop
    obtain rfl : pos = dp.iptr := BitVec.eq_of_toNat_eq hpos
    exact fun c hc => sourceRuns_raised (b := c.withSource dp) hrep (hc.cfg ▸ hne) (hc.nextElement dp ▸ hbad)
  | cons q g ih =>
    obtain ⟨hne, rfl, hsucc, hrest⟩ := Block.inputElements_drop_eq_cons hdrop
    rw [List.forall_mem_cons] at hgood
    obtain ⟨hq, hgood⟩ := hgood
    rw [List.length_cons] at hpos
    rw [runsOf_cons, ← Nibble.toNat_pred hq, List.replicate_succ]
    refine ⟨dp.fetched (b.ibufEntry dp.iptr), fun c hc => ?_,
      sourceRuns_produces_copies (dp := dp.fetched (b.ibufEntry dp.iptr)) rfl
        (ih (dp := { dp.fetched (b.ibufEntry dp.iptr) with rep := 0 }) hrest rfl hgood ?_)⟩
    · have hentry := hc.nextElement dp
      rw [sourceRuns_fetch (b := c.withSource dp) hrep (hc.cfg ▸ hne) (hentry ▸ hq), hentry]
      rfl
    · simp only [Datapath.fetched, hsucc]
      omega

/-- A launched DECODE has the nibbles of the records before the first with length 0 before it, and then that
record. -/
theorem State.Launched.produces_runs_raised {s : State} (hs : s.Launched)
    (hsplit : s.blk.inputElements = g ++ r :: rest) (hgood : ∀ q ∈ g, lowNibble q ≠ 0)
    (hbad : lowNibble r = 0) :
    Produces sourceRuns (.raised .malformedStream (BitVec.ofNat 32 g.length)) s.blk.entered (runsOf g)
      s.blk.dp := by
  have hzero : s.blk.dp.iptr.toNat = 0 := by rw [hs.dp_eq]; rfl
  have hrep : s.blk.dp.rep = 0 := by rw [hs.dp_eq]; rfl
  have hlen := congrArg List.length hsplit
  have hmax := s.blk.cfg.inLen.isLt
  rw [s.blk.inputElements_length, List.length_append, List.length_cons] at hlen
  refine sourceRuns_produces_raised (b := s.blk.entered) (r := r) (rest := rest) ?_ hrep hgood hbad ?_
  · rw [hzero, List.drop_zero]
    exact hsplit
  · rw [hzero, Nat.zero_add, BitVec.toNat_ofNat, Nat.mod_eq_of_lt (by omega)]

theorem goodRunTotal_append (hgood : ∀ q ∈ g, lowNibble q ≠ 0) (rs : List Byte) :
    goodRunTotal (g ++ rs) = (runsOf g).length + goodRunTotal rs := by
  induction g with
  | nil => exact (Nat.zero_add _).symm
  | cons q g ih =>
    rw [List.forall_mem_cons] at hgood
    obtain ⟨hq, hgood⟩ := hgood
    rw [List.cons_append, goodRunTotal, if_neg hq, ih hgood, runsOf_cons, List.length_append,
      List.length_replicate, Nat.add_assoc]

theorem goodRunTotal_malformed (hbad : lowNibble r = 0) (rs : List Byte) : goodRunTotal (r :: rs) = 0 :=
  if_pos hbad

theorem decFrom_malformed (hgood : ∀ q ∈ g, lowNibble q ≠ 0) (hbad : lowNibble r = 0) (rs : List Byte)
    (i : Nat) : decFrom i (g ++ r :: rs) = .error (i + g.length) := by
  induction g generalizing i with
  | nil => exact decFrom_cons_malformed i rs hbad
  | cons q g ih =>
    rw [List.forall_mem_cons] at hgood
    obtain ⟨hq, hgood⟩ := hgood
    rw [List.cons_append, decFrom_cons i _ hq, ih hgood, List.length_cons, Nat.add_assoc, Nat.add_comm 1]
    rfl

/-- DECODE of records none of which is malformed: their nibbles, if they fit OBUF (R117). -/
theorem Block.decodeVerdict_of_good (hgood : ∀ q ∈ b.inputElements, lowNibble q ≠ 0) :
    b.decodeVerdict = b.emitted ((runsOf b.inputElements).map (·.setWidth 8)) := by
  have htotal : goodRunTotal b.inputElements = (runsOf b.inputElements).length := by
    simpa [goodRunTotal] using goodRunTotal_append hgood []
  rw [Block.decodeVerdict, Block.emitted, dec_eq_ok_iff.2 ⟨hgood, rfl⟩, htotal, List.length_map]
  by_cases hmore : b.params.obufDepth.toNat < (runsOf b.inputElements).length
  · rw [if_pos hmore, if_neg (Nat.not_le.2 hmore)]
  · rw [if_neg hmore, if_pos (Nat.le_of_not_lt hmore)]

/-- DECODE up to a malformed record: its error, unless the nibbles before it do not fit OBUF (R117). -/
theorem Block.decodeVerdict_of_malformed (hsplit : b.inputElements = g ++ r :: rest)
    (hgood : ∀ q ∈ g, lowNibble q ≠ 0) (hbad : lowNibble r = 0) :
    b.decodeVerdict = if b.params.obufDepth.toNat < (runsOf g).length then .failure .capacityExceeded 0
      else .failure .malformedStream (BitVec.ofNat 32 g.length) := by
  have htotal : goodRunTotal b.inputElements = (runsOf g).length := by
    rw [hsplit, goodRunTotal_append hgood, goodRunTotal_malformed hbad, Nat.add_zero]
  have hdec : dec b.inputElements = .error g.length := by
    rw [dec, hsplit, decFrom_malformed hgood hbad, Nat.zero_add]
  rw [Block.decodeVerdict, htotal, hdec]

theorem runsOf_length_le (rs : List Byte) : (runsOf rs).length ≤ 15 * rs.length := by
  induction rs with
  | nil => exact Nat.le_refl 0
  | cons q rs ih =>
    have hmax := (lowNibble q).isLt
    rw [runsOf_cons, List.length_append, List.length_replicate, List.length_cons]
    omega

end Sys2Proof.Machine
end

section
/-! ## Every launched operation reaches its verdict -/

namespace Sys2Proof.Machine

variable {s : State} {v w : List Nibble} {m n : Nat} {e : ErrCode} {pos : Word} {r : Verdict}
  {source : Block → Fetched} {last : Fetched} {E : Block → List Nibble → Nat}

/-! ### From launch to an error -/

/-- The operation ends with verdict `r`, and with an error in fewer than `n` steps (R203). -/
def EndsPromptly (n : Nat) (s : State) (r : Verdict) : Prop :=
  ∃ m, EndsWith m s r ∧ ∀ e pos, r = .failure e pos → m < n

theorem EndsPromptly.of_success {out : List Byte} {result : Word} (h : EndsWith m s (.success out result)) :
    EndsPromptly n s (.success out result) := ⟨m, h, nofun⟩

theorem EndsPromptly.of_failure (h : EndsWith m s (.failure e pos)) (hm : m < n) :
    EndsPromptly n s (.failure e pos) := ⟨m, h, fun _ _ _ => hm⟩

theorem EndsPromptly.mono (h : EndsPromptly m s r) (hmn : m ≤ n) : EndsPromptly n s r := by
  obtain ⟨k, hends, hearly⟩ := h
  exact ⟨k, hends, fun e pos he => Nat.lt_of_lt_of_le (hearly e pos he) hmn⟩

theorem State.Launched.optr_eq (hs : s.Launched) : s.blk.entered.dp.optr = 0 := congrArg _ hs.dp_eq

theorem State.Launched.combineEmits (hs : s.Launched) (v : List Nibble) :
    Machine.combineEmits s.blk.entered v = v.length / 2 := by
  have hfree : s.blk.entered.dp.holdv = false := congrArg _ hs.dp_eq
  rw [Machine.combineEmits, hfree, Bool.toNat_false, Nat.zero_add]

theorem State.Launched.rleEmits (hs : s.Launched) (v : List Nibble) :
    Machine.rleEmits s.blk.entered v = (enc v).length - 1 := by
  have hnone : s.blk.entered.dp.run = 0 := congrArg _ hs.dp_eq
  rw [Machine.rleEmits, Datapath.openRun_none hnone, List.nil_append]

section Launched

variable (hs : s.Launched) (hop : HasStages s.blk.cfg.op) (hcheck : startCheck s.blk.cfg.op s.blk = none)
include hs hop hcheck

theorem engineNext_iterate_launched (n : Nat) :
    Block.engineNext^[n + 1] s.blk = Block.engineNext^[n] s.blk.entered := by
  obtain ⟨hphase, -⟩ := hs
  have hne : s.blk.cfg.op ≠ 0 := by
    intro h
    simp [HasStages, h] at hop
  rw [Function.iterate_succ_apply, Block.engineNext_check hphase hne hcheck]

/-- A launched operation whose stream overflows OBUF ends with CapacityExceeded at one of its nibbles. -/
theorem endsWith_overflow (hstages : runStep s.blk.cfg.op = runStages source (sinkStage s.blk.cfg.op))
    (hover : Overflows (sinkStage s.blk.cfg.op) v s.blk.entered)
    (hsource : Produces source last s.blk.entered (v ++ w) s.blk.dp) :
    ∃ n ≤ 1 + v.length, EndsWith n s (.failure .capacityExceeded 0) := by
  obtain ⟨n, hn, hshows⟩ := engineNext_overflow (b := s.blk.entered) hop hstages rfl hover hsource
  obtain ⟨-, -, -, hport⟩ := id hs
  refine ⟨n + 1, by omega, (endsWith_iff hport).2 ?_⟩
  rwa [engineNext_iterate_launched hs hop hcheck]

/-- So it does if `E` counts more elements for its nibbles than OBUF holds. -/
theorem endsPromptly_overflow (hstages : runStep s.blk.cfg.op = runStages source (sinkStage s.blk.cfg.op))
    (hemits : Emits (sinkStage s.blk.cfg.op) E) (hnil : ∀ b, E b [] = 0)
    (hsource : Produces source last s.blk.entered v s.blk.dp)
    (hmore : s.blk.params.obufDepth.toNat < E s.blk.entered v) :
    EndsPromptly (2 + v.length) s (.failure .capacityExceeded 0) := by
  have hover := hemits.overflows hnil (b := s.blk.entered) rfl hs.optr_eq hmore
  obtain ⟨n, hn, hends⟩ :=
    endsWith_overflow (w := []) hs hop hcheck hstages hover ((List.append_nil v).symm ▸ hsource)
  exact .of_failure hends (by omega)

/-- A launched operation whose source stage raises ends with that error, or with CapacityExceeded if the
nibbles before it do not fit OBUF (R168). -/
theorem endsPromptly_raised (hstages : runStep s.blk.cfg.op = runStages source (sinkStage s.blk.cfg.op))
    (hemits : Emits (sinkStage s.blk.cfg.op) E) (hnil : ∀ b, E b [] = 0)
    (hsource : Produces source (.raised e pos) s.blk.entered v s.blk.dp) :
    EndsPromptly (3 + v.length) s
      (if s.blk.params.obufDepth.toNat < E s.blk.entered v then .failure .capacityExceeded 0
       else .failure e pos) := by
  split
  next hmore => exact (endsPromptly_overflow hs hop hcheck hstages hemits hnil hsource hmore).mono (by omega)
  next hroom =>
    obtain ⟨hphase, -⟩ := hemits.fits hnil (b := s.blk.entered) rfl hs.optr_eq (Nat.le_of_not_lt hroom)
    have hshows := engineNext_raised (b := s.blk.entered) hop hstages rfl hphase hsource
    obtain ⟨-, -, -, hport⟩ := id hs
    refine .of_failure (m := v.length + 1 + 1) ((endsWith_iff hport).2 ?_) (by omega)
    rwa [engineNext_iterate_launched hs hop hcheck]

/-- With sink NIB the first nibble that finds OBUF full ends the operation, whatever follows it. -/
theorem endsPromptly_sinkNib_overflow (hsink : sinkStage s.blk.cfg.op = sinkNib)
    (hstages : runStep s.blk.cfg.op = runStages source sinkNib)
    (hsource : Produces source last s.blk.entered v s.blk.dp)
    (hmore : s.blk.params.obufDepth.toNat < v.length) :
    EndsPromptly (3 + s.blk.params.obufDepth.toNat) s (.failure .capacityExceeded 0) := by
  have hlen : (v.take (s.blk.params.obufDepth.toNat + 1)).length = s.blk.params.obufDepth.toNat + 1 :=
    List.length_take_of_le hmore
  have hover : Overflows sinkNib (v.take (s.blk.params.obufDepth.toNat + 1)) s.blk.entered :=
    sinkNib_emits.overflows nibEmits_nil rfl hs.optr_eq (Nat.lt_of_lt_of_eq (Nat.lt_succ_self _) hlen.symm)
  rw [← List.take_append_drop (s.blk.params.obufDepth.toNat + 1) v] at hsource
  rw [← hsink] at hstages hover
  obtain ⟨n, hn, hends⟩ := endsWith_overflow hs hop hcheck hstages hover hsource
  exact .of_failure hends (by omega)

/-- The operations with sink NIB end with their stream or, at the first nibble too many, with
CapacityExceeded (R95). -/
theorem endsPromptly_sinkNib (hsink : sinkStage s.blk.cfg.op = sinkNib)
    (hstages : runStep s.blk.cfg.op = runStages source sinkNib)
    (hsource : Produces source .fin s.blk.entered v s.blk.dp) :
    EndsPromptly (2 + min v.length (s.blk.params.obufDepth.toNat + 1)) s
      (s.blk.emitted (v.map (·.setWidth 8))) := by
  unfold Block.emitted
  rw [List.length_map]
  split
  next hfits => exact .of_success (endsWith_sinkNib hs hop hcheck hsource hsink hstages hfits)
  next hmore =>
    exact (endsPromptly_sinkNib_overflow hs hop hcheck hsink hstages hsource (Nat.lt_of_not_le hmore)).mono
      (by omega)

/-- The same for a source stage that raises after its stream. -/
theorem endsPromptly_sinkNib_raised (hsink : sinkStage s.blk.cfg.op = sinkNib)
    (hstages : runStep s.blk.cfg.op = runStages source sinkNib)
    (hsource : Produces source (.raised e pos) s.blk.entered v s.blk.dp) :
    EndsPromptly (3 + min v.length s.blk.params.obufDepth.toNat) s
      (if s.blk.params.obufDepth.toNat < v.length then .failure .capacityExceeded 0
       else .failure e pos) := by
  have hraised := endsPromptly_raised hs hop hcheck (hsink ▸ hstages) (hsink ▸ sinkNib_emits) nibEmits_nil hsource
  unfold nibEmits at hraised
  split at hraised
  next hmore =>
    rw [if_pos hmore]
    exact (endsPromptly_sinkNib_overflow hs hop hcheck hsink hstages hsource hmore).mono (by omega)
  next hroom =>
    rw [if_neg hroom]
    exact hraised.mono (by omega)

/-- The operations with sink COMBINE end with COMB of their stream or with CapacityExceeded (R96). -/
theorem endsPromptly_sinkCombine (hsink : sinkStage s.blk.cfg.op = sinkCombine)
    (hstages : runStep s.blk.cfg.op = runStages source sinkCombine)
    (hsource : Produces source .fin s.blk.entered v s.blk.dp) (heven : v.length % 2 = 0) :
    EndsPromptly (2 + v.length) s (s.blk.combVerdict v) := by
  obtain ⟨out, hcomb⟩ := comb_of_even heven
  have hlen := comb_length hcomb
  simp only [Block.combVerdict, hcomb, Block.emitted]
  split
  next hfits => exact .of_success (endsWith_sinkCombine hs hop hcheck hsource hsink hstages hcomb hfits)
  next hmore =>
    refine endsPromptly_overflow hs hop hcheck (hsink ▸ hstages) (hsink ▸ sinkCombine_emits) combineEmits_nil
      hsource ?_
    rw [hs.combineEmits]
    omega

/-- The operations with sink RLE end with ENC of their stream or with CapacityExceeded, before `End` unless
only the last record does not fit (R112). -/
theorem endsPromptly_sinkRle (hsink : sinkStage s.blk.cfg.op = sinkRle)
    (hstages : runStep s.blk.cfg.op = runStages source sinkRle)
    (hsource : Produces source .fin s.blk.entered v s.blk.dp)
    (hlast : (enc v).length ≠ s.blk.params.obufDepth.toNat + 1) :
    EndsPromptly (2 + v.length) s (s.blk.emitted (enc v)) := by
  unfold Block.emitted
  split
  next hfits => exact .of_success (endsWith_sinkRle hs hop hcheck hsource hsink hstages hfits)
  next hmore =>
    refine endsPromptly_overflow hs hop hcheck (hsink ▸ hstages) (hsink ▸ sinkRle_emits) rleEmits_nil hsource ?_
    rw [hs.rleEmits]
    omega

/-- If only the last record does not fit, `End` finds OBUF full, and every step before is a RUN step. -/
theorem endsWith_sinkRle_last (hsink : sinkStage s.blk.cfg.op = sinkRle)
    (hstages : runStep s.blk.cfg.op = runStages source sinkRle)
    (hsource : Produces source .fin s.blk.entered v s.blk.dp)
    (hlast : (enc v).length = s.blk.params.obufDepth.toNat + 1) :
    EndsWith (2 + v.length) s (s.blk.emitted (enc v)) ∧
      (Block.engineNext^[2 + v.length - 1] s.blk).phase = .run := by
  have hnone : s.blk.entered.dp.run = 0 := congrArg _ hs.dp_eq
  obtain ⟨hphase, hend⟩ := sinkRle_last_overflows (b := s.blk.entered) rfl hs.optr_eq hnone hlast
  rw [← hsink] at hstages hphase hend
  obtain ⟨dp, hstream⟩ := engineNext_stream (b := s.blk.entered) hop hstages rfl hphase hsource
  obtain ⟨dp', hnibbles, -⟩ :=
    engineNext_nibbles (b := s.blk.entered) hop hstages rfl {} hphase ((List.append_nil v).symm ▸ hsource)
  obtain ⟨-, -, -, hport⟩ := id hs
  have hfull : s.blk.emitted (enc v) = .failure .capacityExceeded 0 := if_neg (by omega)
  have hsteps : 2 + v.length = v.length + 1 + 1 := by omega
  constructor
  · rw [endsWith_iff hport, hfull, hsteps, engineNext_iterate_launched hs hop hcheck, hstream, hend]
    exact ⟨rfl, rfl⟩
  · rw [hsteps, Nat.add_sub_cancel, engineNext_iterate_launched hs hop hcheck]
    exact (congrArg Block.phase hnibbles).trans hphase

end Launched

/-! ### The operations whose checks pass -/

/-- R203 for one operation: it ends with its verdict, errors before the bound; the one that the last record
of ENCODE or PACKRLE meets at `End` takes exactly as many steps as the bound. -/
def State.ReachesVerdict (s : State) : Prop :=
  (¬ s.blk.lastRecordOverflows s.blk.cfg.op →
    EndsPromptly (s.blk.stepBound s.blk.cfg.op) s (s.blk.verdict s.blk.cfg.op)) ∧
  (s.blk.lastRecordOverflows s.blk.cfg.op →
    EndsWith (s.blk.stepBound s.blk.cfg.op) s (s.blk.verdict s.blk.cfg.op) ∧
    (Block.engineNext^[s.blk.stepBound s.blk.cfg.op - 1] s.blk).phase = .run)

theorem Block.lastRecordOverflows_op {op : OpNum} {b : Block} (h : b.lastRecordOverflows op) :
    op = 5 ∨ op = 8 := by
  obtain ⟨-, ⟨hop, -⟩ | ⟨hop, -⟩⟩ := h
  · exact .inl hop
  · exact .inr hop

theorem State.ReachesVerdict.of_endsPromptly (hop : ¬ (s.blk.cfg.op = 5 ∨ s.blk.cfg.op = 8))
    (h : EndsPromptly (s.blk.stepBound s.blk.cfg.op) s (s.blk.verdict s.blk.cfg.op)) : s.ReachesVerdict :=
  ⟨fun _ => h, fun hlast => absurd (Block.lastRecordOverflows_op hlast) hop⟩

section Checked

variable (hs : s.Launched) (hcheck : startCheck s.blk.cfg.op s.blk = none)
include hs hcheck

/-- An image operation that passes its checks has the padded stream, one nibble for each step but two. -/
theorem State.Launched.image (himage : usesImage s.blk.cfg.op = true) :
    Produces sourceQpad .fin s.blk.entered s.blk.paddedStream s.blk.dp ∧
    s.blk.stepBound s.blk.cfg.op = 2 + s.blk.paddedStream.length ∧ s.blk.paddedStream.length % 2 = 0 := by
  obtain ⟨-, hchecks, -, -⟩ := (startCheck_eq_none_iff ..).1 hcheck
  obtain ⟨-, hwidth, -, hinLen⟩ := hchecks himage
  have hop : s.blk.cfg.op = 1 ∨ s.blk.cfg.op = 2 ∨ s.blk.cfg.op = 8 := by simpa [usesImage] using himage
  refine ⟨hs.produces_paddedStream hwidth hinLen, ?_, pad_length_even _ (Block.samples_length hinLen)⟩
  rw [Block.stepBound_image hop, Block.paddedStream_length hinLen, Nat.add_comm]

theorem reachesVerdict_pack (hop : s.blk.cfg.op = 1) : s.ReachesVerdict := by
  obtain ⟨hsource, hbound, heven⟩ := hs.image hcheck (by simp [usesImage, hop])
  have hverdict : s.blk.verdict s.blk.cfg.op = s.blk.combVerdict s.blk.paddedStream := by
    rw [Block.verdict, hcheck, hop]
    rfl
  refine .of_endsPromptly (by simp [hop]) ?_
  rw [hverdict, hbound]
  exact endsPromptly_sinkCombine hs (by simp [HasStages, hop]) hcheck (by rw [hop]; rfl) (by rw [hop]; rfl)
    hsource heven

theorem reachesVerdict_qpad (hop : s.blk.cfg.op = 2) : s.ReachesVerdict := by
  obtain ⟨hsource, hbound, -⟩ := hs.image hcheck (by simp [usesImage, hop])
  have hverdict : s.blk.verdict s.blk.cfg.op = s.blk.emitted (s.blk.paddedStream.map (·.setWidth 8)) := by
    rw [Block.verdict, hcheck, hop]
    rfl
  refine .of_endsPromptly (by simp [hop]) ?_
  rw [hverdict, hbound]
  exact (endsPromptly_sinkNib hs (by simp [HasStages, hop]) hcheck (by rw [hop]; rfl) (by rw [hop]; rfl)
    hsource).mono (by omega)

theorem reachesVerdict_packrle (hop : s.blk.cfg.op = 8) : s.ReachesVerdict := by
  obtain ⟨hsource, hbound, -⟩ := hs.image hcheck (by simp [usesImage, hop])
  have hverdict : s.blk.verdict s.blk.cfg.op = s.blk.emitted (enc s.blk.paddedStream) := by
    rw [Block.verdict, hcheck, hop]
    rfl
  have hstages : HasStages s.blk.cfg.op := by simp [HasStages, hop]
  have hlast : s.blk.lastRecordOverflows s.blk.cfg.op ↔
      (enc s.blk.paddedStream).length = s.blk.params.obufDepth.toNat + 1 := by
    rw [Block.lastRecordOverflows, hcheck]
    simp [hop]
  rw [State.ReachesVerdict, hverdict, hbound, hlast]
  exact ⟨endsPromptly_sinkRle hs hstages hcheck (by rw [hop]; rfl) (by rw [hop]; rfl) hsource,
    endsWith_sinkRle_last hs hstages hcheck (by rw [hop]; rfl) (by rw [hop]; rfl) hsource⟩

theorem reachesVerdict_combine (hop : s.blk.cfg.op = 3) : s.ReachesVerdict := by
  have hverdict : s.blk.verdict s.blk.cfg.op =
      s.blk.nibbleVerdict (s.blk.nibblePrefix.length / 2) (s.blk.combVerdict s.blk.nibblePrefix) := by
    rw [Block.verdict, hcheck, hop]
    rfl
  have hstages : HasStages s.blk.cfg.op := by simp [HasStages, hop]
  obtain ⟨-, -, heven, -⟩ := (startCheck_eq_none_iff ..).1 hcheck
  refine .of_endsPromptly (by simp [hop]) ?_
  rw [hverdict, Block.stepBound_nibbles (by simp [hop]), Block.nibbleVerdict]
  rcases hs.produces_nibblePrefix with ⟨hlen, hsource⟩ | ⟨hlen, hsource⟩
  · rw [if_neg hlen.not_lt, ← hlen, Nat.add_comm]
    exact endsPromptly_sinkCombine hs hstages hcheck (by rw [hop]; rfl) (by rw [hop]; rfl) hsource
      (hlen ▸ heven hop)
  · rw [if_pos hlen, ← hs.combineEmits]
    refine .mono (endsPromptly_raised hs hstages hcheck (by rw [hop]; rfl) ?_ combineEmits_nil hsource) (by omega)
    rw [hop]
    exact sinkCombine_emits

theorem reachesVerdict_encode (hop : s.blk.cfg.op = 5) : s.ReachesVerdict := by
  have hverdict : s.blk.verdict s.blk.cfg.op =
      s.blk.nibbleVerdict ((enc s.blk.nibblePrefix).length - 1) (s.blk.emitted (enc s.blk.nibblePrefix)) := by
    rw [Block.verdict, hcheck, hop]
    rfl
  have hstages : HasStages s.blk.cfg.op := by simp [HasStages, hop]
  have hlast : s.blk.lastRecordOverflows s.blk.cfg.op ↔ s.blk.nibblePrefix.length = s.blk.cfg.inLen.toNat ∧
      (enc s.blk.nibblePrefix).length = s.blk.params.obufDepth.toNat + 1 := by
    rw [Block.lastRecordOverflows, hcheck]
    simp [hop]
  rw [State.ReachesVerdict, hverdict, Block.stepBound_nibbles (by simp [hop]), hlast, Block.nibbleVerdict]
  rcases hs.produces_nibblePrefix with ⟨hlen, hsource⟩ | ⟨hlen, hsource⟩
  · rw [if_neg hlen.not_lt, ← hlen, Nat.add_comm _ 2]
    simp only [true_and]
    exact ⟨endsPromptly_sinkRle hs hstages hcheck (by rw [hop]; rfl) (by rw [hop]; rfl) hsource,
      endsWith_sinkRle_last hs hstages hcheck (by rw [hop]; rfl) (by rw [hop]; rfl) hsource⟩
  · rw [if_pos hlen, ← hs.rleEmits]
    refine ⟨fun _ => ?_, fun ⟨heq, _⟩ => absurd heq hlen.ne⟩
    refine .mono (endsPromptly_raised hs hstages hcheck (by rw [hop]; rfl) ?_ rleEmits_nil hsource) (by omega)
    rw [hop]
    exact sinkRle_emits

theorem reachesVerdict_enclen (hop : s.blk.cfg.op = 6) : s.ReachesVerdict := by
  have hverdict : s.blk.verdict s.blk.cfg.op =
      s.blk.nibbleVerdict 0 (.success [] (BitVec.ofNat 32 (enc s.blk.nibblePrefix).length)) := by
    rw [Block.verdict, hcheck, hop]
    rfl
  have hstages : HasStages s.blk.cfg.op := by simp [HasStages, hop]
  refine .of_endsPromptly (by simp [hop]) ?_
  rw [hverdict, Block.stepBound_nibbles (by simp [hop]), Block.nibbleVerdict]
  rcases hs.produces_nibblePrefix with ⟨hlen, hsource⟩ | ⟨hlen, hsource⟩
  · rw [if_neg hlen.not_lt]
    exact .of_success
      (endsWith_sinkRleCount hs hstages hcheck hsource (by rw [hop]; rfl) (by rw [hop]; rfl))
  · rw [if_pos hlen]
    refine .mono
      (endsPromptly_raised (E := rleCountEmits) hs hstages hcheck (by rw [hop]; rfl) ?_ rleCountEmits_nil hsource)
      (by omega)
    rw [hop]
    exact sinkRleCount_emits

theorem reachesVerdict_unpack (hop : s.blk.cfg.op = 4) : s.ReachesVerdict := by
  have hverdict : s.blk.verdict s.blk.cfg.op =
      s.blk.emitted ((split s.blk.inputElements).map (·.setWidth 8)) := by
    rw [Block.verdict, hcheck, hop]
    rfl
  have hbound : s.blk.stepBound s.blk.cfg.op = 2 + (split s.blk.inputElements).length := by
    rw [split_length, Block.inputElements_length, hop]
    rfl
  refine .of_endsPromptly (by simp [hop]) ?_
  rw [hverdict, hbound]
  exact (endsPromptly_sinkNib hs (by simp [HasStages, hop]) hcheck (by rw [hop]; rfl) (by rw [hop]; rfl)
    hs.produces_halves).mono (by omega)

theorem reachesVerdict_decode (hop : s.blk.cfg.op = 7) : s.ReachesVerdict := by
  have hverdict : s.blk.verdict s.blk.cfg.op = s.blk.decodeVerdict := by
    rw [Block.verdict, hcheck, hop]
    rfl
  have hbound : s.blk.stepBound s.blk.cfg.op =
      min (15 * s.blk.cfg.inLen.toNat) (s.blk.params.obufDepth.toNat + 1) + 2 := by
    rw [hop, Block.stepBound_decode]
  have hstages : HasStages s.blk.cfg.op := by simp [HasStages, hop]
  have hsink : sinkStage s.blk.cfg.op = sinkNib := by rw [hop]; rfl
  have hrun : runStep s.blk.cfg.op = runStages sourceRuns sinkNib := by rw [hop]; rfl
  have hlen := s.blk.inputElements_length
  refine .of_endsPromptly (by simp [hop]) ?_
  rw [hverdict, hbound]
  rcases takeWhile_cases (fun q => lowNibble q != 0) s.blk.inputElements with
    ⟨hall, -⟩ | ⟨r, rest, hsplit, hbad⟩
  · have hgood : ∀ q ∈ s.blk.inputElements, lowNibble q ≠ 0 := by simpa using hall
    have hmax := runsOf_length_le s.blk.inputElements
    rw [Block.decodeVerdict_of_good hgood]
    exact (endsPromptly_sinkNib hs hstages hcheck hsink hrun (hs.produces_runs hgood)).mono (by omega)
  · have hgood : ∀ q ∈ s.blk.inputElements.takeWhile fun q => lowNibble q != 0, lowNibble q ≠ 0 :=
      fun q hq => by simpa using List.mem_takeWhile_imp hq
    have hzeroLength : lowNibble r = 0 := by simpa using hbad
    generalize s.blk.inputElements.takeWhile (fun q => lowNibble q != 0) = g at hsplit hgood
    have hmax := runsOf_length_le g
    have hshort := congrArg List.length hsplit
    rw [List.length_append, List.length_cons, hlen] at hshort
    rw [Block.decodeVerdict_of_malformed hsplit hgood hzeroLength]
    exact (endsPromptly_sinkNib_raised hs hstages hcheck hsink hrun
      (hs.produces_runs_raised hsplit hgood hzeroLength)).mono (by omega)

end Checked

/-- The operations that pass their start-time checks, PIXCNT aside. -/
theorem State.Launched.reachesVerdict (hs : s.Launched) (hne : s.blk.cfg.op ≠ 0)
    (hcheck : startCheck s.blk.cfg.op s.blk = none) : s.ReachesVerdict := by
  obtain ⟨hdefined, -⟩ := (startCheck_eq_none_iff ..).1 hcheck
  rcases op_cases_of_defined hne hdefined with hop | hop | hop | hop | hop | hop | hop | hop
  · exact reachesVerdict_pack hs hcheck hop
  · exact reachesVerdict_qpad hs hcheck hop
  · exact reachesVerdict_combine hs hcheck hop
  · exact reachesVerdict_unpack hs hcheck hop
  · exact reachesVerdict_encode hs hcheck hop
  · exact reachesVerdict_enclen hs hcheck hop
  · exact reachesVerdict_decode hs hcheck hop
  · exact reachesVerdict_packrle hs hcheck hop

/-! ### The operations that end in CHECK -/

/-- A launched operation that a start-time check stops ends with its error in one step (R168). -/
theorem State.Launched.endsWith_check (hs : s.Launched) (hcheck : startCheck s.blk.cfg.op s.blk = some e) :
    EndsWith 1 s (s.blk.verdict s.blk.cfg.op) := by
  obtain ⟨hphase, -, -, hport⟩ := hs
  have hverdict : s.blk.verdict s.blk.cfg.op = .failure e 0 := by rw [Block.verdict, hcheck]
  have hnext : s.blk.engineNext = s.blk.raise e 0 := by
    rw [Block.engineNext, engineStep_check hphase, stepCheck, hcheck]
  rw [endsWith_iff hport, hverdict, Function.iterate_one, hnext]
  exact ⟨rfl, rfl⟩

/-- A launched PIXCNT completes in one step (R87). -/
theorem State.Launched.endsWith_pixcnt (hs : s.Launched) (hop : s.blk.cfg.op = 0) :
    EndsWith 1 s (.success [] (BitVec.ofNat 32 (pixelCount s.blk.cfg.width s.blk.cfg.height))) := by
  obtain ⟨hphase, -, hres, hport⟩ := hs
  have hnext : s.blk.engineNext.phase = .done ∧ s.blk.engineNext.res =
      { s.blk.res with
        outLen := 0, result := BitVec.ofNat 32 (pixelCount s.blk.cfg.width s.blk.cfg.height) } := by
    rw [Block.engineNext, engineStep_check hphase, hop, stepCheck, startCheck_pixcnt]
    exact ⟨rfl, rfl⟩
  obtain ⟨hdone, hresult⟩ := hnext
  rw [endsWith_iff hport, Function.iterate_one]
  refine ⟨hdone, ?_, Nat.zero_le _, nofun⟩
  rw [hresult, hres]
  rfl

theorem Block.two_le_stepBound {op : OpNum} (hne : op ≠ 0) (hdefined : op.toNat < 9) (b : Block) :
    2 ≤ b.stepBound op := by
  rcases op_cases_of_defined hne hdefined with rfl | rfl | rfl | rfl | rfl | rfl | rfl | rfl <;>
    exact Nat.le_add_right 2 _

/-- A launched operation ends with its verdict after `N` steps, fewer than the bound for all errors but
those of reserved numbers and of a last record. -/
theorem State.Launched.exists_end (hs : s.Launched) :
    ∃ N, EndsWith N s (s.blk.verdict s.blk.cfg.op) ∧
      (s.blk.cfg.op.toNat < 9 → ∀ e pos, s.blk.verdict s.blk.cfg.op = .failure e pos →
        ¬ s.blk.lastRecordOverflows s.blk.cfg.op → N < s.blk.stepBound s.blk.cfg.op) ∧
      (s.blk.lastRecordOverflows s.blk.cfg.op →
        (Block.engineNext^[s.blk.stepBound s.blk.cfg.op - 1] s.blk).phase = .run) := by
  cases hcheck : startCheck s.blk.cfg.op s.blk with
  | some e =>
    have hnone : ¬ s.blk.lastRecordOverflows s.blk.cfg.op := by simp [Block.lastRecordOverflows, hcheck]
    have hne : s.blk.cfg.op ≠ 0 := by
      intro hop
      rw [hop, startCheck_pixcnt] at hcheck
      cases hcheck
    exact ⟨1, hs.endsWith_check hcheck, fun hdefined _ _ _ _ => s.blk.two_le_stepBound hne hdefined,
      fun hlast => absurd hlast hnone⟩
  | none =>
    by_cases hop : s.blk.cfg.op = 0
    · have hverdict : s.blk.verdict s.blk.cfg.op =
          .success [] (BitVec.ofNat 32 (pixelCount s.blk.cfg.width s.blk.cfg.height)) := by
        rw [Block.verdict, hcheck, hop]
        rfl
      rw [hverdict]
      exact ⟨1, hs.endsWith_pixcnt hop, nofun,
        fun hlast => absurd (Block.lastRecordOverflows_op hlast) (by simp [hop])⟩
    · obtain ⟨hprompt, hlastRun⟩ := hs.reachesVerdict hop hcheck
      by_cases hlast : s.blk.lastRecordOverflows s.blk.cfg.op
      · obtain ⟨hends, hrun⟩ := hlastRun hlast
        exact ⟨_, hends, fun _ _ _ _ hnot => absurd hlast hnot, fun _ => hrun⟩
      · obtain ⟨N, hends, hearly⟩ := hprompt hlast
        exact ⟨N, hends, fun _ e pos hr _ => hearly e pos hr, fun h => absurd h hlast⟩

/-- Settles O40: the operation ends with its verdict after some number of steps and is in DONE for the first
time within the bound; that first step shows the same verdict, since DONE is kept, and comes no later. -/
theorem everyOperationReachesItsVerdict : Obligations.EveryOperationReachesItsVerdict := by
  unfold Obligations.EveryOperationReachesItsVerdict
  intro s hs
  obtain ⟨N, hends, hearly, hlastRun⟩ := hs.exists_end
  obtain ⟨hphase, hdp, -, hport⟩ := hs
  obtain ⟨n, hpos, hbound, hdone, hbusy⟩ :=
    (Block.endsWithin_stepBound hphase hdp).exists_first (by simp [hphase])
  have hfirst {m : Nat} (hm : (Block.engineNext^[m] s.blk).phase = .done) : n ≤ m := by
    by_contra hlt
    have hbefore := hbusy m (Nat.lt_of_not_le hlt)
    simp [hm] at hbefore
  have hshows := (endsWith_iff hport).1 hends
  have hn : n ≤ N := hfirst hshows.phase
  rw [Block.engineNext_iterate_of_done hdone hn] at hshows
  refine ⟨n, hpos, hbound, (endsWith_iff hport).2 hshows, fun k hk => ?_, fun hdefined e pos hr hnot => ?_,
    fun hlast => ?_⟩
  · exact ⟨_, core_run_engine hport k, hbusy k hk⟩
  · exact Nat.lt_of_le_of_lt hn (hearly (Nat.lt_succ_of_le hdefined) e pos hr hnot)
  · have hrun := hlastRun hlast
    by_contra hne
    have hle : n ≤ s.blk.stepBound s.blk.cfg.op - 1 := by omega
    rw [Block.engineNext_iterate_of_done hdone hle, hdone] at hrun
    cases hrun

end Sys2Proof.Machine
end

section
/-! ## Errors: the start-time checks, the errors of a RUN step, and what an error leaves -/

namespace Sys2Proof.Machine

variable {s t : State} {b c : Block} {op : OpNum} {e : ErrCode} {pos : Word}
  {P : ErrCode → Word → Prop} {source : Block → Fetched} {sink : Token → Block → Block}

/-! ### Start-time checks that fail (R168) -/

theorem startCheck_reserved (hop : 9 ≤ op.toNat) : startCheck op b = some .illegalOp := if_pos hop

theorem op_of_usesImage : usesImage op = true → ¬ 9 ≤ op.toNat ∧ op ≠ 0 ∧ op ≠ 3 := by
  revert op
  decide

theorem startCheck_image_designator (himage : usesImage op = true) (htdesig : 15 < b.cfg.tdesig.toNat) :
    startCheck op b = some .configurationOutOfRange := by
  obtain ⟨hdefined, -, -⟩ := op_of_usesImage himage
  unfold startCheck
  rw [if_neg hdefined, if_pos ⟨himage, htdesig⟩]

theorem startCheck_image_dimensions (himage : usesImage op = true) (htdesig : b.cfg.tdesig.toNat ≤ 15)
    (hdims : b.cfg.width = 0 ∨ b.cfg.height = 0 ∨
      b.cfg.inLen.toNat ≠ b.cfg.width.toNat * b.cfg.height.toNat) :
    startCheck op b = some .invalidDimensions := by
  obtain ⟨hdefined, -, -⟩ := op_of_usesImage himage
  unfold startCheck
  rw [if_neg hdefined, if_neg fun h => Nat.not_lt.2 htdesig h.2, if_pos ⟨himage, hdims⟩]

theorem startCheck_combine_odd (hodd : b.cfg.inLen.toNat % 2 = 1) :
    startCheck 3 b = some .invalidLength := by
  have himage : ¬ usesImage 3 = true := by decide
  unfold startCheck
  rw [if_neg (by decide), if_neg fun h => himage h.1, if_neg fun h => himage h.1, if_pos ⟨rfl, hodd⟩]

/-- The check of the input's length against IBUF is the last one. -/
theorem startCheck_capacity (hdefined : ¬ 9 ≤ op.toNat) (hne : op ≠ 0)
    (himage : usesImage op = true → b.cfg.tdesig.toNat ≤ 15 ∧ b.cfg.width ≠ 0 ∧ b.cfg.height ≠ 0 ∧
      b.cfg.inLen.toNat = b.cfg.width.toNat * b.cfg.height.toNat)
    (heven : op = 3 → b.cfg.inLen.toNat % 2 = 0) (hdepth : b.params.ibufDepth < b.cfg.inLen) :
    startCheck op b = some .capacityExceeded := by
  unfold startCheck
  rw [if_neg hdefined, if_neg, if_neg, if_neg, if_pos ⟨hne, hdepth⟩]
  · rintro ⟨hop, hodd⟩
    simp [heven hop] at hodd
  · rintro ⟨hop, hdims⟩
    obtain ⟨-, hwidth, hheight, hinLen⟩ := himage hop
    exact hdims.elim hwidth (·.elim hheight (· hinLen))
  · rintro ⟨hop, htdesig⟩
    exact Nat.not_lt.2 (himage hop).1 htdesig

/-- The CHECK step of an operation whose checks fail ends it with the check's error at position 0. -/
theorem exec_decodeOp_of_failedCheck (op : OpNum) (hphase : s.blk.phase = .check)
    (hcheck : startCheck op s.blk = some e) : exec (decodeOp op) s = .next (s.failed e 0) := by
  rw [exec_decodeOp, State.onBlock, engineStep_check hphase, stepCheck, hcheck]
  rfl

/-- Settles O18: the reserved numbers fail the first check. -/
theorem reservedOperationRaisesIllegalOp : Obligations.ReservedOperationRaisesIllegalOp := by
  unfold Obligations.ReservedOperationRaisesIllegalOp
  intro s hphase i hi
  have reserved (op : OpNum) (hop : 9 ≤ op.toNat) : exec (decodeOp op) s = .next (s.failed .illegalOp 0) :=
    exec_decodeOp_of_failedCheck op hphase (startCheck_reserved hop)
  simp only [List.mem_cons, List.not_mem_nil, or_false] at hi
  rcases hi with rfl | rfl | rfl | rfl | rfl | rfl | rfl
  · exact reserved 9 (by decide)
  · exact reserved 10 (by decide)
  · exact reserved 11 (by decide)
  · exact reserved 12 (by decide)
  · exact reserved 13 (by decide)
  · exact reserved 14 (by decide)
  · exact reserved 15 (by decide)

/-- Settles O17: each operation's conditions single out the first of its checks that fails. -/
theorem startTimeChecksRaiseInOrder : Obligations.StartTimeChecksRaiseInOrder := by
  unfold Obligations.StartTimeChecksRaiseInOrder
  intro s hphase
  refine ⟨fun i hi => ?image, fun hodd => ?odd, fun heven hdepth => ?combine, fun i hi hdepth => ?stream⟩
  case image =>
    obtain ⟨op, rfl, himage⟩ : ∃ op, i = decodeOp op ∧ usesImage op = true := by
      simp only [List.mem_cons, List.not_mem_nil, or_false] at hi
      rcases hi with rfl | rfl | rfl
      · exact ⟨1, rfl, rfl⟩
      · exact ⟨2, rfl, rfl⟩
      · exact ⟨8, rfl, rfl⟩
    obtain ⟨hdefined, hne, hne3⟩ := op_of_usesImage himage
    refine ⟨fun htdesig => ?_, fun htdesig hdims => ?_, fun htdesig hwidth hheight hinLen hdepth => ?_⟩
    · exact exec_decodeOp_of_failedCheck op hphase (startCheck_image_designator himage htdesig)
    · exact exec_decodeOp_of_failedCheck op hphase (startCheck_image_dimensions himage htdesig hdims)
    · exact exec_decodeOp_of_failedCheck op hphase (startCheck_capacity hdefined hne
        (fun _ => ⟨htdesig, hwidth, hheight, hinLen⟩) (fun h3 => absurd h3 hne3) hdepth)
  case odd => exact exec_decodeOp_of_failedCheck 3 hphase (startCheck_combine_odd hodd)
  case combine =>
    exact exec_decodeOp_of_failedCheck 3 hphase
      (startCheck_capacity (by decide) (by decide) (by simp [usesImage]) (fun _ => heven) hdepth)
  case stream =>
    obtain ⟨op, rfl, hdefined, hne, himage, hne3⟩ : ∃ op, i = decodeOp op ∧ ¬ 9 ≤ op.toNat ∧ op ≠ 0 ∧
        usesImage op = false ∧ op ≠ 3 := by
      simp only [List.mem_cons, List.not_mem_nil, or_false] at hi
      rcases hi with rfl | rfl | rfl | rfl
      · exact ⟨4, rfl, by decide⟩
      · exact ⟨5, rfl, by decide⟩
      · exact ⟨6, rfl, by decide⟩
      · exact ⟨7, rfl, by decide⟩
    exact exec_decodeOp_of_failedCheck op hphase
      (startCheck_capacity hdefined hne (by simp [himage]) (fun h3 => absurd h3 hne3) hdepth)

/-! ### Errors of a RUN step (R163, R166, R167) -/

/-- In RUN, an operation whose source stage raises ends with that error and nothing else changed. -/
theorem exec_decodeOp_of_raised (op : OpNum) (hphase : s.blk.phase = .run)
    (hstages : runStep op s.blk = runStages source sink s.blk) (hsource : source s.blk = .raised e pos) :
    exec (decodeOp op) s = .next (s.failed e pos) :=
  exec_decodeOp_of_run op hphase (hstages.trans (runStages_raised hsource))

/-- In RUN, an operation whose sink stage finds OBUF full ends with CapacityExceeded; only the datapath
shows what its source stage did. -/
theorem exec_decodeOp_of_full (op : OpNum) (hphase : s.blk.phase = .run) {dp : Datapath}
    (hstep : runStep op s.blk = ({ s.blk with dp := dp } : Block).raise .capacityExceeded 0) :
    ∃ dp : Datapath, exec (decodeOp op) s = .next { s with blk := { s.blk with
      dp := dp, phase := .done, res := ⟨true, .capacityExceeded, 0, 0, 0⟩ } } :=
  ⟨dp, exec_decodeOp_of_run op hphase hstep⟩

/-- Settles O29: the source stages raise at the element they look at, and every sink stage with a byte to
emit raises when OBUF is full. -/
theorem runTimeErrorsAreRaised : Obligations.RunTimeErrorsAreRaised := by
  unfold Obligations.RunTimeErrorsAreRaised
  intro s hphase
  refine ⟨fun i hi hmore hbig => ?nibble, fun hrep hmore hlen => ?record, fun hfull i hi => ?full⟩
  case nibble =>
    have hsource := sourceNib_raised hmore hbig
    simp only [List.mem_cons, List.not_mem_nil, or_false] at hi
    rcases hi with rfl | rfl | rfl
    · exact exec_decodeOp_of_raised (sink := sinkCombine) 3 hphase rfl hsource
    · exact exec_decodeOp_of_raised (sink := sinkRle) 5 hphase rfl hsource
    · exact exec_decodeOp_of_raised (sink := sinkRleCount) 6 hphase rfl hsource
  case record =>
    exact exec_decodeOp_of_raised (sink := sinkNib) 7 hphase rfl (sourceRuns_raised hrep hmore hlen)
  case full =>
    rcases hi with ⟨rfl, hrow, hheld⟩ | ⟨rfl, hrow⟩ | ⟨rfl, hopen, hclose⟩ | ⟨rfl, hmore, hsmall, hheld⟩ |
      ⟨rfl, hhalf⟩ | ⟨rfl, hopen, hclose⟩ | ⟨rfl, hnext⟩
    · exact exec_decodeOp_of_full 1 hphase
        ((runStages_nib (sourceQpad_nib hrow)).trans (sinkCombine_full hheld hfull))
    · exact exec_decodeOp_of_full 2 hphase ((runStages_nib (sourceQpad_nib hrow)).trans (sinkNib_full hfull))
    · by_cases hrow : s.blk.dp.row = s.blk.cfg.height
      · exact exec_decodeOp_of_full 8 hphase
          ((runStages_fin (sourceQpad_fin hrow)).trans (sinkRle_fin_full hopen hfull))
      · exact exec_decodeOp_of_full 8 hphase ((runStages_nib (sourceQpad_nib hrow)).trans
          (sinkRle_full hopen (hclose.resolve_left hrow) hfull))
    · exact exec_decodeOp_of_full 3 hphase
        ((runStages_nib (sourceNib_nib hmore hsmall)).trans (sinkCombine_full hheld hfull))
    · cases hsph : s.blk.dp.sph with
      | true =>
        exact exec_decodeOp_of_full 4 hphase
          ((runStages_nib (sourceSplit_low hsph)).trans (sinkNib_full hfull))
      | false =>
        have hmore := hhalf.resolve_left (by simp [hsph])
        exact exec_decodeOp_of_full 4 hphase
          ((runStages_nib (sourceSplit_high hsph hmore)).trans (sinkNib_full hfull))
    · by_cases hend : s.blk.dp.iptr = s.blk.cfg.inLen
      · exact exec_decodeOp_of_full 5 hphase
          ((runStages_fin (sourceNib_fin hend)).trans (sinkRle_fin_full hopen hfull))
      · obtain ⟨hsmall, hother⟩ := hclose.resolve_left hend
        exact exec_decodeOp_of_full 5 hphase
          ((runStages_nib (sourceNib_nib hend hsmall)).trans (sinkRle_full hopen hother hfull))
    · by_cases hrep : s.blk.dp.rep = 0
      · obtain ⟨hmore, hlen⟩ := hnext.resolve_left fun h => h hrep
        exact exec_decodeOp_of_full 7 hphase
          ((runStages_nib (sourceRuns_fetch hrep hmore hlen)).trans (sinkNib_full hfull))
      · exact exec_decodeOp_of_full 7 hphase
          ((runStages_nib (sourceRuns_copy hrep)).trans (sinkNib_full hfull))

/-! ### The stages raise nothing else -/

/-- `t` shows ERR only if `b` does, or because an error of `P` was raised (R170). -/
def Block.RaisesOnly (P : ErrCode → Word → Prop) (b t : Block) : Prop :=
  t.res.err = b.res.err ∨ ∃ d e pos, P e pos ∧ t = Block.raise e pos d

theorem Block.emit_raisesOnly (hcap : P .capacityExceeded 0) (v : Byte) {k : Block → Block}
    (b : Block) (hk : ∀ d : Block, (k d).res.err = d.res.err := by exact fun _ => rfl) :
    b.RaisesOnly P (b.emit v k) := by
  rcases b.emit_cases v k with ⟨-, heq⟩ | ⟨-, heq⟩ <;> rw [heq]
  · exact .inr ⟨b, _, _, hcap, rfl⟩
  · exact .inl (hk _)

theorem sinkNib_raisesOnly (hcap : P .capacityExceeded 0) (tok : Token) (b : Block) :
    b.RaisesOnly P (sinkNib tok b) := by
  cases tok with
  | nib x => exact Block.emit_raisesOnly hcap _ b
  | fin => exact .inl rfl

theorem sinkCombine_nib_raisesOnly (hcap : P .capacityExceeded 0) (x : Nibble) (b : Block) :
    b.RaisesOnly P (sinkCombine (.nib x) b) := by
  simp only [sinkCombine]
  split
  · exact Block.emit_raisesOnly hcap _ b
  · exact .inl rfl

/-- The end-of-input test of sink COMBINE raises only over a held nibble (R96). -/
theorem sinkCombine_fin_raisesOnly (hlen : b.dp.holdv = true → P .invalidLength 0) :
    b.RaisesOnly P (sinkCombine .fin b) := by
  cases hheld : b.dp.holdv with
  | true => exact .inr ⟨b, _, _, hlen hheld, sinkCombine_fin_odd hheld⟩
  | false =>
    rw [sinkCombine_fin hheld]
    exact .inl rfl

theorem sinkRle_raisesOnly (hcap : P .capacityExceeded 0) (tok : Token) (b : Block) :
    b.RaisesOnly P (sinkRle tok b) := by
  cases tok with
  | nib x =>
    simp only [sinkRle]
    split
    · exact .inl rfl
    · split
      · exact .inl rfl
      · exact Block.emit_raisesOnly hcap _ b
  | fin =>
    simp only [sinkRle]
    split
    · exact .inl rfl
    · exact Block.emit_raisesOnly hcap _ b

/-- The counting sink raises nothing (R113). -/
theorem sinkRleCount_raisesOnly (tok : Token) (b : Block) : b.RaisesOnly P (sinkRleCount tok b) := by
  refine .inl ?_
  cases tok with
  | nib x =>
    simp only [sinkRleCount]
    split
    · rfl
    · split <;> rfl
  | fin =>
    simp only [sinkRleCount]
    split <;> rfl

/-- A source stage leaves ERR alone and raises only errors of `P` (R14). -/
def Fetched.RaisesOnly (P : ErrCode → Word → Prop) (b : Block) : Fetched → Prop
  | .nib _ c => c.res.err = b.res.err
  | .fin => True
  | .raised e pos => P e pos

theorem sourceQpad_raisesOnly (b : Block) : (sourceQpad b).RaisesOnly P b := by
  by_cases hrow : b.dp.row = b.cfg.height
  · rw [sourceQpad_fin hrow]
    trivial
  · rw [sourceQpad_nib hrow]
    rfl

theorem sourceNib_raisesOnly (h : P .invalidNibble b.dp.iptr) : (sourceNib b).RaisesOnly P b := by
  unfold sourceNib
  split
  · trivial
  · split
    · rfl
    · exact h

theorem sourceSplit_raisesOnly (b : Block) : (sourceSplit b).RaisesOnly P b := by
  unfold sourceSplit takePackedByte
  split
  · trivial
  · split <;> rfl

theorem sourceRuns_raisesOnly (h : P .malformedStream b.dp.iptr) : (sourceRuns b).RaisesOnly P b := by
  unfold sourceRuns takeRunRecord
  split
  · split
    · trivial
    · split
      · exact h
      · rfl
  · rfl

theorem runStages_raisesOnly (hsource : (source b).RaisesOnly P b)
    (hnib : ∀ (x : Nibble) (c : Block), c.RaisesOnly P (sink (.nib x) c))
    (hfin : source b = .fin → b.RaisesOnly P (sink .fin b)) : b.RaisesOnly P (runStages source sink b) := by
  cases hf : source b with
  | nib x c =>
    rw [hf] at hsource
    rw [runStages_nib hf]
    exact (hnib x c).imp (·.trans hsource) id
  | fin =>
    rw [runStages_fin hf]
    exact hfin hf
  | raised e pos =>
    rw [hf] at hsource
    rw [runStages_raised hf]
    exact .inr ⟨b, e, pos, hsource, rfl⟩

/-! ### The errors of an engine step -/

/-- The errors the RUN step of an operation can raise, with their positions (R168): the source stage's at
IPTR, the sink stage's at 0. -/
inductive RunError (op : OpNum) (b : Block) : ErrCode → Word → Prop where
  | invalidNibble (user : op = 3 ∨ op = 5 ∨ op = 6) : RunError op b .invalidNibble b.dp.iptr
  | malformedStream (user : op = 7) : RunError op b .malformedStream b.dp.iptr
  | capacityExceeded (user : HasStages op) (writes : op ≠ 6) : RunError op b .capacityExceeded 0
  | invalidLength (ended : op = 1 ∧ b.dp.row = b.cfg.height ∨ op = 3 ∧ b.dp.iptr = b.cfg.inLen)
      (held : b.dp.holdv = true) : RunError op b .invalidLength 0

theorem row_of_sourceQpad_fin (h : sourceQpad b = .fin) : b.dp.row = b.cfg.height := by
  by_contra hrow
  simp [sourceQpad_nib hrow] at h

theorem iptr_of_sourceNib_fin (h : sourceNib b = .fin) : b.dp.iptr = b.cfg.inLen := by
  by_contra hmore
  by_cases hbig : 15 < b.nextElement.toNat
  · simp [sourceNib_raised hmore hbig] at h
  · simp [sourceNib_nib hmore (Nat.le_of_not_lt hbig)] at h

theorem runStep_raisesOnly (hop : HasStages op) (b : Block) :
    b.RaisesOnly (RunError op b) (runStep op b) := by
  have hcap (hwrites : op ≠ 6) : RunError op b .capacityExceeded 0 := .capacityExceeded hop hwrites
  rcases hop with rfl | rfl | rfl | rfl | rfl | rfl | rfl | rfl
  · exact runStages_raisesOnly (sourceQpad_raisesOnly b) (sinkCombine_nib_raisesOnly (hcap (by decide)))
      fun hend => sinkCombine_fin_raisesOnly (.invalidLength (.inl ⟨rfl, row_of_sourceQpad_fin hend⟩))
  · have hsink := sinkNib_raisesOnly (hcap (by decide))
    exact runStages_raisesOnly (sourceQpad_raisesOnly b) (fun _ => hsink _) fun _ => hsink _ b
  · exact runStages_raisesOnly (sourceNib_raisesOnly (.invalidNibble (by simp)))
      (sinkCombine_nib_raisesOnly (hcap (by decide)))
      fun hend => sinkCombine_fin_raisesOnly (.invalidLength (.inr ⟨rfl, iptr_of_sourceNib_fin hend⟩))
  · have hsink := sinkNib_raisesOnly (hcap (by decide))
    exact runStages_raisesOnly (sourceSplit_raisesOnly b) (fun _ => hsink _) fun _ => hsink _ b
  · have hsink := sinkRle_raisesOnly (hcap (by decide))
    exact runStages_raisesOnly (sourceNib_raisesOnly (.invalidNibble (by simp))) (fun _ => hsink _)
      fun _ => hsink _ b
  · exact runStages_raisesOnly (sourceNib_raisesOnly (.invalidNibble (by simp)))
      (fun _ => sinkRleCount_raisesOnly _) fun _ => sinkRleCount_raisesOnly _ b
  · have hsink := sinkNib_raisesOnly (hcap (by decide))
    exact runStages_raisesOnly (sourceRuns_raisesOnly (.malformedStream rfl)) (fun _ => hsink _)
      fun _ => hsink _ b
  · have hsink := sinkRle_raisesOnly (hcap (by decide))
    exact runStages_raisesOnly (sourceQpad_raisesOnly b) (fun _ => hsink _) fun _ => hsink _ b

/-- PIXCNT and the reserved numbers change nothing in RUN. -/
theorem runStep_of_not_hasStages (hop : ¬ HasStages op) (b : Block) : runStep op b = b := by
  revert hop
  obtain ⟨⟨n, hn⟩⟩ := op
  unfold HasStages
  interval_cases n <;> simp [runStep]

/-- The errors an engine step can raise: that of the CHECK step at 0, or one of the RUN step. -/
inductive EngineError (op : OpNum) (b : Block) : ErrCode → Word → Prop where
  | check {e : ErrCode} (phase : b.phase = .check) (found : startCheck op b = some e) : EngineError op b e 0
  | run {e : ErrCode} {pos : Word} (phase : b.phase = .run) (error : RunError op b e pos) :
      EngineError op b e pos

theorem engineStep_raisesOnly (op : OpNum) (b : Block) :
    b.RaisesOnly (EngineError op b) (engineStep op (runStep op) b) := by
  cases hphase : b.phase with
  | idle => exact .inl (by rw [engineStep_quiet (.inl hphase)])
  | done => exact .inl (by rw [engineStep_quiet (.inr hphase)])
  | check =>
    rw [engineStep_check hphase]
    rcases stepCheck_cases op b with ⟨e, hfound, heq⟩ | ⟨-, -, heq⟩ | ⟨-, -, heq⟩ <;> rw [heq]
    · exact .inr ⟨b, e, 0, .check hphase hfound, rfl⟩
    · exact .inl rfl
    · exact .inl rfl
  | run =>
    rw [engineStep_run hphase]
    by_cases hop : HasStages op
    · exact (runStep_raisesOnly hop b).imp id fun ⟨d, e, pos, herror, heq⟩ =>
        ⟨d, e, pos, .run hphase herror, heq⟩
    · exact .inl (by rw [runStep_of_not_hasStages hop])

/-- If an operation's step sets ERR, it has raised one of the errors of an engine step. -/
theorem exec_decodeOp_error (hok : s.blk.res.err = false) (hexec : exec (decodeOp op) s = .next t)
    (herr : t.blk.res.err = true) :
    ∃ d e pos, EngineError op s.blk e pos ∧ t = { s with blk := Block.raise e pos d } := by
  rw [exec_decodeOp] at hexec
  cases hexec
  rcases engineStep_raisesOnly op s.blk with hkept | ⟨d, e, pos, herror, heq⟩
  · simp [hkept, hok] at herr
  · exact ⟨d, e, pos, herror, by rw [State.onBlock, heq]⟩

/-! ### Error entry (R170) -/

/-- What the start-time checks can find, by operation (R168). -/
theorem startCheck_eq_some (h : startCheck op b = some e) :
    (9 ≤ op.toNat ∧ e = .illegalOp) ∨
      (usesImage op = true ∧ (e = .configurationOutOfRange ∨ e = .invalidDimensions)) ∨
      (op = 3 ∧ e = .invalidLength) ∨ (HasStages op ∧ e = .capacityExceeded) := by
  unfold startCheck at h
  split_ifs at h with hreserved hdesignator hdims hodd hdepth <;> cases h
  · exact .inl ⟨hreserved, rfl⟩
  · exact .inr (.inl ⟨hdesignator.1, .inl rfl⟩)
  · exact .inr (.inl ⟨hdims.1, .inr rfl⟩)
  · exact .inr (.inr (.inl ⟨hodd.1, rfl⟩))
  · exact .inr (.inr (.inr ⟨op_cases_of_defined hdepth.1 (Nat.lt_of_not_le hreserved), rfl⟩))

/-- Only MalformedStream and InvalidNibble record a position, and that is IPTR. -/
theorem EngineError.position (h : EngineError op b e pos) :
    e ≠ .noError ∧ (e = .malformedStream ∨ e = .invalidNibble → pos = b.dp.iptr) ∧
      (e ≠ .malformedStream → e ≠ .invalidNibble → pos = 0) := by
  cases h with
  | check _ found =>
    rcases startCheck_eq_some found with ⟨-, rfl⟩ | ⟨-, rfl | rfl⟩ | ⟨-, rfl⟩ | ⟨-, rfl⟩ <;> simp
  | run _ error => cases error <;> simp

/-- What an IBUF entry reads as depends only on IBUF and the number of resets (U1). -/
theorem Block.ibufEntry_congr (hibuf : c.ibuf = b.ibuf) (hepoch : c.ibufEpoch = b.ibufEpoch) (i : Word) :
    c.ibufEntry i = b.ibufEntry i := by
  rw [Block.ibufEntry, hibuf, hepoch]
  rfl

/-- Settles O31: an operation that sets ERR has raised an error of its engine step, and the frame of the step
says what `raise` found unchanged. -/
theorem errorEntryKeepsInputAndConfiguration : Obligations.ErrorEntryKeepsInputAndConfiguration := by
  unfold Obligations.ErrorEntryKeepsInputAndConfiguration
  intro s t i hi hok hexec herr
  obtain ⟨op, rfl⟩ := eq_decodeOp_of_format_op hi
  have hframe : s.blk.EmitFrame t.blk := by
    rw [exec_decodeOp] at hexec
    cases hexec
    exact engineStep_frame op (runStep_frame op s.blk)
  obtain ⟨hcfg, hibuf, hepoch, -⟩ := hframe.frame
  obtain ⟨d, e, pos, herror, rfl⟩ := exec_decodeOp_error hok hexec herr
  obtain ⟨hcode, hat, hzero⟩ := herror.position
  have hinvalid (i : Word) : (d.raise e pos).obufRead i = none := if_neg (by simp)
  exact ⟨rfl, hcode, rfl, rfl, hat, hzero, hinvalid, hcfg, hibuf, hepoch,
    Block.ibufEntry_congr hibuf hepoch, rfl⟩

/-! ### Which operation can end with which code (R174) -/

theorem allowed_of_startCheck (h : startCheck op b = some e) : e ∈ allowedErrors (decodeOp op) := by
  rcases startCheck_eq_some h with ⟨hop, rfl⟩ | ⟨himage, he⟩ | ⟨rfl, rfl⟩ | ⟨hop, rfl⟩
  · have reserved : ∀ op : OpNum, 9 ≤ op.toNat → ErrCode.illegalOp ∈ allowedErrors (decodeOp op) := by decide
    exact reserved op hop
  · have hop : op = 1 ∨ op = 2 ∨ op = 8 := by simpa [usesImage] using himage
    rcases hop with rfl | rfl | rfl <;> rcases he with rfl | rfl <;> simp [allowedErrors, decodeOp]
  · simp [allowedErrors, decodeOp]
  · rcases hop with rfl | rfl | rfl | rfl | rfl | rfl | rfl | rfl <;> simp [allowedErrors, decodeOp]

/-- Sink COMBINE holds no nibble at `End`: the padded width and the checked length are even (R96). -/
theorem Block.RunInv.error_ne_invalidLength (h : b.RunInv) (herror : RunError b.cfg.op b e pos) :
    e ≠ .invalidLength := by
  rintro rfl
  obtain ⟨-, hchecked⟩ := h.checked
  cases herror with
  | invalidLength ended held =>
    rcases ended with ⟨hop, hrow⟩ | ⟨hop, hiptr⟩
    · obtain ⟨-, -, hcol, -⟩ := h.grid (by simp [hop, usesImage])
      have hodd := (h.packHold hop).1 held
      simp [hcol hrow] at hodd
    · obtain ⟨-, -, heven, -⟩ := (startCheck_eq_none_iff ..).1 hchecked
      have hodd := (h.combineHold hop).1 held
      simp [hiptr, heven hop] at hodd

theorem RunError.allowed (h : RunError op b e pos) (he : e ≠ .invalidLength) :
    e ∈ allowedErrors (decodeOp op) := by
  cases h with
  | invalidNibble user => rcases user with rfl | rfl | rfl <;> simp [allowedErrors, decodeOp]
  | malformedStream user =>
    subst user
    simp [allowedErrors, decodeOp]
  | capacityExceeded user writes =>
    rcases user with rfl | rfl | rfl | rfl | rfl | rfl | rfl | rfl <;> simp [allowedErrors, decodeOp]
  | invalidLength _ _ => exact absurd rfl he

/-- Settles O30: the error is one of the engine step, and the invariant excludes the end-of-input test of sink
COMBINE. -/
theorem operationEndsOnlyWithAllowedErrors : Obligations.OperationEndsOnlyWithAllowedErrors := by
  unfold Obligations.OperationEndsOnlyWithAllowedErrors
  intro s t h hbusy hexec herr
  have hok : s.blk.res.err = false := by
    rw [(Block.Inv.output h hbusy).launched]
    rfl
  obtain ⟨d, e, pos, herror, rfl⟩ := exec_decodeOp_error hok hexec herr
  simp only [Block.raise_res]
  cases herror with
  | check hphase hfound => exact ⟨allowed_of_startCheck hfound, by simp [hphase]⟩
  | run hphase herror =>
    have hlength := (h.running hphase).error_ne_invalidLength herror
    refine ⟨herror.allowed hlength, fun _ => ⟨hlength, ?_⟩⟩
    rintro hop rfl
    cases herror with
    | capacityExceeded _ writes => exact writes hop

end Sys2Proof.Machine
end

section
/-! ## The host beside a busy engine: one step of the machine -/

namespace Sys2Proof.Machine

/-- Settles O55: the step is the transaction's `exec`, which at most answers a read while the engine is
busy and the transaction is not CLEAR. -/
theorem busyBlockIgnoresTheHost : Obligations.BusyBlockIgnoresTheHost := by
  unfold Obligations.BusyBlockIgnoresTheHost
  intro s w rest hport hbusy hclear
  rw [step_txn hport]
  exact exec_decodeHt_of_busy (s := { s with port := rest }) hbusy hclear

end Sys2Proof.Machine
end
